-- ==== Sys2Proof/Word.lean ====
section
/-! DEFINITION. The word types of the block (spec/00_scope.md R11) and the item an agent puts on the command port
(spec/30_encoding.md R110): the command word and the three operand buses. -/

namespace Sys2Proof

/-- A 32-bit word: command words, virtual addresses, system registers. -/
abbrev Word := BitVec 32

/-- A 64-bit TLB entry (spec/20_memory.md R72), and the width of bus A and of the result bus. -/
abbrev Entry := BitVec 64

/-- A thread number as the 3-bit TID field can name it (spec/30_encoding.md R111). The threads that exist are those below
NUM_THREADS. -/
abbrev Tid := Fin 8

/-- What an agent presents on the command port: `cmd: u32`, `A: u64`, `B: u32`, `C: u32` (spec/30_encoding.md R110). -/
structure Command where
  cmd : Word
  a : Entry
  b : Word
  c : Word
  deriving DecidableEq, Repr

end Sys2Proof
end

