-- ==== Sys2Proof/Config.lean ====
section
/-! DEFINITION. What an implementation fixes (the parameters of spec/00_scope.md R9) and the free values, opaque constants
that nothing in Lean can evaluate. -/

namespace Sys2Proof

/-- The parameters of the block (spec/00_scope.md R9). They are plain data and stand in State (log entry 1), so that every
statement over all states holds for every value of them (R10). `lastTid + 1` is NUM_THREADS, an integer in 1..8. -/
structure Params where
  lastTid : Fin 8
  bootVector : Word
  configTableBase : Word
  revisionId : Word
  resetSetsEx : Bool
  /-- PRECISE_NEXT: the PRECISE causes that resume at the next bundle. -/
  preciseNext : List (BitVec 8)
  deriving DecidableEq, Repr

/-- NUM_THREADS, in 1..8 by construction (spec/00_scope.md R9). -/
def Params.numThreads (p : Params) : Nat := p.lastTid.val + 1

/-- The parameters `Machine.State.reset` takes: those of spec/95_test_vectors.md section 0, with the defaults of R9 for
RESET_SETS_EX and PRECISE_NEXT (DESIGN CHOICE, log entry 1: unsafe for a statement about that one state). -/
def Config.defaultParams : Params where
  lastTid := 3
  bootVector := 0
  configTableBase := 0
  revisionId := 0
  resetSetsEx := true
  preciseNext := []

/-- The free 32-bit value that the k-th draw gives, for ELR, BADVA0, BADVA1 and DIAG after a reset
(spec/70_reset_and_hazards.md R311; log entry 3, safe). -/
opaque Config.resetDraw : Nat → BitVec 32

/-- How far the cycle counter has gone on since it was last read, at the k-th draw (spec/10_state.md R27; log entry 4,
safe). -/
opaque Config.cycleAdvance : Nat → BitVec 64

/-- Which of several size-invalid slots a fatal record names, at the k-th draw (spec/20_memory.md R74; log entry 5, safe). -/
opaque Config.slotChoice : Nat → Nat

end Sys2Proof
end

