-- ==== Sys2Proof/Syntax.lean ====
section
/-! DEFINITION. The nineteen commands of spec/opcode_table.json (spec/30_encoding.md R115), one constructor a row, with the
operands each command reads (R112, R116). -/

namespace Sys2Proof

/-- The privilege modes (spec/10_state.md R36), also the PRIV operand of XLATE (spec/30_encoding.md R117). -/
inductive Mode where
  | user | guest | kernel
  deriving DecidableEq, Repr

/-- The access types, the ACC operand (spec/30_encoding.md R118). -/
inductive Acc where
  | fetch | load | store
  deriving DecidableEq, Repr

/-- The execution slot that produced a data address, the SLOT operand (spec/30_encoding.md R111). -/
inductive Slot where
  | slot0 | slot1
  deriving DecidableEq, Repr

/-- The trap number of RAISE_TRAP (spec/42_event_cmds.md R202). -/
inductive TrapNumber where
  | trap0 | trap1
  deriving DecidableEq, Repr

/-- The two events RAISE_EVENT may raise (spec/42_event_cmds.md R203). -/
inductive RaisedEvent where
  | fptrap | debug
  deriving DecidableEq, Repr

/-- The thirteen registers of the system-register space (spec/43_sreg.md R230). -/
inductive SReg where
  | ssr | elr | badva0 | badva1 | badva | diag
  | evb | syscfg | modectl | cfgbase | rev | pcycleLo | pcycleHi
  deriving DecidableEq, Repr

/-- The commands (spec/30_encoding.md R115) with the operands they read. `t` is the TID field. -/
inductive Instr where
  /-- Write a TLB slot (spec/40_tlb.md R142). -/
  | tlbw (t : Tid) (entry : Entry) (index : Word)
  /-- Read a TLB slot (R143). -/
  | tlbr (t : Tid) (index : Word)
  /-- Probe by ASID (R144). -/
  | tlbp (t : Tid) (va : Word) (asid : BitVec 8)
  /-- Overlap check (R145); bus B is read by nothing. -/
  | tlboc (t : Tid) (candidate : Entry)
  /-- Conditional TLB write (R146). -/
  | ctlbw (t : Tid) (entry : Entry) (index : Word)
  /-- Translate one access (R147). -/
  | xlate (t : Tid) (priv : Mode) (acc : Acc) (va : Word)
  /-- Acquire the TLB lock (spec/41_lock.md R184). -/
  | tlblock (t : Tid)
  /-- Release the TLB lock (R185). -/
  | tlbunlock (t : Tid)
  /-- Acquire the k0 lock (R187). -/
  | k0lock (t : Tid)
  /-- Release the k0 lock (R188). -/
  | k0unlock (t : Tid)
  /-- Register a TLB miss (spec/42_event_cmds.md R200). -/
  | raiseTlbmiss (t : Tid) (acc : Acc) (slot : Slot) (va : Word)
  /-- Register a precise fault (R201). -/
  | raisePrecise (t : Tid) (acc : Acc) (slot : Slot) (cause : BitVec 8) (va : Word)
  /-- Register a trap (R202). -/
  | raiseTrap (t : Tid) (trap : TrapNumber) (imm : BitVec 8)
  /-- Register an FPTRAP or a DEBUG event (R203). -/
  | raiseEvent (t : Tid) (event : RaisedEvent) (cause : BitVec 8)
  /-- Deliver interrupt `n` to thread `t` (R204). -/
  | raiseInt (t : Tid) (n : Fin 16)
  /-- Return from exception (R205). -/
  | rte (t : Tid)
  /-- Read a system register (spec/43_sreg.md R231). -/
  | sregR (t : Tid) (reg : SReg)
  /-- Write a system register (R232). -/
  | sregW (t : Tid) (reg : SReg) (value : Word)
  /-- End the bundle (spec/42_event_cmds.md R206). -/
  | commit (t : Tid) (nextPc : Word)
  deriving DecidableEq, Repr

/-- The thread a command is for: the issuing thread, or for RAISE_INT the target thread (spec/30_encoding.md R111). -/
def Instr.tid : Instr → Tid
  | .tlbw t _ _ => t
  | .tlbr t _ => t
  | .tlbp t _ _ => t
  | .tlboc t _ => t
  | .ctlbw t _ _ => t
  | .xlate t _ _ _ => t
  | .tlblock t => t
  | .tlbunlock t => t
  | .k0lock t => t
  | .k0unlock t => t
  | .raiseTlbmiss t _ _ _ => t
  | .raisePrecise t _ _ _ _ => t
  | .raiseTrap t _ _ => t
  | .raiseEvent t _ _ => t
  | .raiseInt t _ => t
  | .rte t => t
  | .sregR t _ => t
  | .sregW t _ _ => t
  | .commit t _ => t

end Sys2Proof
end

