-- ==== Sys2Proof/Machine/State.lean ====
section
/-! DEFINITION. The state of the block as plain data (spec/10_state.md), the fault, the refusals, and the state after
reset (spec/70_reset_and_hazards.md R301, R315). -/

namespace Sys2Proof.Machine

/-- The thread modes (spec/10_state.md R35). -/
inductive TMode where
  | off | run | wait
  deriving DecidableEq, Repr

/-- The states a thread has for a lock (spec/10_state.md R37, R38). -/
inductive LockState where
  | unlocked | waiting | owner
  deriving DecidableEq, Repr

/-- The two locks (spec/41_lock.md R180). -/
inductive LockId where
  | tlb | k0
  deriving DecidableEq, Repr

/-- The event types (spec/60_exceptions.md R240, R241). -/
inductive Event where
  | reset | imprecise | precise | tlbMissX | tlbMissRw | trap0 | trap1 | fptrap | debug
  | int (n : Fin 16)
  deriving DecidableEq, Repr

/-- A valid exception latch (spec/10_state.md R39); the latch's valid bit is the `some` of `Thread.latch`. Bit `s` of
`vmask` is set when `va`s holds an address reported by slot `s`. -/
structure Latch where
  event : Event
  cause : BitVec 8
  va0 : Word
  va1 : Word
  vmask : BitVec 2
  deriving DecidableEq, Repr

/-- The state of the current bundle (spec/10_state.md R40). -/
structure Bundle where
  retry : Bool
  rte : Bool
  selfmode : Option TMode
  deriving DecidableEq, Repr

/-- The clear bundle state (spec/10_state.md R40). -/
def Bundle.clear : Bundle := ⟨false, false, none⟩

/-- The per-thread part of the state (spec/10_state.md R20, R29 to R41). -/
structure Thread where
  pc : Word
  ssr : Word
  elr : Word
  badva0 : Word
  badva1 : Word
  diag : Word
  tmode : TMode
  tlbls : LockState
  k0ls : LockState
  latch : Option Latch
  bundle : Bundle
  missWait : Bool
  deriving DecidableEq, Repr

/-- Why the block stopped (spec/10_state.md R28, spec/60_exceptions.md R275). -/
inductive FatalReason where
  | unknownEvent
  | sizeInvalidSlot (slot : Nat)
  | sizeInvalidCandidate
  deriving DecidableEq, Repr

/-- The fatal record `S.fatal_info` (spec/10_state.md R28); `event` is the event's ordinal. -/
structure FatalInfo where
  reason : FatalReason
  thread : Tid
  event : BitVec 5
  cause : BitVec 8
  pc : Word
  badva0 : Word
  badva1 : Word
  deriving DecidableEq, Repr

/-- The response codes (spec/30_encoding.md R113). -/
inductive RespCode where
  | ok | illegal | suppressed | fatal | faulted | rejected
  deriving DecidableEq, Repr

/-- What the command port returns: the response code and the result bus `R` (spec/30_encoding.md R110). -/
structure Response where
  code : RespCode
  r : BitVec 64
  deriving DecidableEq, Repr

/-- The register part of the persistence image (spec/20_memory.md R105): every register of spec/10_state.md, one `Thread`
for each thread that exists (log entry 13). -/
structure RegImage where
  syscfg : Word
  evb : Word
  cfgbase : Word
  rev : Word
  pcycle : BitVec 64
  fatal : Option FatalInfo
  threads : List Thread
  deriving DecidableEq, Repr

/-- What the block sends out beside responses (spec/60_exceptions.md R279). -/
inductive OutMsg where
  /-- The diagnostic dump of a fatal stop (R276). -/
  | fatalDump (info : FatalInfo)
  /-- The system-call shim signal (R262): thread, trap type, the cause 0, and SSR and PC before entry. -/
  | shim (thread : Tid) (trap : Event) (cause : BitVec 8) (ssr pc : Word)
  /-- The reset output to the context of a thread, which zeroes its registers (spec/70_reset_and_hazards.md R306). -/
  | contextReset (thread : Tid)
  /-- The persistence image read by the host (spec/20_memory.md R104, R105). -/
  | image (tlb : List (BitVec 8)) (regs : RegImage)
  deriving DecidableEq, Repr

/-- One item presented to the block (spec/60_exceptions.md R279; log entry 7). -/
inductive Input where
  /-- A command on the command port (spec/30_encoding.md R110). -/
  | command (k : Command)
  /-- The reset input RST_CORE (spec/70_reset_and_hazards.md R300). -/
  | rstCore
  /-- The reset input RST_THREAD[t] (R300). -/
  | rstThread (t : Tid)
  /-- The host reads the persistence image (spec/20_memory.md R104, R105). -/
  | imageRead
  /-- The host writes the persistence image. -/
  | imageWrite (tlb : List (BitVec 8)) (regs : RegImage)
  deriving DecidableEq, Repr

/-- The TLB store (spec/10_state.md R22), the block's only memory: pairs of slot number and entry, in the canonical form
`Memory.wf`; a slot that is not listed reads as 0 (log entry 11). -/
abbrev Memory := List (Nat × Entry)

/-- The state of the block (spec/10_state.md R20), and after it the model's own fields. Thread slots from NUM_THREADS on
stand for no thread (log entry 10). -/
structure State where
  tlb : Memory
  syscfg : Word
  evb : Word
  cfgbase : Word
  rev : Word
  pcycle : BitVec 64
  /-- `S.fatal` is 1 when this is `some`. -/
  fatal : Option FatalInfo
  threads : Vector Thread 8
  /-- The board's parameters (log entry 1). -/
  cfg : Params
  /-- The items presented and not yet served, first first (log entry 7). -/
  port : List Input
  /-- The thread inside its bundle: its last command was not its COMMIT (spec/00_scope.md R8; log entry 8). -/
  inBundle : Option Tid
  /-- The response of the step just taken, none if it returned none. -/
  resp : Option Response
  /-- The messages sent out of the block, oldest first. -/
  sent : List OutMsg
  /-- How many free values have been drawn. -/
  draws : Nat
  deriving DecidableEq, Repr

/-- Why a step stops with a fault. -/
inductive Fault where
  /-- The fatal stop (spec/60_exceptions.md R275; spec/00_scope.md R19: a fault of the model). Raised by the dispatch of an
  unknown event and cause, and by a range evaluation that meets a size-invalid entry. It carries the stopped block, with
  the record, the response and the dump of R275 (log entry 6). Safe. -/
  | fatalStop (stopped : State)
  deriving DecidableEq, Repr

/-- Why a step has no meaning. -/
inductive Refusal where
  /-- No meaning has been given to the instruction; raised only by `exec`'s arms for such instructions. Safe. -/
  | notModelled (mnemonic : String)
  /-- Nothing is presented to the block: no step (spec/00_scope.md R19). Raised by `step`. Safe. -/
  | nothingPresented
  /-- RST_THREAD of a thread that does not exist (spec/70_reset_and_hazards.md R300: one input per thread). Raised by
  `step`. Safe. -/
  | noSuchResetInput
  /-- An image transfer while a thread is inside a bundle (spec/20_memory.md R105). Raised by `step`. Safe. -/
  | imageNotQuiescent
  /-- A written image that is not 1536 bytes with one register set for each thread (spec/20_memory.md R104, R105). Raised by
  `step`. Safe. -/
  | imageMalformed
  deriving DecidableEq, Repr

/-- SSR after a per-thread reset (spec/70_reset_and_hazards.md R308). -/
def resetSsr (p : Params) : Word := if p.resetSetsEx then 0x00020000#32 else 0#32

/-- A thread after core reset, with every value that R311 leaves unspecified at 0 (DESIGN CHOICE, log entry 2, unsafe). -/
def Thread.atReset (p : Params) (tmode : TMode) : Thread where
  pc := p.bootVector
  ssr := resetSsr p
  elr := 0
  badva0 := 0
  badva1 := 0
  diag := 0
  tmode := tmode
  tlbls := .unlocked
  k0ls := .unlocked
  latch := none
  bundle := .clear
  missWait := false

/-- The state just after core reset on a block with parameters `p` (spec/70_reset_and_hazards.md R301 to R315, R316): thread
0 Run, the others Off. -/
def State.resetWith (p : Params) : State where
  tlb := []
  syscfg := 0
  evb := p.bootVector
  cfgbase := p.configTableBase
  rev := p.revisionId
  pcycle := 0
  fatal := none
  threads := #v[Thread.atReset p .run, Thread.atReset p .off, Thread.atReset p .off, Thread.atReset p .off,
    Thread.atReset p .off, Thread.atReset p .off, Thread.atReset p .off, Thread.atReset p .off]
  cfg := p
  port := []
  inBundle := none
  resp := none
  sent := []
  draws := 0

/-- The machine right after reset (spec/70_reset_and_hazards.md R315), with the parameters of log entry 1. -/
def State.reset : State := State.resetWith Config.defaultParams

end Sys2Proof.Machine
end

