-- ==== Sys2Proof/Machine/Flags.lean ====
section
/-! DEFINITION. The single-bit status fields of the block (spec/10_state.md R43): the fields of SSR (R30) and of SYSCFG
(R23), the privilege mode derived from SSR (R36), and the event ordinals (spec/60_exceptions.md R241). -/

namespace Sys2Proof.Machine

/-- A word with its bit `i` set to `b`, the other bits kept. -/
def putBit (v : Word) (i : Nat) (b : Bool) : Word :=
  if b then v ||| BitVec.twoPow 32 i else v &&& ~~~(BitVec.twoPow 32 i)

/-- `x & ~(2^n - 1)`: the low `n` bits cleared (spec/20_memory.md R75, R76). -/
def clearLow {w : Nat} (n : Nat) (x : BitVec w) : BitVec w := (x >>> n) <<< n

/-- SSR.CAUSE, bits 7:0 (spec/10_state.md R30). -/
def ssrCause (v : Word) : BitVec 8 := v.extractLsb' 0 8
/-- SSR.ASID, bits 15:8. -/
def ssrAsid (v : Word) : BitVec 8 := v.extractLsb' 8 8
/-- SSR.UM, bit 16. -/
def ssrUm (v : Word) : Bool := v.getLsbD 16
/-- SSR.EX, bit 17. -/
def ssrEx (v : Word) : Bool := v.getLsbD 17
/-- SSR.IE, bit 18. -/
def ssrIe (v : Word) : Bool := v.getLsbD 18
/-- SSR.GM, bit 19. -/
def ssrGm (v : Word) : Bool := v.getLsbD 19
/-- SSR.V0, bit 20. -/
def ssrV0 (v : Word) : Bool := v.getLsbD 20
/-- SSR.V1, bit 21. -/
def ssrV1 (v : Word) : Bool := v.getLsbD 21
/-- SSR.BVS, bit 22. -/
def ssrBvs (v : Word) : Bool := v.getLsbD 22

/-- SSR.CAUSE <- c. -/
def ssrSetCause (v : Word) (c : BitVec 8) : Word := v.extractLsb' 8 24 ++ c
/-- SSR.EX <- b. -/
def ssrSetEx (v : Word) (b : Bool) : Word := putBit v 17 b
/-- SSR.V0, SSR.V1 and SSR.BVS (spec/60_exceptions.md R255). -/
def ssrSetBadva (v : Word) (v0 v1 bvs : Bool) : Word := putBit (putBit (putBit v 20 v0) 21 v1) 22 bvs

/-- SYSCFG.MMUEN, bit 0 (spec/10_state.md R23). -/
def syscfgMmuen (v : Word) : Bool := v.getLsbD 0
/-- SYSCFG.GIE, bit 4. -/
def syscfgGie (v : Word) : Bool := v.getLsbD 4

/-- The bit of SYSCFG that is the lock's: TL is 11, K0 is 12 (spec/10_state.md R23, spec/41_lock.md R180). -/
def lockBitIndex : LockId → Nat
  | .tlb => 11
  | .k0 => 12

/-- A lock's bit in SYSCFG. -/
def syscfgLock (l : LockId) (v : Word) : Bool := v.getLsbD (lockBitIndex l)
/-- SYSCFG with a lock's bit written. -/
def syscfgSetLock (l : LockId) (v : Word) (b : Bool) : Word := putBit v (lockBitIndex l) b

/-- What SREG_W leaves in SYSCFG: bits 11 and 12 kept, all others written (spec/43_sreg.md R232). -/
def syscfgWrite (old v : Word) : Word := (v &&& ~~~0x00001800#32) ||| (old &&& 0x00001800#32)

/-- The privilege mode of a thread with this SSR (spec/10_state.md R36). -/
def privMode (ssr : Word) : Mode :=
  if ssrEx ssr || !ssrUm ssr then .kernel else if ssrGm ssr then .guest else .user

/-- The ordinal of an event type (spec/60_exceptions.md R241). -/
def ordinal : Event → BitVec 5
  | .reset => 0x00
  | .imprecise => 0x01
  | .precise => 0x02
  | .tlbMissX => 0x04
  | .tlbMissRw => 0x06
  | .trap0 => 0x08
  | .trap1 => 0x09
  | .fptrap => 0x0B
  | .debug => 0x0C
  | .int n => 0x10#5 + BitVec.ofNat 5 n.val

/-- The vector of an event: EVB OR the ordinal times four (spec/60_exceptions.md R259). -/
def vector (evb : Word) (e : Event) : Word := evb ||| ((ordinal e).setWidth 32 <<< 2)

/-- The PRECISE causes the dispatcher admits (spec/60_exceptions.md R246). -/
def preciseCauses : List (BitVec 8) :=
  [0x03, 0x11, 0x12, 0x15, 0x1B, 0x1E, 0x20, 0x21, 0x22, 0x23, 0x24, 0x25]

/-- Whether an event and cause is admitted by the tables of spec/60_exceptions.md R246, R247. -/
def admittedPair (e : Event) (c : BitVec 8) : Bool :=
  match e with
  | .precise => preciseCauses.contains c
  | .imprecise => c == 0x44
  | .tlbMissX => c == 0x60 || c == 0x61
  | .tlbMissRw => c == 0x70 || c == 0x71
  | .trap0 => true
  | .trap1 => true
  | .fptrap => c == 0xBF
  | .debug => c == 0x80
  | .int n => c == 0xC0#8 + BitVec.ofNat 8 n.val
  | .reset => c == 0x00

/-- The resume point of an event (spec/60_exceptions.md R248); `preciseNext` is PRECISE_NEXT. -/
def resumePc (preciseNext : List (BitVec 8)) (e : Event) (c : BitVec 8) (pc nextPc : Word) : Word :=
  match e with
  | .imprecise => nextPc
  | .precise => if preciseNext.contains c then nextPc else pc
  | .tlbMissX => pc
  | .tlbMissRw => pc
  | .trap0 => nextPc
  | .trap1 => nextPc
  | .fptrap => nextPc
  | .debug => nextPc
  | .reset => pc
  | .int _ => pc

end Sys2Proof.Machine
end

