-- ==== Sys2Proof/Machine/Operands.lean ====
section
/-! DEFINITION. The operand forms of the commands: the index wrap (spec/40_tlb.md R141), the fields, range, match and
overlap of a TLB entry (spec/20_memory.md R72 to R78), the permission check (R83), the miss causes
(spec/60_exceptions.md R245) and the result encodings (spec/40_tlb.md R145, R147). -/

namespace Sys2Proof.Machine

/-- TLB_ENTRIES (spec/00_scope.md R9). -/
def tlbEntries : Nat := 192

/-- The slot an index operand names (spec/40_tlb.md R141). -/
def wrapIndex (b : Word) : Nat :=
  let j := (b &&& 0xFF#32).toNat
  if tlbEntries ≤ j then j - tlbEntries else j

/-- V, bit 63 (spec/20_memory.md R72). -/
def entryV (e : Entry) : Bool := e.getLsbD 63
/-- G, bit 62. -/
def entryG (e : Entry) : Bool := e.getLsbD 62
/-- PA_EXT, bit 61. -/
def entryPaExt (e : Entry) : BitVec 1 := e.extractLsb' 61 1
/-- ASID, bits 59:52. -/
def entryAsid (e : Entry) : BitVec 8 := e.extractLsb' 52 8
/-- VPN, bits 51:32. -/
def entryVpn (e : Entry) : BitVec 20 := e.extractLsb' 32 20
/-- X, bit 31. -/
def entryX (e : Entry) : Bool := e.getLsbD 31
/-- W, bit 30. -/
def entryW (e : Entry) : Bool := e.getLsbD 30
/-- R, bit 29. -/
def entryR (e : Entry) : Bool := e.getLsbD 29
/-- U, bit 28. -/
def entryU (e : Entry) : Bool := e.getLsbD 28
/-- PPD, bits 23:0. -/
def entryPpd (e : Entry) : BitVec 24 := e.extractLsb' 0 24

/-- The size class: the position of the lowest set bit of `E[9:0]`, none if they are all 0 (spec/20_memory.md R73). -/
def sizeClass (e : Entry) : Option Nat := [0, 1, 2, 3, 4, 5, 6, 7, 8, 9].find? (fun k => e.getLsbD k)

/-- A valid entry with no size class (spec/20_memory.md R74). -/
def sizeInvalid (e : Entry) : Bool := entryV e && (sizeClass e).isNone

/-- The number of page-offset bits of a size class: the page size is two to this (spec/20_memory.md R73). -/
def pageBits (k : Nat) : Nat := 12 + 2 * k

/-- The page size of a size class in bytes (spec/20_memory.md R73). -/
def pageSize (k : Nat) : Nat := 2 ^ pageBits k

/-- The first virtual address of the entry's page, at size class `k` (spec/20_memory.md R75). -/
def pageStart (e : Entry) (k : Nat) : Word := clearLow (pageBits k) ((entryVpn e).setWidth 32 <<< 12)

/-- The end of the entry's page, exact, at most two to the 32 (spec/20_memory.md R75). -/
def pageEnd (e : Entry) (k : Nat) : Nat := (pageStart e k).toNat + pageSize k

/-- The physical base of the entry's page, at size class `k` (spec/20_memory.md R76). -/
def paBase (e : Entry) (k : Nat) : BitVec 36 :=
  clearLow (pageBits k) ((entryPaExt e ++ (entryPpd e).extractLsb' 1 23 : BitVec 24).setWidth 36 <<< 12)

/-- The lookup match of an entry with the query `(asid, va)` (spec/20_memory.md R77). -/
def lookupMatch (asid : BitVec 8) (va : Word) (e : Entry) : Bool :=
  match sizeClass e with
  | none => false
  | some k =>
    entryV e && (entryG e || entryAsid e == asid) && decide ((pageStart e k).toNat ≤ va.toNat) &&
      decide (va.toNat < pageEnd e k)

/-- The overlap of a candidate `c` with a stored entry `e` (spec/20_memory.md R78): the candidate's G is not consulted. -/
def overlaps (c e : Entry) : Bool :=
  match sizeClass c, sizeClass e with
  | some kc, some ke =>
    entryV c && entryV e && (entryG e || entryAsid e == entryAsid c) &&
      decide ((pageStart c kc).toNat < pageEnd e ke) && decide ((pageStart e ke).toNat < pageEnd c kc)
  | _, _ => false

/-- The permissions an access is granted (spec/20_memory.md R80, R83). -/
structure Perms where
  r : Bool
  w : Bool
  x : Bool
  deriving DecidableEq, Repr

/-- All permissions. -/
def allPerms : Perms := ⟨true, true, true⟩

/-- The cause of a USER access to an entry with U = 0 (spec/20_memory.md R83). -/
def ucause : Acc → BitVec 8
  | .fetch => 0x12
  | .load => 0x24
  | .store => 0x25

/-- The cause of an access whose permission bit is 0 (spec/20_memory.md R83). -/
def pcause : Acc → BitVec 8
  | .fetch => 0x11
  | .load => 0x22
  | .store => 0x23

/-- The permission an access type needs (spec/20_memory.md R83). -/
def neededPerm (a : Acc) (p : Perms) : Bool :=
  match a with
  | .fetch => p.x
  | .load => p.r
  | .store => p.w

/-- The permission check of a hit entry: the granted permissions, or the cause of the fault (spec/20_memory.md R83). -/
def permission (e : Entry) (m : Mode) (a : Acc) : Except (BitVec 8) Perms :=
  let granted : Perms := ⟨entryR e, entryW e, entryX e⟩
  match m with
  | .kernel => .ok allPerms
  | .guest => if neededPerm a granted then .ok granted else .error (pcause a)
  | .user =>
    if entryU e then (if neededPerm a granted then .ok granted else .error (pcause a)) else .error (ucause a)

/-- The TLB-miss cause (spec/60_exceptions.md R245); `pc` is the thread's PC. -/
def missCause (pc : Word) (a : Acc) (va : Word) : BitVec 8 :=
  match a with
  | .fetch => if va >>> 12 ≠ pc >>> 12 then 0x61 else 0x60
  | .load => 0x70
  | .store => 0x71

/-- The TLB-miss event of an access type (spec/20_memory.md R82). -/
def missEvent : Acc → Event
  | .fetch => .tlbMissX
  | .load => .tlbMissRw
  | .store => .tlbMissRw

/-- XLATE's result for a translation that succeeds (spec/40_tlb.md R147): bits 63:43 zero, X 42, W 41, R 40, the size class
39:36, the physical address 35:0. -/
def xlateOk (pa : BitVec 36) (p : Perms) (k : Nat) : BitVec 64 :=
  0#21 ++ BitVec.ofBool p.x ++ BitVec.ofBool p.w ++ BitVec.ofBool p.r ++ BitVec.ofNat 4 k ++ pa

/-- XLATE's result for a translation that faults (spec/40_tlb.md R147): bit 63 one, the cause 55:48, the event 47:40. -/
def xlateFault (e : Event) (c : BitVec 8) : BitVec 64 :=
  1#1 ++ 0#7 ++ c ++ (ordinal e).setWidth 8 ++ 0#40

/-- The physical address of `va` in the page of a hit entry at size class `k` (spec/20_memory.md R84). -/
def physAddr (e : Entry) (k : Nat) (va : Word) : BitVec 36 :=
  paBase e k ||| (va &&& BitVec.ofNat 32 (pageSize k - 1)).setWidth 36

/-- The value `r` of the overlap check: -2 for no overlap, the index for one, -1 for more (spec/40_tlb.md R145). -/
def overlapValue : List Nat → Int
  | [] => -2
  | [i] => i
  | _ :: _ :: _ => -1

/-- The address of a registered event: the slot and the virtual address, or no address (spec/60_exceptions.md R243). -/
abbrev Addr := Option (Slot × Word)

/-- The address a fault of this access type carries: none for a fetch (spec/42_event_cmds.md R200, R201). -/
def faultAddr (a : Acc) (s : Slot) (va : Word) : Addr :=
  match a with
  | .fetch => none
  | .load => some (s, va)
  | .store => some (s, va)

/-- The two's complement 64-bit form of a check's value (spec/40_tlb.md R145). -/
def sext64 (r : Int) : BitVec 64 := BitVec.ofInt 64 r

end Sys2Proof.Machine
end

