-- ==== Sys2Proof/Machine/Ops.lean ====
section
/-! DEFINITION. The named operations over the TLB store, the threads, the locks, the latch and the resets, the admission of a
command, and taking an exception and returning from one. Each instruction's meaning is written over these. -/

namespace Sys2Proof.Machine

/-- The outcome of a step. -/
abbrev Out := Host.Outcome State Fault Refusal

/-- Go on with the next state, if there is one. -/
def andThen (o : Out) (f : State → Out) : Out :=
  match o with
  | .next s => f s
  | .fault r => .fault r
  | .refused r => .refused r

/-! ### The TLB store -/

/-- What a slot that is not listed holds: 0, the reset contents (spec/70_reset_and_hazards.md R302; log entry 11). -/
def Memory.unlisted : Entry := 0

/-- The 64 bits last written to slot `i` (spec/10_state.md R22). -/
def Memory.read (m : Memory) (i : Nat) : Entry :=
  match m.find? (fun c => c.1 == i) with
  | some c => c.2
  | none => Memory.unlisted

/-- Put a pair at its place in a list of rising slots. -/
def Memory.insert (i : Nat) (e : Entry) : Memory → Memory
  | [] => [(i, e)]
  | c :: m => if i < c.1 then (i, e) :: c :: m else c :: Memory.insert i e m

/-- `TLB[i] <- e` (spec/10_state.md R22); the canonical form is kept, so writing what an unlisted slot holds unlists it. -/
def Memory.write (m : Memory) (i : Nat) (e : Entry) : Memory :=
  let rest := m.filter (fun c => c.1 != i)
  if e = Memory.unlisted then rest else Memory.insert i e rest

/-- The canonical form: slots below 192, strictly rising, and no value equal to what an unlisted slot holds. -/
def Memory.wf (m : Memory) : Bool :=
  m.all (fun c => decide (c.1 < tlbEntries) && c.2 != Memory.unlisted) &&
    decide ((m.map Prod.fst).Pairwise (· < ·))

/-- The slots of the store whose entry satisfies `p`, in rising order (spec/40_tlb.md R148: all 192 slots). -/
def slotsWhere (m : Memory) (p : Entry → Bool) : List Nat :=
  (List.range tlbEntries).filter (fun i => p (Memory.read m i))

/-! ### Threads -/

/-- The threads that exist, `0 .. NUM_THREADS-1` (spec/10_state.md R20). -/
def tids (n : Nat) : List Tid := ([0, 1, 2, 3, 4, 5, 6, 7] : List Tid).filter (fun t => t.val < n)

/-- `T[t]`. -/
def State.thread (s : State) (t : Tid) : Thread := s.threads[t.val]

/-- The state with `T[t]` replaced. -/
def State.setThread (s : State) (t : Tid) (th : Thread) : State := { s with threads := s.threads.set t.val th }

/-- The state with `T[t]` changed by `f`. -/
def State.modThread (s : State) (t : Tid) (f : Thread → Thread) : State := s.setThread t (f (s.thread t))

/-- The state with every thread `u` changed by `f u`. -/
def State.mapThreads (s : State) (f : Tid → Thread → Thread) : State :=
  { s with
    threads := #v[f 0 (s.thread 0), f 1 (s.thread 1), f 2 (s.thread 2), f 3 (s.thread 3),
      f 4 (s.thread 4), f 5 (s.thread 5), f 6 (s.thread 6), f 7 (s.thread 7)] }

/-- The privilege mode of thread `t` (spec/10_state.md R36). -/
def State.mode (s : State) (t : Tid) : Mode := privMode (s.thread t).ssr

/-! ### Responses and the fatal stop -/

/-- The number of a response code on the port's three bits; 6 and 7 are never returned (spec/30_encoding.md R110, R113). -/
def respNumber : RespCode → BitVec 3
  | .ok => 0
  | .illegal => 1
  | .suppressed => 2
  | .fatal => 3
  | .faulted => 4
  | .rejected => 5

/-- The state after a response is returned (spec/30_encoding.md R110). -/
def State.respond (s : State) (code : RespCode) (r : BitVec 64) : State := { s with resp := some ⟨code, r⟩ }

/-- A next state with a response. -/
def answer (code : RespCode) (r : BitVec 64) (s : State) : Out := .next (s.respond code r)

/-- The state with a message sent out of the block. -/
def State.send (s : State) (m : OutMsg) : State := { s with sent := s.sent ++ [m] }

/-- The record of a fatal stop (spec/60_exceptions.md R275). -/
def fatalInfo (reason : FatalReason) (t : Tid) (e : BitVec 5) (c : BitVec 8) (s : State) : FatalInfo where
  reason := reason
  thread := t
  event := e
  cause := c
  pc := (s.thread t).pc
  badva0 := (s.thread t).badva0
  badva1 := (s.thread t).badva1

/-- The stopped block: the record, the response FATAL and the host dump (spec/60_exceptions.md R275, R276). -/
def State.stopped (s : State) (info : FatalInfo) : State :=
  ({ s with fatal := some info }.send (.fatalDump info)).respond .fatal 0

/-- `FATAL(reason, t, e, c)` (spec/60_exceptions.md R275): a fault that carries the stopped block (log entry 6). -/
def stop (reason : FatalReason) (t : Tid) (e : BitVec 5) (c : BitVec 8) (s : State) : Out :=
  .fault (.fatalStop (s.stopped (fatalInfo reason t e c s)))

/-- The slot a fatal record names: the one size-invalid slot, or any of several (spec/20_memory.md R74; log entry 5). -/
def namedSlot (draw : Nat) : List Nat → Option Nat
  | [] => none
  | [i] => some i
  | i :: j :: rest => some ((i :: j :: rest).getD (Config.slotChoice draw % (rest.length + 2)) i)

/-- The check every range evaluation of the store begins with: FATAL if a valid slot is size-invalid, whether or not it could
match (spec/20_memory.md R74, spec/40_tlb.md R148). -/
def withValidSizes (t : Tid) (s : State) (k : State → Out) : Out :=
  match namedSlot s.draws (slotsWhere s.tlb sizeInvalid) with
  | some i => stop (.sizeInvalidSlot i) t 0 0 { s with draws := s.draws + 1 }
  | none => k s

/-! ### Registration in the latch -/

/-- The address fields of a newly registered event (spec/60_exceptions.md R243). -/
def newLatch (e : Event) (c : BitVec 8) (a : Addr) : Latch :=
  match a with
  | none => ⟨e, c, 0, 0, 0b00⟩
  | some (.slot0, va) => ⟨e, c, va, 0, 0b01⟩
  | some (.slot1, va) => ⟨e, c, 0, va, 0b10⟩

/-- The merge of the same event from the other slot; an address from a slot already recorded is not taken
(spec/60_exceptions.md R243, R244). -/
def mergeAddr (l : Latch) (a : Addr) : Latch :=
  match a with
  | none => l
  | some (.slot0, va) =>
    if l.vmask ≠ 0 ∧ l.vmask.getLsbD 0 = false then { l with va0 := va, vmask := l.vmask ||| 0b01 } else l
  | some (.slot1, va) =>
    if l.vmask ≠ 0 ∧ l.vmask.getLsbD 1 = false then { l with va1 := va, vmask := l.vmask ||| 0b10 } else l

/-- The latch after event `e` with cause `c` is registered: a lower ordinal wins, then a lower cause; the same pair merges
(spec/60_exceptions.md R243). -/
def register (latch : Option Latch) (e : Event) (c : BitVec 8) (a : Addr) : Latch :=
  match latch with
  | none => newLatch e c a
  | some l =>
    if ordinal e < ordinal l.event ∨ (e = l.event ∧ c < l.cause) then newLatch e c a
    else if e = l.event ∧ c = l.cause then mergeAddr l a
    else l

/-- `raise E(c, addr)` for thread `t` (spec/60_exceptions.md R243). -/
def raise (t : Tid) (e : Event) (c : BitVec 8) (a : Addr) (s : State) : State :=
  s.modThread t (fun th => { th with latch := some (register th.latch e c a) })

/-! ### Admission -/

/-- Whether a command needs KERNEL mode, and whether it is dropped once the bundle has registered an event
(spec/30_encoding.md R123, R124); `isCommit` marks COMMIT, the one command a thread in miss_wait may present. -/
structure Admission where
  privileged : Bool
  suppressible : Bool
  isCommit : Bool
  deriving DecidableEq, Repr

/-- Privileged and suppressible (spec/30_encoding.md R123, R124). -/
def privilegedChange : Admission := ⟨true, true, false⟩
/-- Privileged and not suppressible. -/
def privilegedRead : Admission := ⟨true, false, false⟩
/-- Neither privileged nor suppressible. -/
def unprivileged : Admission := ⟨false, false, false⟩
/-- COMMIT. -/
def bundleEnd : Admission := ⟨false, false, true⟩

/-- Admission of a command of thread `t` (spec/30_encoding.md R122, steps 1 and 4 to 8; step 2 is the decoder's and step 3
is RAISE_INT's). -/
def whenAdmitted (c : Admission) (t : Tid) (s : State) (run : State → Out) : Out :=
  if s.fatal.isSome then answer .fatal 0 s
  else if (s.thread t).tmode ≠ .run then answer .rejected 0 s
  else if (s.thread t).missWait ∧ c.isCommit = false then answer .suppressed 0 s
  else if c.suppressible ∧ (s.thread t).latch.isSome then answer .suppressed 0 s
  else if c.privileged ∧ s.mode t ≠ .kernel then answer .faulted 0 (raise t .precise 0x1B none s)
  else run s

/-- The answer to a malformed command word: FATAL if the block is stopped, else ILLEGAL (spec/30_encoding.md R119, R122
steps 1 and 2). -/
def answerMalformed (s : State) : Out :=
  if s.fatal.isSome then answer .fatal 0 s else answer .illegal 0 s

/-! ### Locks -/

/-- `T[t].ls(L)` (spec/41_lock.md R180). -/
def lockState (l : LockId) (th : Thread) : LockState :=
  match l with
  | .tlb => th.tlbls
  | .k0 => th.k0ls

/-- A thread with its state for a lock written. -/
def setLockState (l : LockId) (v : LockState) (th : Thread) : Thread :=
  match l with
  | .tlb => { th with tlbls := v }
  | .k0 => { th with k0ls := v }

/-- The state with a lock's bit written. -/
def State.setLockBit (s : State) (l : LockId) (b : Bool) : State := { s with syscfg := syscfgSetLock l s.syscfg b }

/-- `acquire(L, t)`: the state after it, and whether it advances (spec/41_lock.md R181). -/
def acquire (l : LockId) (t : Tid) (s : State) : State × Bool :=
  if syscfgLock l s.syscfg = false then ((s.setLockBit l true).modThread t (setLockState l .owner), true)
  else if lockState l (s.thread t) = .owner then (s, true)
  else (s.modThread t (setLockState l .waiting), false)

/-- The round-robin sequence after thread `t` among `n` threads (spec/41_lock.md R183). -/
def afterThread (n : Nat) (t : Tid) : List Tid :=
  (List.range (n - 1)).map (fun k => Fin.ofNat 8 ((t.val + 1 + k) % n))

/-- `next_waiter(L, t)` (spec/41_lock.md R183). -/
def nextWaiter (l : LockId) (t : Tid) (s : State) : Option Tid :=
  (afterThread s.cfg.numThreads t).find? (fun u => lockState l (s.thread u) == .waiting)

/-- `release(L, t)` (spec/41_lock.md R182). -/
def release (l : LockId) (t : Tid) (s : State) : State :=
  if lockState l (s.thread t) ≠ .owner then s
  else
    let freed := (s.setLockBit l false).modThread t (setLockState l .unlocked)
    match nextWaiter l t freed with
    | none => freed
    | some u => (freed.modThread u (setLockState l .owner)).setLockBit l true

/-- A lock command of thread `t`: it asks for the bundle again when the acquire retries, and answers 1 when it advances
(spec/41_lock.md R184, R187). -/
def acquireCommand (l : LockId) (t : Tid) (s : State) : Out :=
  match acquire l t s with
  | (s', true) => answer .ok 1 s'
  | (s', false) => answer .ok 0 (s'.modThread t (fun th => { th with bundle := { th.bundle with retry := true } }))

/-! ### Taking an exception and returning from one -/

/-- `enter(t, e, c, elr)`, trap entry: ELR, SSR.CAUSE, SSR.EX and PC (spec/60_exceptions.md R258). -/
def enterThread (evb : Word) (e : Event) (c : BitVec 8) (elr : Word) (th : Thread) : Thread :=
  { th with elr := elr, ssr := ssrSetEx (ssrSetCause th.ssr c) true, pc := vector evb e }

/-- Trap entry of thread `t` (spec/60_exceptions.md R258). -/
def enter (t : Tid) (e : Event) (c : BitVec 8) (elr : Word) (s : State) : State :=
  s.modThread t (enterThread s.evb e c elr)

/-- Dispatch step 1: while SSR.EX is 1 the event becomes PRECISE/DOUBLE_EXCEPT and the superseded cause goes to DIAG
(spec/60_exceptions.md R250, R251). -/
def overrideDouble (th : Thread) (l : Latch) : Thread × Latch :=
  if l.event ≠ .reset ∧ ssrEx th.ssr = true then
    let l' := { l with event := .precise, cause := 0x03 }
    ({ th with diag := l.cause.setWidth 32, latch := some l' }, l')
  else (th, l)

/-- Dispatch step 2, `record_badva` (spec/60_exceptions.md R255). -/
def recordBadva (th : Thread) (l : Latch) : Thread :=
  if l.vmask = 0 then th
  else
    { th with
      badva0 := if l.vmask.getLsbD 0 then l.va0 else th.badva0
      badva1 := if l.vmask.getLsbD 1 then l.va1 else th.badva1
      ssr := ssrSetBadva th.ssr (l.vmask.getLsbD 0) (l.vmask.getLsbD 1) (l.vmask == 0b10) }

/-- What the IMPRECISE broadcast does to thread `u`, `n` threads, originator `t` (spec/60_exceptions.md R260). -/
def broadcastTo (n : Nat) (evb : Word) (t : Tid) (c : BitVec 8) (u : Tid) (th : Thread) : Thread :=
  if u.val < n ∧ u ≠ t ∧ th.tmode ≠ .off then
    { enterThread evb .imprecise c th.pc th with tmode := .run, latch := none, bundle := .clear, missWait := false }
  else th

/-- `broadcast_imprecise(t, c)` (spec/60_exceptions.md R260). Each thread's redirection reads only its own fields and EVB, so
their order makes no difference. -/
def broadcastImprecise (t : Tid) (c : BitVec 8) (s : State) : State :=
  s.mapThreads (broadcastTo s.cfg.numThreads s.evb t c)

/-- `shim_signal(t, e)`, with SSR and PC before entry (spec/60_exceptions.md R256, R262). -/
def shimSignal (t : Tid) (e : Event) (c : BitVec 8) (s : State) : State :=
  if (e = .trap0 ∨ e = .trap1) ∧ c = 0 then s.send (.shim t e 0 (s.thread t).ssr (s.thread t).pc) else s

/-- The end of a dispatch: the shim signal, entry, the broadcast of an IMPRECISE event, and step 4, which clears the latch and
miss_wait (spec/60_exceptions.md R250, R263). -/
def takeEvent (t : Tid) (e : Event) (c : BitVec 8) (nextPc : Word) (s : State) : State :=
  let s1 := shimSignal t e c s
  let s2 := enter t e c (resumePc s1.cfg.preciseNext e c (s1.thread t).pc nextPc) s1
  let s3 := if e = .imprecise then broadcastImprecise t c s2 else s2
  s3.modThread t (fun th => { th with latch := none, missWait := false })

/-- Whether an event is a TLB miss. -/
def isTlbMiss (e : Event) : Bool := e == .tlbMissX || e == .tlbMissRw

/-- Dispatch step 3: the branch on the event type. An unknown pair stops the block (spec/60_exceptions.md R252); a TLB miss
first takes the TLB lock, and waits with its latch kept while another thread holds it (R253). -/
def branchEvent (t : Tid) (e : Event) (c : BitVec 8) (nextPc : Word) (s : State) : Out :=
  if admittedPair e c = false then stop .unknownEvent t (ordinal e) c s
  else if isTlbMiss e then
    match acquire .tlb t s with
    | (s', true) => .next (takeEvent t e c nextPc s')
    | (s', false) => .next (s'.modThread t (fun th => { th with missWait := true }))
  else .next (takeEvent t e c nextPc s)

/-- `dispatch(t, next_pc)` of the latched event `l` (spec/60_exceptions.md R250): the one operation that takes an exception
from the latch. -/
def dispatch (t : Tid) (nextPc : Word) (l : Latch) (s : State) : Out :=
  let (th, l') := overrideDouble (s.thread t) l
  branchEvent t l'.event l'.cause nextPc (s.setThread t (recordBadva th l'))

/-- The return from an exception, at COMMIT: SSR.EX is cleared and PC is ELR (spec/60_exceptions.md R269,
spec/42_event_cmds.md R206). -/
def returnThread (th : Thread) : Thread := { th with ssr := ssrSetEx th.ssr false, pc := th.elr }

/-- Where a bundle with an empty latch leaves its thread: a retry keeps PC, else an RTE returns, else PC is `next_pc`; then a
write of the thread's own mode is applied (spec/42_event_cmds.md R206). -/
def endBundle (nextPc : Word) (th : Thread) : Thread :=
  let th' := if th.bundle.retry then th else if th.bundle.rte then returnThread th else { th with pc := nextPc }
  { th' with tmode := th.bundle.selfmode.getD th.tmode }

/-- The end of every COMMIT, one that ends in a lock wait too: the bundle state is cleared, and the result is PC
(spec/42_event_cmds.md R206; log entry 9). -/
def finishCommit (t : Tid) (s : State) : Out :=
  let s' := s.modThread t (fun th => { th with bundle := .clear })
  answer .ok ((s'.thread t).pc.setWidth 64) s'

/-! ### Interrupts -/

/-- `accepts_int(t)` (spec/60_exceptions.md R265). -/
def acceptsInt (t : Tid) (s : State) : Bool :=
  let th := s.thread t
  (th.tmode != .off) && !ssrEx th.ssr && ssrIe th.ssr && syscfgGie s.syscfg && !th.missWait && th.latch.isNone

/-! ### Resets -/

/-- A thread after a per-thread reset: ELR, BADVA0, BADVA1 and DIAG are free values, the draws `k` to `k + 3`; the thread mode
is kept (spec/70_reset_and_hazards.md R305 to R311, R314; log entry 3). -/
def resetThread (p : Params) (evb : Word) (k : Nat) (th : Thread) : Thread where
  pc := evb
  ssr := resetSsr p
  elr := Config.resetDraw k
  badva0 := Config.resetDraw (k + 1)
  badva1 := Config.resetDraw (k + 2)
  diag := Config.resetDraw (k + 3)
  tmode := th.tmode
  tlbls := .unlocked
  k0ls := .unlocked
  latch := none
  bundle := .clear
  missWait := false

/-- `thread_reset(t)`, which also tells the thread context to zero its registers (spec/70_reset_and_hazards.md R305, R306). -/
def threadReset (t : Tid) (s : State) : State :=
  { s.modThread t (resetThread s.cfg s.evb s.draws) with draws := s.draws + 4 }.send (.contextReset t)

/-- What core reset does to thread slot `u`: the thread mode, then the per-thread reset (spec/70_reset_and_hazards.md R301,
R314). -/
def coreResetThread (p : Params) (k : Nat) (u : Tid) (th : Thread) : Thread :=
  if u.val < p.numThreads then
    resetThread p p.bootVector (k + 4 * u.val) { th with tmode := if u = 0 then .run else .off }
  else th

/-- `core_reset()` (spec/70_reset_and_hazards.md R301, R312). -/
def coreReset (s : State) : State :=
  let s1 := s.mapThreads (coreResetThread s.cfg s.draws)
  { s1 with
    tlb := []
    syscfg := 0
    pcycle := 0
    evb := s.cfg.bootVector
    cfgbase := s.cfg.configTableBase
    rev := s.cfg.revisionId
    fatal := none
    sent := s.sent ++ (tids s.cfg.numThreads).map .contextReset
    draws := s.draws + 32 }

/-! ### Thread modes -/

/-- The MODECTL view of one thread: E is bit `u`, W is bit `16 + u` (spec/43_sreg.md R234). -/
def modectlBits (u : Tid) (m : TMode) : Word :=
  (if m = .off then 0 else BitVec.twoPow 32 u.val) ||| (if m = .wait then BitVec.twoPow 32 (16 + u.val) else 0)

/-- MODECTL as it reads (spec/43_sreg.md R234). -/
def modectlRead (s : State) : Word :=
  (tids s.cfg.numThreads).foldl (fun acc u => acc ||| modectlBits u (s.thread u).tmode) 0

/-- The mode a MODECTL write asks for thread `u` (spec/43_sreg.md R234). -/
def modectlMode (v : Word) (u : Tid) : TMode :=
  if v.getLsbD u.val = false then .off else if v.getLsbD (16 + u.val) then .wait else .run

/-- Whether a MODECTL write by thread `t` starts thread `u` (spec/43_sreg.md R234). -/
def modectlStarts (n : Nat) (t : Tid) (v : Word) (u : Tid) (th : Thread) : Bool :=
  decide (u.val < n) && (u != t) && (th.tmode == .off) && (modectlMode v u != .off)

/-- What a MODECTL write by thread `t` does to thread `u` (spec/43_sreg.md R234). -/
def modectlThread (p : Params) (evb : Word) (k : Nat) (t : Tid) (v : Word) (u : Tid) (th : Thread) : Thread :=
  if p.numThreads ≤ u.val then th
  else if u = t then { th with bundle := { th.bundle with selfmode := some (modectlMode v u) } }
  else if modectlStarts p.numThreads t v u th then
    { resetThread p evb (k + 4 * u.val) th with tmode := modectlMode v u }
  else { th with tmode := modectlMode v u }

/-- `modectl_write(t, v)` (spec/43_sreg.md R234): a thread that starts from Off is reset. -/
def modectlWrite (t : Tid) (v : Word) (s : State) : State :=
  { s.mapThreads (modectlThread s.cfg s.evb s.draws t v) with
    sent := s.sent ++
      ((tids s.cfg.numThreads).filter (fun u => modectlStarts s.cfg.numThreads t v u (s.thread u))).map .contextReset
    draws := s.draws + 32 }

end Sys2Proof.Machine
end

