-- ==== Sys2Proof/Machine/EventCmds.lean ====
section
/-! DEFINITION. The event, return and bundle commands (spec/42_event_cmds.md). -/

namespace Sys2Proof.Machine

/-- RAISE_TLBMISS: register a TLB miss; a fetch miss carries no address (spec/42_event_cmds.md R200). -/
def execRaiseTlbmiss (t : Tid) (acc : Acc) (slot : Slot) (va : Word) (s : State) : Out :=
  whenAdmitted unprivileged t s fun s =>
    answer .ok 0 (raise t (missEvent acc) (missCause (s.thread t).pc acc va) (faultAddr acc slot va) s)

/-- RAISE_PRECISE: register a precise fault, of any cause (spec/42_event_cmds.md R201). -/
def execRaisePrecise (t : Tid) (acc : Acc) (slot : Slot) (cause : BitVec 8) (va : Word) (s : State) : Out :=
  whenAdmitted unprivileged t s fun s => answer .ok 0 (raise t .precise cause (faultAddr acc slot va) s)

/-- The event a trap registers (spec/42_event_cmds.md R202). -/
def trapEvent : TrapNumber → Event
  | .trap0 => .trap0
  | .trap1 => .trap1

/-- RAISE_TRAP: register a trap whose cause is the immediate (spec/42_event_cmds.md R202). -/
def execRaiseTrap (t : Tid) (trap : TrapNumber) (imm : BitVec 8) (s : State) : Out :=
  whenAdmitted unprivileged t s fun s => answer .ok 0 (raise t (trapEvent trap) imm none s)

/-- The event RAISE_EVENT registers (spec/42_event_cmds.md R203). -/
def raisedEvent : RaisedEvent → Event
  | .fptrap => .fptrap
  | .debug => .debug

/-- RAISE_EVENT: register FPTRAP or DEBUG (spec/42_event_cmds.md R203). -/
def execRaiseEvent (t : Tid) (event : RaisedEvent) (cause : BitVec 8) (s : State) : Out :=
  whenAdmitted unprivileged t s fun s => answer .ok 0 (raise t (raisedEvent event) cause none s)

/-- RAISE_INT: an accepted interrupt is entered at once and wakes a Wait thread; a rejected one changes nothing
(spec/42_event_cmds.md R204, spec/60_exceptions.md R266). It is run from step 3 of the admission, after the fatal check. -/
def execRaiseInt (t : Tid) (n : Fin 16) (s : State) : Out :=
  if s.fatal.isSome then answer .fatal 0 s
  else if acceptsInt t s then
    let awake := s.modThread t (fun th => { th with tmode := .run })
    answer .ok 0 (enter t (.int n) (0xC0#8 + BitVec.ofNat 8 n.val) (s.thread t).pc awake)
  else answer .rejected 0 s

/-- RTE: return from exception, applied by COMMIT (spec/42_event_cmds.md R205). -/
def execRte (t : Tid) (s : State) : Out :=
  whenAdmitted privilegedChange t s fun s =>
    answer .ok 0 (s.modThread t (fun th => { th with bundle := { th.bundle with rte := true } }))

/-- COMMIT: end the bundle; a latched event is dispatched (spec/42_event_cmds.md R206). -/
def execCommit (t : Tid) (nextPc : Word) (s : State) : Out :=
  whenAdmitted bundleEnd t s fun s =>
    match (s.thread t).latch with
    | some l => andThen (dispatch t nextPc l s) (finishCommit t)
    | none => finishCommit t (s.modThread t (endBundle nextPc))

end Sys2Proof.Machine
end

