-- ==== Sys2Proof/Machine/Lock.lean ====
section
/-! DEFINITION. The lock commands (spec/41_lock.md). -/

namespace Sys2Proof.Machine

/-- TLBLOCK: acquire the TLB lock (spec/41_lock.md R184). -/
def execTlblock (t : Tid) (s : State) : Out := whenAdmitted privilegedChange t s (acquireCommand .tlb t)

/-- TLBUNLOCK: release the TLB lock (spec/41_lock.md R185). -/
def execTlbunlock (t : Tid) (s : State) : Out :=
  whenAdmitted privilegedChange t s fun s => answer .ok 0 (release .tlb t s)

/-- K0LOCK: acquire the k0 lock (spec/41_lock.md R187). -/
def execK0lock (t : Tid) (s : State) : Out := whenAdmitted privilegedChange t s (acquireCommand .k0 t)

/-- K0UNLOCK: release the k0 lock (spec/41_lock.md R188). -/
def execK0unlock (t : Tid) (s : State) : Out :=
  whenAdmitted privilegedChange t s fun s => answer .ok 0 (release .k0 t s)

end Sys2Proof.Machine
end

