-- ==== Sys2Proof/Machine/Sreg.lean ====
section
/-! DEFINITION. System-register access (spec/43_sreg.md). -/

namespace Sys2Proof.Machine

/-- The cycle counter goes on by a free amount before it is read (spec/10_state.md R27; log entry 4). -/
def advanceCycles (s : State) : State :=
  { s with pcycle := s.pcycle + Config.cycleAdvance s.draws, draws := s.draws + 1 }

/-- The merged view of BADVA0 and BADVA1 (spec/10_state.md R33). -/
def mergedBadva (th : Thread) : Word := if ssrBvs th.ssr then th.badva1 else th.badva0

/-- The value SREG_R returns for a register (spec/43_sreg.md R230). -/
def sregValue (t : Tid) (r : SReg) (s : State) : Word :=
  match r with
  | .ssr => (s.thread t).ssr
  | .elr => (s.thread t).elr
  | .badva0 => (s.thread t).badva0
  | .badva1 => (s.thread t).badva1
  | .badva => mergedBadva (s.thread t)
  | .diag => (s.thread t).diag
  | .evb => s.evb
  | .syscfg => s.syscfg
  | .modectl => modectlRead s
  | .cfgbase => s.cfgbase
  | .rev => s.rev
  | .pcycleLo => s.pcycle.extractLsb' 0 32
  | .pcycleHi => s.pcycle.extractLsb' 32 32

/-- Whether a register is a half of PCYCLE, each read of which is a draw (spec/43_sreg.md R231). -/
def readsCycles : SReg → Bool
  | .pcycleLo => true
  | .pcycleHi => true
  | .ssr => false
  | .elr => false
  | .badva0 => false
  | .badva1 => false
  | .badva => false
  | .diag => false
  | .evb => false
  | .syscfg => false
  | .modectl => false
  | .cfgbase => false
  | .rev => false

/-- SREG_R: read a system register (spec/43_sreg.md R231). -/
def execSregR (t : Tid) (reg : SReg) (s : State) : Out :=
  whenAdmitted privilegedRead t s fun s =>
    let s' := if readsCycles reg then advanceCycles s else s
    answer .ok ((sregValue t reg s').setWidth 64) s'

/-- What SREG_W does to a register; a write to a read-only register changes nothing (spec/43_sreg.md R230, R232). -/
def sregWrite (t : Tid) (r : SReg) (v : Word) (s : State) : State :=
  match r with
  | .ssr => s.modThread t (fun th => { th with ssr := v })
  | .elr => s.modThread t (fun th => { th with elr := v })
  | .badva0 => s.modThread t (fun th => { th with badva0 := v })
  | .badva1 => s.modThread t (fun th => { th with badva1 := v })
  | .diag => s.modThread t (fun th => { th with diag := v })
  | .evb => { s with evb := v }
  | .syscfg => { s with syscfg := syscfgWrite s.syscfg v }
  | .modectl => modectlWrite t v s
  | .badva => s
  | .cfgbase => s
  | .rev => s
  | .pcycleLo => s
  | .pcycleHi => s

/-- SREG_W: write a system register (spec/43_sreg.md R232). -/
def execSregW (t : Tid) (reg : SReg) (value : Word) (s : State) : Out :=
  whenAdmitted privilegedChange t s fun s => answer .ok 0 (sregWrite t reg value s)

end Sys2Proof.Machine
end

