-- ==== Sys2Proof/Machine/Tlb.lean ====
section
/-! DEFINITION. The TLB store commands (spec/40_tlb.md). -/

namespace Sys2Proof.Machine

/-- TLBW: write a TLB slot; the value is not checked (spec/40_tlb.md R142). -/
def execTlbw (t : Tid) (entry : Entry) (index : Word) (s : State) : Out :=
  whenAdmitted privilegedChange t s fun s => answer .ok 0 { s with tlb := Memory.write s.tlb (wrapIndex index) entry }

/-- TLBR: read a TLB slot (spec/40_tlb.md R143). -/
def execTlbr (t : Tid) (index : Word) (s : State) : Out :=
  whenAdmitted privilegedRead t s fun s => answer .ok (Memory.read s.tlb (wrapIndex index)) s

/-- The result of a probe (spec/40_tlb.md R144): the index of the one match, else the sentinel. -/
def probeResult : List Nat → BitVec 64
  | [i] => BitVec.ofNat 64 i
  | [] => 0x80000000#64
  | _ :: _ :: _ => 0x80000000#64

/-- TLBP: probe by the operand ASID; two or more matches register IMPRECISE/MULTI_TLB_MATCH (spec/40_tlb.md R144). -/
def execTlbp (t : Tid) (va : Word) (asid : BitVec 8) (s : State) : Out :=
  whenAdmitted privilegedChange t s fun s => withValidSizes t s fun s =>
    let m := slotsWhere s.tlb (lookupMatch asid va)
    answer .ok (probeResult m) (if 2 ≤ m.length then raise t .imprecise 0x44 none s else s)

/-- The value `r` of the overlap check of a candidate against the whole store, and what follows it (spec/40_tlb.md R145). -/
def overlapCheck (t : Tid) (candidate : Entry) (s : State) (k : Int → State → Out) : Out :=
  withValidSizes t s fun s =>
    if sizeInvalid candidate then stop .sizeInvalidCandidate t 0 0 s
    else k (overlapValue (slotsWhere s.tlb (overlaps candidate))) s

/-- TLBOC: overlap check (spec/40_tlb.md R145). -/
def execTlboc (t : Tid) (candidate : Entry) (s : State) : Out :=
  whenAdmitted privilegedRead t s fun s => overlapCheck t candidate s fun r s => answer .ok (sext64 r) s

/-- CTLBW: write the slot only when the entry overlaps no stored entry (spec/40_tlb.md R146). -/
def execCtlbw (t : Tid) (entry : Entry) (index : Word) (s : State) : Out :=
  whenAdmitted privilegedChange t s fun s => overlapCheck t entry s fun r s =>
    answer .ok (sext64 r) (if r = -2 then { s with tlb := Memory.write s.tlb (wrapIndex index) entry } else s)

/-- The result of a lookup that hits entry `e` (spec/20_memory.md R83, R84; spec/40_tlb.md R147). -/
def xlateHit (e : Entry) (m : Mode) (a : Acc) (va : Word) : BitVec 64 :=
  match permission e m a with
  | .error c => xlateFault .precise c
  | .ok p => xlateOk (physAddr e ((sizeClass e).getD 0) va) p ((sizeClass e).getD 0)

/-- The result of a translation while translation is enabled: the lowest matching slot wins, and a second match is not
detected (spec/20_memory.md R81, R82; spec/40_tlb.md R147). -/
def xlateResult (t : Tid) (m : Mode) (a : Acc) (va : Word) (s : State) : BitVec 64 :=
  match slotsWhere s.tlb (lookupMatch (ssrAsid (s.thread t).ssr) va) with
  | [] => xlateFault (missEvent a) (missCause (s.thread t).pc a va)
  | i :: _ => xlateHit (Memory.read s.tlb i) m a va

/-- XLATE: translate one access (spec/40_tlb.md R147). -/
def execXlate (t : Tid) (priv : Mode) (acc : Acc) (va : Word) (s : State) : Out :=
  whenAdmitted unprivileged t s fun s =>
    if syscfgMmuen s.syscfg = false then answer .ok (xlateOk (va.setWidth 36) allPerms 0) s
    else withValidSizes t s fun s => answer .ok (xlateResult t priv acc va s) s

end Sys2Proof.Machine
end

