-- ==== Sys2Proof/Machine/Dispatch.lean ====
section
/-! DEFINITION. One arm per command, each one call of the command's meaning. -/

namespace Sys2Proof.Machine

def exec (i : Instr) (s : State) : Host.Outcome State Fault Refusal :=
  match i with
  | .tlbw t entry index => Sys2Proof.Machine.execTlbw t entry index s
  | .tlbr t index => Sys2Proof.Machine.execTlbr t index s
  | .tlbp t va asid => Sys2Proof.Machine.execTlbp t va asid s
  | .tlboc t candidate => Sys2Proof.Machine.execTlboc t candidate s
  | .ctlbw t entry index => Sys2Proof.Machine.execCtlbw t entry index s
  | .xlate t priv acc va => Sys2Proof.Machine.execXlate t priv acc va s
  | .tlblock t => Sys2Proof.Machine.execTlblock t s
  | .tlbunlock t => Sys2Proof.Machine.execTlbunlock t s
  | .k0lock t => Sys2Proof.Machine.execK0lock t s
  | .k0unlock t => Sys2Proof.Machine.execK0unlock t s
  | .raiseTlbmiss t acc slot va => Sys2Proof.Machine.execRaiseTlbmiss t acc slot va s
  | .raisePrecise t acc slot cause va => Sys2Proof.Machine.execRaisePrecise t acc slot cause va s
  | .raiseTrap t trap imm => Sys2Proof.Machine.execRaiseTrap t trap imm s
  | .raiseEvent t event cause => Sys2Proof.Machine.execRaiseEvent t event cause s
  | .raiseInt t n => Sys2Proof.Machine.execRaiseInt t n s
  | .rte t => Sys2Proof.Machine.execRte t s
  | .sregR t reg => Sys2Proof.Machine.execSregR t reg s
  | .sregW t reg value => Sys2Proof.Machine.execSregW t reg value s
  | .commit t nextPc => Sys2Proof.Machine.execCommit t nextPc s

end Sys2Proof.Machine
end

