-- ==== Sys2Proof/WellFormed.lean ====
section
/-! DEFINITION. The checks that the types of Syntax do not carry (spec/30_encoding.md R114). -/

namespace Sys2Proof

/-- A command is well formed on a core of `n` threads when its TID names a thread, and a RAISE_PRECISE with ACC = fetch has
SLOT = 0 (spec/30_encoding.md R114, R116). -/
def Instr.wf (n : Nat) (i : Instr) : Bool :=
  decide (i.tid.val < n) &&
    match i with
    | .raisePrecise _ .fetch .slot1 _ _ => false
    | .raisePrecise _ _ _ _ _ => true
    | .tlbw _ _ _ => true
    | .tlbr _ _ => true
    | .tlbp _ _ _ => true
    | .tlboc _ _ => true
    | .ctlbw _ _ _ => true
    | .xlate _ _ _ _ => true
    | .tlblock _ => true
    | .tlbunlock _ => true
    | .k0lock _ => true
    | .k0unlock _ => true
    | .raiseTlbmiss _ _ _ _ => true
    | .raiseTrap _ _ _ => true
    | .raiseEvent _ _ _ => true
    | .raiseInt _ _ => true
    | .rte _ => true
    | .sregR _ _ => true
    | .sregW _ _ _ => true
    | .commit _ _ => true

end Sys2Proof
end

