-- ==== Sys2Proof/Decode.lean ====
section
/-! DEFINITION. The decoder, total on every command word and operand bus, and the encoder beside it, both from the CMD32
format and the field-use table of spec/30_encoding.md (R111, R114, R115, R116). -/

namespace Sys2Proof

/-- The fields of a command word (spec/30_encoding.md R111). -/
structure Fields where
  op : BitVec 5
  tid : BitVec 3
  priv : BitVec 2
  acc : BitVec 2
  slot : BitVec 1
  z : BitVec 3
  imm8 : BitVec 8
  sub : BitVec 8
  deriving DecidableEq, Repr

/-- Why a command word is malformed (spec/30_encoding.md R114). The response to each is ILLEGAL (R119). -/
inductive DecodeError where
  /-- OP is reserved (R115). -/
  | reservedOp
  /-- TID >= NUM_THREADS. -/
  | noSuchThread
  /-- Z is not zero. -/
  | zNotZero
  /-- A field the command does not use is not zero (R116). -/
  | unusedFieldNotZero
  /-- PRIV = 3 for XLATE (R117). -/
  | badPriv
  /-- ACC = 3 for a command that uses ACC (R118). -/
  | badAcc
  /-- SLOT = 1 with ACC = fetch for RAISE_PRECISE. -/
  | badSlot
  /-- SUB is not in the admitted set of the command (R116). -/
  | badSub
  deriving DecidableEq, Repr

/-- The fields at their bit positions (spec/30_encoding.md R111). -/
def Fields.ofWord (w : Word) : Fields where
  op := w.extractLsb' 27 5
  tid := w.extractLsb' 24 3
  priv := w.extractLsb' 22 2
  acc := w.extractLsb' 20 2
  slot := w.extractLsb' 19 1
  z := w.extractLsb' 16 3
  imm8 := w.extractLsb' 8 8
  sub := w.extractLsb' 0 8

/-- The command word of the given fields (spec/30_encoding.md R111). -/
def Fields.toWord (f : Fields) : Word :=
  f.op ++ f.tid ++ f.priv ++ f.acc ++ f.slot ++ f.z ++ f.imm8 ++ f.sub

/-- The entry "0" of spec/30_encoding.md R116: each of PRIV, ACC, SLOT, IMM8, SUB is used by the command or is zero. -/
def Fields.unusedZero (f : Fields) (usesPriv usesAcc usesSlot usesImm8 usesSub : Bool) : Bool :=
  (usesPriv || f.priv == 0) && (usesAcc || f.acc == 0) && (usesSlot || f.slot == 0) &&
    (usesImm8 || f.imm8 == 0) && (usesSub || f.sub == 0)

/-- The thread a TID field names (spec/30_encoding.md R111). -/
def tidOfField (v : BitVec 3) : Tid := ⟨v.toNat, v.isLt⟩

/-- PRIV values (spec/30_encoding.md R117). -/
def Mode.ofPriv (v : BitVec 2) : Option Mode :=
  match v.toNat with
  | 0 => some .user
  | 1 => some .guest
  | 2 => some .kernel
  | _ => none

def Mode.toPriv : Mode → BitVec 2
  | .user => 0
  | .guest => 1
  | .kernel => 2

/-- ACC values (spec/30_encoding.md R118). -/
def Acc.ofField (v : BitVec 2) : Option Acc :=
  match v.toNat with
  | 0 => some .fetch
  | 1 => some .load
  | 2 => some .store
  | _ => none

def Acc.toField : Acc → BitVec 2
  | .fetch => 0
  | .load => 1
  | .store => 2

def Slot.ofField (v : BitVec 1) : Slot := if v = 0 then .slot0 else .slot1

def Slot.toField : Slot → BitVec 1
  | .slot0 => 0
  | .slot1 => 1

/-- SUB of RAISE_TRAP: 0 is TRAP0, 1 is TRAP1 (spec/42_event_cmds.md R202). -/
def TrapNumber.ofSub (v : BitVec 8) : Option TrapNumber :=
  match v.toNat with
  | 0 => some .trap0
  | 1 => some .trap1
  | _ => none

def TrapNumber.toSub : TrapNumber → BitVec 8
  | .trap0 => 0
  | .trap1 => 1

/-- SUB of RAISE_EVENT: 0x0B is FPTRAP, 0x0C is DEBUG (spec/42_event_cmds.md R203). -/
def RaisedEvent.ofSub (v : BitVec 8) : Option RaisedEvent :=
  match v.toNat with
  | 0x0B => some .fptrap
  | 0x0C => some .debug
  | _ => none

def RaisedEvent.toSub : RaisedEvent → BitVec 8
  | .fptrap => 0x0B
  | .debug => 0x0C

/-- SUB of RAISE_INT: the interrupt number 0x00..0x0F (spec/42_event_cmds.md R204). -/
def interruptOfSub (v : BitVec 8) : Option (Fin 16) :=
  if h : v.toNat < 16 then some ⟨v.toNat, h⟩ else none

/-- The register numbers (spec/43_sreg.md R230). -/
def SReg.ofSub (v : BitVec 8) : Option SReg :=
  match v.toNat with
  | 0x00 => some .ssr
  | 0x01 => some .elr
  | 0x02 => some .badva0
  | 0x03 => some .badva1
  | 0x04 => some .badva
  | 0x05 => some .diag
  | 0x10 => some .evb
  | 0x11 => some .syscfg
  | 0x12 => some .modectl
  | 0x13 => some .cfgbase
  | 0x14 => some .rev
  | 0x15 => some .pcycleLo
  | 0x16 => some .pcycleHi
  | _ => none

def SReg.toSub : SReg → BitVec 8
  | .ssr => 0x00
  | .elr => 0x01
  | .badva0 => 0x02
  | .badva1 => 0x03
  | .badva => 0x04
  | .diag => 0x05
  | .evb => 0x10
  | .syscfg => 0x11
  | .modectl => 0x12
  | .cfgbase => 0x13
  | .rev => 0x14
  | .pcycleLo => 0x15
  | .pcycleHi => 0x16

/-- A command that uses no field of the word but OP and TID (spec/30_encoding.md R116, the rows of zeros). -/
def decodePlain (f : Fields) (i : Instr) : Except DecodeError Instr :=
  if f.unusedZero false false false false false then .ok i else .error .unusedFieldNotZero

/-- XLATE: PRIV and ACC in 0..2, the other fields zero (spec/40_tlb.md R147). -/
def decodeXlate (f : Fields) (t : Tid) (va : Word) : Except DecodeError Instr :=
  if f.unusedZero true true false false false then
    match Mode.ofPriv f.priv, Acc.ofField f.acc with
    | none, _ => .error .badPriv
    | some _, none => .error .badAcc
    | some m, some a => .ok (.xlate t m a va)
  else .error .unusedFieldNotZero

/-- RAISE_TLBMISS: ACC in 0..2, SLOT any (spec/42_event_cmds.md R200). -/
def decodeRaiseTlbmiss (f : Fields) (t : Tid) (va : Word) : Except DecodeError Instr :=
  if f.unusedZero false true true false false then
    match Acc.ofField f.acc with
    | none => .error .badAcc
    | some a => .ok (.raiseTlbmiss t a (Slot.ofField f.slot) va)
  else .error .unusedFieldNotZero

/-- RAISE_PRECISE: ACC in 0..2, SLOT 0 when ACC = 0, IMM8 any (spec/42_event_cmds.md R201). -/
def decodeRaisePrecise (f : Fields) (t : Tid) (va : Word) : Except DecodeError Instr :=
  if f.unusedZero false true true true false then
    match Acc.ofField f.acc, Slot.ofField f.slot with
    | none, _ => .error .badAcc
    | some .fetch, .slot1 => .error .badSlot
    | some a, s => .ok (.raisePrecise t a s f.imm8 va)
  else .error .unusedFieldNotZero

/-- RAISE_TRAP: IMM8 any, SUB 0 or 1 (spec/42_event_cmds.md R202). -/
def decodeRaiseTrap (f : Fields) (t : Tid) : Except DecodeError Instr :=
  if f.unusedZero false false false true true then
    match TrapNumber.ofSub f.sub with
    | none => .error .badSub
    | some k => .ok (.raiseTrap t k f.imm8)
  else .error .unusedFieldNotZero

/-- RAISE_EVENT: IMM8 any, SUB 0x0B or 0x0C (spec/42_event_cmds.md R203). -/
def decodeRaiseEvent (f : Fields) (t : Tid) : Except DecodeError Instr :=
  if f.unusedZero false false false true true then
    match RaisedEvent.ofSub f.sub with
    | none => .error .badSub
    | some e => .ok (.raiseEvent t e f.imm8)
  else .error .unusedFieldNotZero

/-- RAISE_INT: SUB 0x00..0x0F (spec/42_event_cmds.md R204). -/
def decodeRaiseInt (f : Fields) (t : Tid) : Except DecodeError Instr :=
  if f.unusedZero false false false false true then
    match interruptOfSub f.sub with
    | none => .error .badSub
    | some n => .ok (.raiseInt t n)
  else .error .unusedFieldNotZero

/-- SREG_R: SUB a defined register number (spec/43_sreg.md R231). -/
def decodeSregR (f : Fields) (t : Tid) : Except DecodeError Instr :=
  if f.unusedZero false false false false true then
    match SReg.ofSub f.sub with
    | none => .error .badSub
    | some r => .ok (.sregR t r)
  else .error .unusedFieldNotZero

/-- SREG_W: SUB a defined register number (spec/43_sreg.md R232). -/
def decodeSregW (f : Fields) (t : Tid) (v : Word) : Except DecodeError Instr :=
  if f.unusedZero false false false false true then
    match SReg.ofSub f.sub with
    | none => .error .badSub
    | some r => .ok (.sregW t r v)
  else .error .unusedFieldNotZero

/-- The opcode map (spec/30_encoding.md R115) with the operand buses each command reads (R112, R116). -/
def decodeOp (f : Fields) (t : Tid) (k : Command) : Except DecodeError Instr :=
  match f.op.toNat with
  | 0x01 => decodePlain f (.tlbw t k.a k.b)
  | 0x02 => decodePlain f (.tlbr t k.b)
  | 0x03 => decodePlain f (.tlbp t (k.a.extractLsb' 0 32) (k.b.extractLsb' 0 8))
  | 0x04 => decodePlain f (.tlboc t k.a)
  | 0x05 => decodePlain f (.ctlbw t k.a k.b)
  | 0x06 => decodeXlate f t (k.a.extractLsb' 0 32)
  | 0x07 => decodePlain f (.tlblock t)
  | 0x08 => decodePlain f (.tlbunlock t)
  | 0x09 => decodePlain f (.k0lock t)
  | 0x0A => decodePlain f (.k0unlock t)
  | 0x0B => decodeRaiseTlbmiss f t (k.a.extractLsb' 0 32)
  | 0x0C => decodeRaisePrecise f t (k.a.extractLsb' 0 32)
  | 0x0D => decodeRaiseTrap f t
  | 0x0E => decodeRaiseEvent f t
  | 0x0F => decodeRaiseInt f t
  | 0x10 => decodePlain f (.rte t)
  | 0x11 => decodeSregR f t
  | 0x12 => decodeSregW f t (k.a.extractLsb' 0 32)
  | 0x13 => decodePlain f (.commit t k.c)
  | _ => .error .reservedOp

/-- Decode what stands on the command port of a core of `n` threads: a command, or the reason the word is malformed
(spec/30_encoding.md R114). -/
def decode (n : Nat) (k : Command) : Except DecodeError Instr :=
  let f := Fields.ofWord k.cmd
  if n ≤ f.tid.toNat then .error .noSuchThread
  else if f.z ≠ 0 then .error .zNotZero
  else decodeOp f (tidOfField f.tid) k

/-- The word fields of a command, the fields it does not use zero (spec/30_encoding.md R115, R116). -/
def Instr.fields (i : Instr) : Fields :=
  let z : Fields := ⟨0, BitVec.ofNat 3 i.tid.val, 0, 0, 0, 0, 0, 0⟩
  match i with
  | .tlbw _ _ _ => { z with op := 0x01 }
  | .tlbr _ _ => { z with op := 0x02 }
  | .tlbp _ _ _ => { z with op := 0x03 }
  | .tlboc _ _ => { z with op := 0x04 }
  | .ctlbw _ _ _ => { z with op := 0x05 }
  | .xlate _ m a _ => { z with op := 0x06, priv := m.toPriv, acc := a.toField }
  | .tlblock _ => { z with op := 0x07 }
  | .tlbunlock _ => { z with op := 0x08 }
  | .k0lock _ => { z with op := 0x09 }
  | .k0unlock _ => { z with op := 0x0A }
  | .raiseTlbmiss _ a s _ => { z with op := 0x0B, acc := a.toField, slot := s.toField }
  | .raisePrecise _ a s c _ => { z with op := 0x0C, acc := a.toField, slot := s.toField, imm8 := c }
  | .raiseTrap _ k imm => { z with op := 0x0D, imm8 := imm, sub := k.toSub }
  | .raiseEvent _ e c => { z with op := 0x0E, imm8 := c, sub := e.toSub }
  | .raiseInt _ n => { z with op := 0x0F, sub := BitVec.ofNat 8 n.val }
  | .rte _ => { z with op := 0x10 }
  | .sregR _ r => { z with op := 0x11, sub := r.toSub }
  | .sregW _ r _ => { z with op := 0x12, sub := r.toSub }
  | .commit _ _ => { z with op := 0x13 }

/-- Bus A as the command reads it, the bits it ignores zero (spec/30_encoding.md R112). -/
def Instr.busA : Instr → Entry
  | .tlbw _ e _ => e
  | .tlboc _ e => e
  | .ctlbw _ e _ => e
  | .tlbp _ va _ => va.setWidth 64
  | .xlate _ _ _ va => va.setWidth 64
  | .raiseTlbmiss _ _ _ va => va.setWidth 64
  | .raisePrecise _ _ _ _ va => va.setWidth 64
  | .sregW _ _ v => v.setWidth 64
  | .tlbr _ _ => 0
  | .tlblock _ => 0
  | .tlbunlock _ => 0
  | .k0lock _ => 0
  | .k0unlock _ => 0
  | .raiseTrap _ _ _ => 0
  | .raiseEvent _ _ _ => 0
  | .raiseInt _ _ => 0
  | .rte _ => 0
  | .sregR _ _ => 0
  | .commit _ _ => 0

/-- Bus B as the command reads it (spec/30_encoding.md R112). -/
def Instr.busB : Instr → Word
  | .tlbw _ _ b => b
  | .tlbr _ b => b
  | .ctlbw _ _ b => b
  | .tlbp _ _ asid => asid.setWidth 32
  | .tlboc _ _ => 0
  | .xlate _ _ _ _ => 0
  | .tlblock _ => 0
  | .tlbunlock _ => 0
  | .k0lock _ => 0
  | .k0unlock _ => 0
  | .raiseTlbmiss _ _ _ _ => 0
  | .raisePrecise _ _ _ _ _ => 0
  | .raiseTrap _ _ _ => 0
  | .raiseEvent _ _ _ => 0
  | .raiseInt _ _ => 0
  | .rte _ => 0
  | .sregR _ _ => 0
  | .sregW _ _ _ => 0
  | .commit _ _ => 0

/-- Bus C as the command reads it: COMMIT's next-bundle address (spec/30_encoding.md R112). -/
def Instr.busC : Instr → Word
  | .commit _ c => c
  | .tlbw _ _ _ => 0
  | .tlbr _ _ => 0
  | .tlbp _ _ _ => 0
  | .tlboc _ _ => 0
  | .ctlbw _ _ _ => 0
  | .xlate _ _ _ _ => 0
  | .tlblock _ => 0
  | .tlbunlock _ => 0
  | .k0lock _ => 0
  | .k0unlock _ => 0
  | .raiseTlbmiss _ _ _ _ => 0
  | .raisePrecise _ _ _ _ _ => 0
  | .raiseTrap _ _ _ => 0
  | .raiseEvent _ _ _ => 0
  | .raiseInt _ _ => 0
  | .rte _ => 0
  | .sregR _ _ => 0
  | .sregW _ _ _ => 0

/-- The command word and the operand buses of a command (spec/30_encoding.md R111, R112). -/
def encode (i : Instr) : Command where
  cmd := i.fields.toWord
  a := i.busA
  b := i.busB
  c := i.busC

/-- The command whose bits are `w`, numbered as spec/opcode_table.json numbers them: the command word is bits 31..0, then
bus A, bus B and bus C follow; every bit from `nbits` on is zero. -/
def layOut (nbits w : Nat) : Command where
  cmd := BitVec.ofNat 32 (w % 2 ^ nbits)
  a := BitVec.ofNat 64 (w % 2 ^ nbits / 2 ^ 32)
  b := BitVec.ofNat 32 (w % 2 ^ nbits / 2 ^ 96)
  c := BitVec.ofNat 32 (w % 2 ^ nbits / 2 ^ 128)

/-- What the decoder reads from an instruction of the opcode table, on a core of eight threads, so that every TID is read
(log entry 17). -/
def decodeTableWord (nbits w : Nat) : Option Instr :=
  (decode 8 (layOut nbits w)).toOption

end Sys2Proof
end

