-- ==== Sys2Proof/Machine/Image.lean ====
section
/-! DEFINITION. The persistence image (spec/20_memory.md R104, R105). -/

namespace Sys2Proof.Machine

/-- The block is quiescent: every thread's bundle state is clear (spec/20_memory.md R105). -/
def quiescent (s : State) : Bool := (tids s.cfg.numThreads).all (fun t => (s.thread t).bundle == .clear)

/-- The eight bytes of a slot, least significant first (spec/20_memory.md R104). -/
def entryBytes (e : Entry) : List (BitVec 8) := (List.range 8).map (fun j => e.extractLsb' (8 * j) 8)

/-- The TLB image: slot `i` at bytes `8i .. 8i + 7` (spec/20_memory.md R104). -/
def tlbImage (m : Memory) : List (BitVec 8) :=
  (List.range tlbEntries).flatMap (fun i => entryBytes (Memory.read m i))

/-- The slot value that eight bytes stand for, least significant first (spec/20_memory.md R104). -/
def bytesEntry (bytes : List (BitVec 8)) : Entry :=
  bytes.foldr (fun b acc => (acc <<< 8) ||| b.setWidth 64) 0

/-- The store a TLB image holds (spec/20_memory.md R104). -/
def imageTlb (bytes : List (BitVec 8)) : Memory :=
  (List.range tlbEntries).foldl (fun m i => Memory.write m i (bytesEntry ((bytes.drop (8 * i)).take 8))) []

/-- The register part of the image (spec/20_memory.md R105). -/
def regImage (s : State) : RegImage where
  syscfg := s.syscfg
  evb := s.evb
  cfgbase := s.cfgbase
  rev := s.rev
  pcycle := s.pcycle
  fatal := s.fatal
  threads := (tids s.cfg.numThreads).map s.thread

/-- The host reads the image (spec/20_memory.md R104, R105). -/
def serveImageRead (s : State) : Out :=
  if quiescent s then .next ({ s with resp := none }.send (.image (tlbImage s.tlb) (regImage s)))
  else .refused .imageNotQuiescent

/-- The host writes the image: the state is replaced as a whole and no rule runs (spec/20_memory.md R105). -/
def serveImageWrite (bytes : List (BitVec 8)) (g : RegImage) (s : State) : Out :=
  if quiescent s = false then .refused .imageNotQuiescent
  else if bytes.length ≠ 8 * tlbEntries ∨ g.threads.length ≠ s.cfg.numThreads then .refused .imageMalformed
  else
    .next
      { s.mapThreads (fun u th => g.threads.getD u.val th) with
        tlb := imageTlb bytes
        syscfg := g.syscfg
        evb := g.evb
        cfgbase := g.cfgbase
        rev := g.rev
        pcycle := g.pcycle
        fatal := g.fatal
        resp := none }

end Sys2Proof.Machine
end

