-- ==== Sys2Proof/Machine/Fetch.lean ====
section
/-! DEFINITION. What the block serves: the item presented first, and the reset inputs (spec/60_exceptions.md R279,
spec/70_reset_and_hazards.md R300). -/

namespace Sys2Proof.Machine

/-- The command a word of the opcode table stands for, put first among the items presented. -/
def presentWord (s : State) (nbits w : Nat) : State := { s with port := .command (layOut nbits w) :: s.port }

/-- RST_CORE (spec/70_reset_and_hazards.md R300, R301). -/
def serveRstCore (s : State) : Out := .next { coreReset s with resp := none }

/-- RST_THREAD[t] (spec/70_reset_and_hazards.md R300, R305); it has no effect while the block is stopped (R313). -/
def serveRstThread (t : Tid) (s : State) : Out :=
  if s.cfg.numThreads ≤ t.val then .refused .noSuchResetInput
  else if s.fatal.isSome then .next { s with resp := none }
  else .next { threadReset t s with resp := none }

end Sys2Proof.Machine
end

