-- ==== Sys2Proof/Machine/Order.lean ====
section
/-! DEFINITION. The order in which the agents present items: a bundle is contiguous (spec/00_scope.md R8), and no reset and no
image transfer falls inside one (spec/70_reset_and_hazards.md R300, spec/20_memory.md R105). -/

namespace Sys2Proof

/-- COMMIT, the one command a thread in miss_wait may present (spec/30_encoding.md R122 step 5). -/
def Instr.isCommit : Instr → Bool
  | .commit _ _ => true
  | .tlbw _ _ _ => false
  | .tlbr _ _ => false
  | .tlbp _ _ _ => false
  | .tlboc _ _ => false
  | .ctlbw _ _ _ => false
  | .xlate _ _ _ _ => false
  | .tlblock _ => false
  | .tlbunlock _ => false
  | .k0lock _ => false
  | .k0unlock _ => false
  | .raiseTlbmiss _ _ _ _ => false
  | .raisePrecise _ _ _ _ _ => false
  | .raiseTrap _ _ _ => false
  | .raiseEvent _ _ _ => false
  | .raiseInt _ _ => false
  | .rte _ => false
  | .sregR _ _ => false
  | .sregW _ _ _ => false

/-- RAISE_INT, the one command the platform presents (spec/30_encoding.md R122 step 3). -/
def Instr.isInterrupt : Instr → Bool
  | .raiseInt _ _ => true
  | .tlbw _ _ _ => false
  | .tlbr _ _ => false
  | .tlbp _ _ _ => false
  | .tlboc _ _ => false
  | .ctlbw _ _ _ => false
  | .xlate _ _ _ _ => false
  | .tlblock _ => false
  | .tlbunlock _ => false
  | .k0lock _ => false
  | .k0unlock _ => false
  | .raiseTlbmiss _ _ _ _ => false
  | .raisePrecise _ _ _ _ _ => false
  | .raiseTrap _ _ _ => false
  | .raiseEvent _ _ _ => false
  | .rte _ => false
  | .sregR _ _ => false
  | .sregW _ _ _ => false
  | .commit _ _ => false

namespace Machine

/-- The thread inside its bundle after an item: a thread's command opens or goes on with its bundle, its COMMIT ends it, and
RAISE_INT and a malformed word are part of no bundle (spec/00_scope.md R8, spec/30_encoding.md R114; log entry 8). -/
def bundleAfter (n : Nat) (b : Option Tid) (x : Input) : Option Tid :=
  match x with
  | .command k =>
    match decode n k with
    | .error _ => b
    | .ok i => if i.isInterrupt then b else if i.isCommit then none else some i.tid
  | .rstCore => none
  | .rstThread _ => b
  | .imageRead => b
  | .imageWrite _ _ => b

/-- Whether an item may fall inside the bundle of thread `t`: a command of `t` itself, an interrupt for another thread, or a
malformed word; no reset and no image transfer (spec/00_scope.md R8, spec/70_reset_and_hazards.md R300,
spec/20_memory.md R105). -/
def fitsInBundle (n : Nat) (t : Tid) (x : Input) : Bool :=
  match x with
  | .command k =>
    match decode n k with
    | .error _ => true
    | .ok i => if i.isInterrupt then i.tid != t else i.tid == t
  | .rstCore => false
  | .rstThread _ => false
  | .imageRead => false
  | .imageWrite _ _ => false

/-- Whether an item may come now, `b` being the thread inside its bundle. -/
def mayCome (n : Nat) (b : Option Tid) (x : Input) : Bool :=
  match b with
  | none => true
  | some t => fitsInBundle n t x

/-- The items come in an order the agents of spec/00_scope.md R8 can choose, `b` being the thread inside its bundle. -/
def ordered (n : Nat) (b : Option Tid) : List Input → Bool
  | [] => true
  | x :: rest => mayCome n b x && ordered n (bundleAfter n b x) rest

end Machine

end Sys2Proof
end

