-- ==== Sys2Proof/Machine/Step.lean ====
section
/-! DEFINITION. One step: the block takes the item presented first (spec/00_scope.md R7, R8). -/

namespace Sys2Proof.Machine

/-- Serve a command: a malformed word is answered, any other is executed (spec/30_encoding.md R110, R114, R122). -/
def serveCommand (k : Command) (s : State) : Host.Outcome State Fault Refusal :=
  match decode s.cfg.numThreads k with
  | .error _ => answerMalformed s
  | .ok i => exec i s

/-- Serve one presented item. -/
def serve (x : Input) (s : State) : Host.Outcome State Fault Refusal :=
  match x with
  | .command k => serveCommand k s
  | .rstCore => serveRstCore s
  | .rstThread t => serveRstThread t s
  | .imageRead => serveImageRead s
  | .imageWrite tlb regs => serveImageWrite tlb regs s

/-- One step of the machine: the first presented item is taken from the port and served, whatever the order of the items; the
thread inside its bundle is noted. With nothing presented there is no step (spec/00_scope.md R8, R19; log entry 8). -/
def step (s : State) : Host.Outcome State Fault Refusal :=
  match s.port with
  | [] => .refused .nothingPresented
  | x :: rest => serve x { s with port := rest, inBundle := bundleAfter s.cfg.numThreads s.inBundle x }

/-- `s` with the instruction whose bits are `w` presented first on the command port, so that the next step serves it. -/
def State.withFetchWord (s : State) (nbits w : Nat) : State := presentWord s nbits w

end Sys2Proof.Machine
end

