-- ==== Sys2Proof/Safety.lean ====
section
/-! DEFINITION. The terms the statements use: the privileged and the suppressible commands and the malformed words as
spec/30_encoding.md lists them, when a command is admitted, and the invariants of the state. -/

namespace Sys2Proof

/-- `PRIVILEGED` (spec/30_encoding.md R123). -/
def Instr.privileged : Instr → Bool
  | .tlbw _ _ _ => true
  | .tlbr _ _ => true
  | .tlbp _ _ _ => true
  | .tlboc _ _ => true
  | .ctlbw _ _ _ => true
  | .xlate _ _ _ _ => false
  | .tlblock _ => true
  | .tlbunlock _ => true
  | .k0lock _ => true
  | .k0unlock _ => true
  | .raiseTlbmiss _ _ _ _ => false
  | .raisePrecise _ _ _ _ _ => false
  | .raiseTrap _ _ _ => false
  | .raiseEvent _ _ _ => false
  | .raiseInt _ _ => false
  | .rte _ => true
  | .sregR _ _ => true
  | .sregW _ _ _ => true
  | .commit _ _ => false

/-- `SUPPRESSIBLE` (spec/30_encoding.md R124). -/
def Instr.suppressible : Instr → Bool
  | .tlbw _ _ _ => true
  | .tlbr _ _ => false
  | .tlbp _ _ _ => true
  | .tlboc _ _ => false
  | .ctlbw _ _ _ => true
  | .xlate _ _ _ _ => false
  | .tlblock _ => true
  | .tlbunlock _ => true
  | .k0lock _ => true
  | .k0unlock _ => true
  | .raiseTlbmiss _ _ _ _ => false
  | .raisePrecise _ _ _ _ _ => false
  | .raiseTrap _ _ _ => false
  | .raiseEvent _ _ _ => false
  | .raiseInt _ _ => false
  | .rte _ => true
  | .sregR _ _ => false
  | .sregW _ _ _ => true
  | .commit _ _ => false

/-- One row of the field-use table (spec/30_encoding.md R116): what each field of the word may hold, given its ACC. -/
structure FieldUse where
  priv : List Nat := [0]
  acc : List Nat := [0]
  slot : List Nat := [0]
  /-- The SLOT values admitted with ACC = 0. -/
  slotAtFetch : List Nat := [0]
  imm8Used : Bool := false
  sub : List Nat := [0]
  deriving DecidableEq, Repr

/-- The defined register numbers (spec/43_sreg.md R230). -/
def registerNumbers : List Nat := [0x00, 0x01, 0x02, 0x03, 0x04, 0x05, 0x10, 0x11, 0x12, 0x13, 0x14, 0x15, 0x16]

/-- The row of spec/30_encoding.md R116 of an operation code, none for the reserved ones (R115). -/
def fieldUse (op : Nat) : Option FieldUse :=
  if op = 0 ∨ 0x14 ≤ op then none
  else if op = 0x06 then some { priv := [0, 1, 2], acc := [0, 1, 2] }
  else if op = 0x0B then some { acc := [0, 1, 2], slot := [0, 1], slotAtFetch := [0, 1] }
  else if op = 0x0C then some { acc := [0, 1, 2], slot := [0, 1], imm8Used := true }
  else if op = 0x0D then some { imm8Used := true, sub := [0, 1] }
  else if op = 0x0E then some { imm8Used := true, sub := [0x0B, 0x0C] }
  else if op = 0x0F then some { sub := List.range 16 }
  else if op = 0x11 ∨ op = 0x12 then some { sub := registerNumbers }
  else some {}

/-- A command word is malformed on a core of `n` threads (spec/30_encoding.md R114), read off the table of R116 and the bit
positions of R111, not off the decoder. -/
def malformed (n : Nat) (w : Word) : Bool :=
  match fieldUse (w.toNat / 2 ^ 27) with
  | none => true
  | some u =>
    decide (n ≤ w.toNat / 2 ^ 24 % 8) || decide (w.toNat / 2 ^ 16 % 8 ≠ 0) ||
      !u.priv.contains (w.toNat / 2 ^ 22 % 4) || !u.acc.contains (w.toNat / 2 ^ 20 % 4) ||
      !(if w.toNat / 2 ^ 20 % 4 = 0 then u.slotAtFetch else u.slot).contains (w.toNat / 2 ^ 19 % 2) ||
      !(u.imm8Used || w.toNat / 2 ^ 8 % 256 == 0) || !u.sub.contains (w.toNat % 256)

namespace Machine

/-- The thread is one of those that exist (spec/10_state.md R20). -/
abbrev State.hasThread (s : State) (t : Tid) : Prop := t.val < s.cfg.numThreads

/-- A command of a thread passes steps 1 and 4 to 7 of the admission (spec/30_encoding.md R122), so that its rule runs. -/
abbrev Admitted (i : Instr) (s : State) : Prop :=
  s.fatal = none ∧ (s.thread i.tid).tmode = .run ∧ (i.isCommit = true ∨ (s.thread i.tid).missWait = false) ∧
    (i.suppressible = true → (s.thread i.tid).latch = none) ∧ (i.privileged = true → s.mode i.tid = .kernel)

/-- No slot is valid and size-invalid (spec/20_memory.md R74): no range evaluation stops the block. -/
abbrev SizesValid (m : Memory) : Prop := ∀ i, i < tlbEntries → sizeInvalid (Memory.read m i) = false

/-- No query matches two slots: what a program must ensure for a lookup to be unambiguous (spec/20_memory.md R81). -/
def SingleMatch (m : Memory) : Prop :=
  ∀ (asid : BitVec 8) (va : Word) (i j : Nat), i < tlbEntries → j < tlbEntries →
    lookupMatch asid va (Memory.read m i) = true → lookupMatch asid va (Memory.read m j) = true → i = j

/-- The lock invariants (spec/10_state.md R45) for one lock. -/
abbrev LockHolds (l : LockId) (s : State) : Prop :=
  (∀ t u, s.hasThread t → s.hasThread u → lockState l (s.thread t) = .owner → lockState l (s.thread u) = .owner → t = u) ∧
    (∀ t, s.hasThread t → lockState l (s.thread t) = .owner → syscfgLock l s.syscfg = true) ∧
    (syscfgLock l s.syscfg = false → ∀ t, s.hasThread t → lockState l (s.thread t) = .unlocked)

/-- The lock invariants for both locks (spec/10_state.md R45). -/
abbrev LockInv (s : State) : Prop := LockHolds .tlb s ∧ LockHolds .k0 s

/-- The command that acquires a lock (spec/41_lock.md R184, R187). -/
def lockInstr (l : LockId) (t : Tid) : Instr :=
  match l with
  | .tlb => .tlblock t
  | .k0 => .k0lock t

/-- The command that releases a lock (spec/41_lock.md R185, R188). -/
def unlockInstr (l : LockId) (t : Tid) : Instr :=
  match l with
  | .tlb => .tlbunlock t
  | .k0 => .k0unlock t

/-- A lock whose bit is 1 and that no thread owns, as the reset of an owner leaves it
(spec/70_reset_and_hazards.md R318). -/
abbrev LockDead (l : LockId) (s : State) : Prop :=
  syscfgLock l s.syscfg = true ∧ ∀ t, s.hasThread t → lockState l (s.thread t) ≠ .owner

/-- What may stand in a latch: no RESET and no interrupt ever passes through it (spec/60_exceptions.md R240, R241), an
IMPRECISE event has the one cause 0x44, a TLB miss an admitted cause, and no address is held without its bit of `vmask`
(R243). -/
abbrev LatchSound (l : Latch) : Prop :=
  l.event ≠ .reset ∧ (∀ n, l.event ≠ .int n) ∧ (l.event = .imprecise → l.cause = 0x44) ∧
    (isTlbMiss l.event = true → admittedPair l.event l.cause = true) ∧
    (l.vmask.getLsbD 0 = false → l.va0 = 0) ∧ (l.vmask.getLsbD 1 = false → l.va1 = 0)

/-- A thread in miss_wait waits for, or was just handed, the TLB lock, with a TLB miss latched and no exception active
(spec/10_state.md R41, spec/60_exceptions.md R253). -/
abbrev WaitSound (th : Thread) : Prop :=
  th.missWait = true → th.tlbls ≠ .unlocked ∧ ssrEx th.ssr = false ∧ ∃ l, th.latch = some l ∧ isTlbMiss l.event = true

/-- The latch invariant of the block: every latch of a thread that exists is sound, and so is every wait. -/
def LatchInv (s : State) : Prop :=
  ∀ t, s.hasThread t → (∀ l, (s.thread t).latch = some l → LatchSound l) ∧ WaitSound (s.thread t)

/-- The next item presented is not the host's write of a persistence image, which may set any state (spec/20_memory.md
R105). -/
def NotImageWrite (s : State) : Prop := ∀ tlb regs rest, s.port ≠ .imageWrite tlb regs :: rest

/-- The items presented come in an order the agents can choose, from where the threads stand in their bundles
(spec/00_scope.md R8). -/
abbrev State.Ordered (s : State) : Prop := ordered s.cfg.numThreads s.inBundle s.port = true

/-- What a block that is not stopped holds between bundles: a thread has a clear bundle, and an empty latch or is in miss_wait,
unless it runs and is the one inside its bundle (spec/60_exceptions.md R242, spec/42_event_cmds.md R206). -/
def BundleInv (s : State) : Prop :=
  s.fatal = none → ∀ t, s.hasThread t →
    ((s.thread t).bundle = .clear ∧ ((s.thread t).missWait = true ∨ (s.thread t).latch = none)) ∨
      (s.inBundle = some t ∧ (s.thread t).tmode = .run)

/-- The thread after it takes event `e` with cause `c` from its latch `l` (spec/60_exceptions.md R250 steps 2 to 4, R254,
R255, R258, R263), as its fields read: `th` is the thread before, `th'` after. The thread mode, DIAG and the lock states are not
constrained here. -/
structure Entered (evb : Word) (l : Latch) (e : Event) (c : BitVec 8) (resume : Word) (th th' : Thread) : Prop where
  pc : th'.pc = evb ||| BitVec.ofNat 32 (4 * (ordinal e).toNat)
  elr : th'.elr = resume
  cause : ssrCause th'.ssr = c
  ex : ssrEx th'.ssr = true
  badva : ssrV0 th'.ssr = (if l.vmask = 0 then ssrV0 th.ssr else l.vmask.getLsbD 0) ∧
    ssrV1 th'.ssr = (if l.vmask = 0 then ssrV1 th.ssr else l.vmask.getLsbD 1) ∧
    ssrBvs th'.ssr = (if l.vmask = 0 then ssrBvs th.ssr else l.vmask == 0b10)
  /-- ASID, UM, IE, GM and the bits without a name are kept. -/
  kept : ∀ j, 8 ≤ j → j ≠ 17 → j ≠ 20 → j ≠ 21 → j ≠ 22 → th'.ssr.getLsbD j = th.ssr.getLsbD j
  badva0 : th'.badva0 = if l.vmask.getLsbD 0 then l.va0 else th.badva0
  badva1 : th'.badva1 = if l.vmask.getLsbD 1 then l.va1 else th.badva1
  latch : th'.latch = none
  bundle : th'.bundle = .clear
  missWait : th'.missWait = false

/-- The bit of MODECTL that says a thread is not Off, and the one that says it waits (spec/43_sreg.md R234). -/
abbrev modectlSays (v : Word) (u : Tid) (m : TMode) : Prop :=
  v.getLsbD u.val = (m != .off) ∧ v.getLsbD (16 + u.val) = (m == .wait)

/-- How far thread `u` follows thread `t` in the ring of `n` threads, in `0 .. n-1` (spec/41_lock.md R183). -/
def ringDistance (n : Nat) (t u : Tid) : Nat := (u.val + n - t.val) % n

end Machine

end Sys2Proof
end

