-- ==== Sys2Proof/Certificates/Slice0/Obligations.lean ====
section
/-! DEFINITION. The statements about the block, for the provers. Each names the rules of spec/ it rests on. A next state is
written field by field; `{ s' with f := s.f } = s` says that nothing but `f` has changed. -/

open Sys2Proof Sys2Proof.Machine

/-! ### Encoding and steps -/

/-- Words written out from the format of R111 decode to the commands of R115 (spec/95_test_vectors.md L2.1). -/
def Obligations.SpecWordsDecode : Prop :=
  decode 4 ⟨0x08000000, 0x80300001F000000B, 0x1C5, 0⟩ = .ok (.tlbw 0 0x80300001F000000B 0x1C5) ∧
    decode 4 ⟨0x30200000, 0x1800, 0, 0⟩ = .ok (.xlate 0 .user .store 0x1800) ∧
    decode 4 ⟨0x38000000, 0, 0, 0⟩ = .ok (.tlblock 0) ∧
    decode 4 ⟨0x58180000, 0x3004, 0, 0⟩ = .ok (.raiseTlbmiss 0 .load .slot1 0x3004) ∧
    decode 4 ⟨0x60202300, 0x8000, 0, 0⟩ = .ok (.raisePrecise 0 .store .slot0 0x23 0x8000) ∧
    decode 4 ⟨0x68007F01, 0, 0, 0⟩ = .ok (.raiseTrap 0 .trap1 0x7F) ∧
    decode 4 ⟨0x79000002, 0, 0, 0⟩ = .ok (.raiseInt 1 2) ∧
    decode 4 ⟨0x93000011, 0x11, 0, 0⟩ = .ok (.sregW 3 .syscfg 0x11) ∧
    decode 8 ⟨0x9F000000, 0, 0, 0x1004⟩ = .ok (.commit 7 0x1004) ∧
    decode 4 ⟨0x9F000000, 0, 0, 0x1004⟩ = .error .noSuchThread

/-- Every well-formed command is read back from its encoding, with every operand (R111, R112, R115, R116). -/
def Obligations.EncodedCommandsDecode : Prop :=
  ∀ (n : Nat) (i : Instr), i.wf n = true → decode n (encode i) = .ok i

/-- A word that decodes is the encoding of the well-formed command it decodes to: no second word means the same command
(R111, R116). -/
def Obligations.DecodedWordsAreEncodings : Prop :=
  ∀ (n : Nat) (k : Command) (i : Instr), decode n k = .ok i → i.wf n = true ∧ (encode i).cmd = k.cmd

/-- The decoder rejects exactly the malformed words of R114, whatever stands on the operand buses. -/
def Obligations.DecoderRejectsExactlyMalformedWords : Prop :=
  ∀ (n : Nat) (k : Command), (∃ e, decode n k = .error e) ↔ malformed n k.cmd = true

/-- A step takes the first item off the port. A command that decodes is well formed and is executed, and its thread is inside
its bundle until its COMMIT, RAISE_INT apart; a malformed word is answered ILLEGAL with R = 0 and changes nothing (R119, R122
step 2). A word put first by `withFetchWord` is the one the next step runs. -/
def Obligations.StepExecutesTheDecodedCommand : Prop :=
  let opens : Instr → Option Tid → Option Tid := fun i b =>
    if i.isInterrupt then b else if i.isCommit then none else some i.tid
  (∀ (s : State) (k : Command) (rest : List Input), s.port = .command k :: rest →
    (∀ i, decode s.cfg.numThreads k = .ok i →
      i.wf s.cfg.numThreads = true ∧ step s = exec i { s with port := rest, inBundle := opens i s.inBundle }) ∧
    (malformed s.cfg.numThreads k.cmd = true → s.fatal = none →
      step s = .next { s with port := rest, resp := some ⟨.illegal, 0⟩ })) ∧
  ∀ (s : State) (nbits w : Nat) (i : Instr), decode s.cfg.numThreads (layOut nbits w) = .ok i →
    step (s.withFetchWord nbits w) = exec i { s with inBundle := opens i s.inBundle }

/-- The order of items that the model calls ordered, no thread being inside a bundle at first, is that of R8, R300 and R105: from
a command of a thread to its COMMIT only commands of that thread, interrupts for other threads and malformed words fall, no
reset and no image transfer. That a malformed word belongs to no bundle is the model's reading (log entry 8). -/
def Obligations.OrderedItemsKeepBundlesContiguous : Prop :=
  ∀ (n : Nat) (l : List Input),
    ordered n none l = true ↔
      ∀ (a b : Nat) (k : Command) (i : Instr) (x : Input), a < b → l[a]? = some (.command k) → decode n k = .ok i →
        i.isCommit = false → i.isInterrupt = false → l[b]? = some x →
        (∀ (c : Nat) (k' : Command) (p : Word), a < c → c < b → l[c]? = some (.command k') →
          decode n k' ≠ .ok (.commit i.tid p)) →
        ∃ k', x = .command k' ∧
          ∀ j, decode n k' = .ok j → (j.isInterrupt = true ∧ j.tid ≠ i.tid) ∨ (j.isInterrupt = false ∧ j.tid = i.tid)

/-- Steps 1 and 4 to 8 of the admission, for every command but RAISE_INT, and step 1 for all (R122, R123, R124): the first
step that applies decides the response. A command that is admitted answers OK or stops the block. -/
def Obligations.AdmissionStepsDecideTheResponse : Prop :=
  ∀ (i : Instr) (s : State),
    (s.fatal ≠ none → exec i s = .next { s with resp := some ⟨.fatal, 0⟩ }) ∧
    (s.fatal = none → i.isInterrupt = false →
      if (s.thread i.tid).tmode ≠ .run then exec i s = .next { s with resp := some ⟨.rejected, 0⟩ }
      else if ((s.thread i.tid).missWait = true ∧ i.isCommit = false) ∨
          (i.suppressible = true ∧ (s.thread i.tid).latch ≠ none) then
        exec i s = .next { s with resp := some ⟨.suppressed, 0⟩ }
      else if i.privileged = true ∧ s.mode i.tid ≠ .kernel then
        exec i s = .next { raise i.tid .precise 0x1B none s with resp := some ⟨.faulted, 0⟩ }
      else (∃ s' r, exec i s = .next s' ∧ s'.resp = some ⟨.ok, r⟩) ∨
        ∃ st, exec i s = .fault (.fatalStop st) ∧ st.fatal ≠ none ∧ st.resp = some ⟨.fatal, 0⟩)

/-- Every command that does not stop the block returns a response; R is 0 but for OK; where the response is neither OK nor
FAULTED nothing else has changed; and the response codes have the numbers of R113, 6 and 7 never returned (R110, R113). -/
def Obligations.EveryCommandReturnsOneResponse : Prop :=
  (∀ (i : Instr) (s s' : State), exec i s = .next s' →
    ∃ code r, s'.resp = some ⟨code, r⟩ ∧ (code ≠ .ok → r = 0) ∧
      (code ≠ .ok → code ≠ .faulted → { s' with resp := s.resp } = s)) ∧
  respNumber .ok = 0 ∧ respNumber .illegal = 1 ∧ respNumber .suppressed = 2 ∧ respNumber .fatal = 3 ∧
    respNumber .faulted = 4 ∧ respNumber .rejected = 5 ∧ ∀ code, respNumber code ≠ 6 ∧ respNumber code ≠ 7

/-- While the block is stopped a command answers FATAL and changes nothing, RST_THREAD has no effect, an image read leaves the
record, and core reset clears it (R275, R313). A host's write of an image, which replaces the state as a whole (R105), is
apart. That an image transfer is served at all while the block is stopped is the model's choice (log entry 13). -/
def Obligations.StoppedBlockWaitsForCoreReset : Prop :=
  ∀ (s : State) (rest : List Input), s.fatal ≠ none →
    (∀ k, s.port = .command k :: rest → ∃ b, step s =
      .next { s with port := rest, inBundle := b, resp := some ⟨.fatal, 0⟩ }) ∧
    (∀ t, s.hasThread t → s.port = .rstThread t :: rest → step s = .next { s with port := rest, resp := none }) ∧
    (∀ s', s.port = .imageRead :: rest → step s = .next s' → s'.fatal = s.fatal) ∧
    (s.port = .rstCore :: rest → ∃ s', step s = .next s' ∧ s'.fatal = none)

/-! ### The TLB store -/

/-- The index wrap (R141), by subtraction and by remainder. -/
def Obligations.IndexWrapsIntoTheStore : Prop :=
  ∀ b : Word,
    wrapIndex b = (if 192 ≤ b.toNat % 256 then b.toNat % 256 - 192 else b.toNat % 256) ∧
      wrapIndex b = b.toNat % 256 % 192 ∧ wrapIndex b < 192

/-- TLBW stores its operand, unchecked, in the slot the index names, and changes nothing else (R142, R22). -/
def Obligations.TlbwWritesOneSlot : Prop :=
  ∀ (t : Tid) (e : Entry) (b : Word) (s : State), Admitted (.tlbw t e b) s →
    ∃ s', exec (.tlbw t e b) s = .next s' ∧
      (∀ j, Memory.read s'.tlb j = if j = wrapIndex b then e else Memory.read s.tlb j) ∧
      s'.resp = some ⟨.ok, 0⟩ ∧ { s' with tlb := s.tlb, resp := s.resp } = s

/-- TLBR returns the slot, a size-invalid value too, and changes nothing; a TLBR of any thread, with any index that names the
slot, returns exactly the 64 bits the TLBW before it wrote (R22, R143). -/
def Obligations.TlbrReturnsTheSlot : Prop :=
  (∀ (t : Tid) (b : Word) (s : State), Admitted (.tlbr t b) s →
    exec (.tlbr t b) s = .next { s with resp := some ⟨.ok, Memory.read s.tlb (wrapIndex b)⟩ }) ∧
  ∀ (t u : Tid) (e : Entry) (b b' : Word) (s : State), Admitted (.tlbw t e b) s → Admitted (.tlbr u b') s →
    wrapIndex b' = wrapIndex b →
    ∃ s' s'', exec (.tlbw t e b) s = .next s' ∧ exec (.tlbr u b') s' = .next s'' ∧ s''.resp = some ⟨.ok, e⟩

/-- The size class is the position of the lowest set bit of E[9:0], and the page size follows from it (R73); the page starts
at the VPN rounded down to the page size, and ends at most at 2^32 (R75). -/
def Obligations.SizeClassSetsThePageRange : Prop :=
  (∀ (e : Entry) (k : Nat), sizeClass e = some k ↔ k < 10 ∧ e.getLsbD k = true ∧ ∀ j, j < k → e.getLsbD j = false) ∧
    (∀ e : Entry, sizeClass e = none ↔ e.extractLsb' 0 10 = 0) ∧ (∀ k, pageSize k = 2 ^ (12 + 2 * k)) ∧
    ∀ (e : Entry) (k : Nat), sizeClass e = some k →
      (pageStart e k).toNat = (entryVpn e).toNat * 4096 / pageSize k * pageSize k ∧
        pageEnd e k = (pageStart e k).toNat + pageSize k ∧ pageEnd e k ≤ 2 ^ 32

/-- An entry matches a query exactly when it is valid, its ASID matches or it is global, and the address lies in its page,
that is, shares its page number at the entry's size (R77, R75). -/
def Obligations.MatchMeansTheSamePage : Prop :=
  ∀ (e : Entry) (asid : BitVec 8) (va : Word),
    (lookupMatch asid va e = true ↔
      entryV e = true ∧ (entryG e = true ∨ entryAsid e = asid) ∧
        ∃ k, sizeClass e = some k ∧ (pageStart e k).toNat ≤ va.toNat ∧ va.toNat < pageEnd e k) ∧
    (lookupMatch asid va e = true ↔
      entryV e = true ∧ (entryG e = true ∨ entryAsid e = asid) ∧
        ∃ k, sizeClass e = some k ∧ va.toNat / pageSize k = (entryVpn e).toNat * 4096 / pageSize k)

/-- A candidate overlaps a stored entry exactly when some address is matched by both for the candidate's ASID, the
candidate's G bit apart (R78). -/
def Obligations.OverlapMeansASharedAddress : Prop :=
  ∀ c e : Entry,
    overlaps c e = true ↔
      entryV c = true ∧ entryV e = true ∧ (entryG e = true ∨ entryAsid e = entryAsid c) ∧
        ∃ va, lookupMatch (entryAsid c) va c = true ∧ lookupMatch (entryAsid c) va e = true

/-- TLBP answers the one matching slot, or the sentinel; two matches register IMPRECISE/MULTI_TLB_MATCH; nothing else
changes (R144). -/
def Obligations.TlbpReportsTheUniqueMatch : Prop :=
  ∀ (t : Tid) (va : Word) (asid : BitVec 8) (s : State), Admitted (.tlbp t va asid) s → SizesValid s.tlb →
    (∀ i, i < 192 → (∀ j, j < 192 → (lookupMatch asid va (Memory.read s.tlb j) = true ↔ j = i)) →
      exec (.tlbp t va asid) s = .next { s with resp := some ⟨.ok, BitVec.ofNat 64 i⟩ }) ∧
    ((∀ j, j < 192 → lookupMatch asid va (Memory.read s.tlb j) = false) →
      exec (.tlbp t va asid) s = .next { s with resp := some ⟨.ok, 0x80000000⟩ }) ∧
    (∀ i j, i < j → j < 192 → lookupMatch asid va (Memory.read s.tlb i) = true →
      lookupMatch asid va (Memory.read s.tlb j) = true →
      exec (.tlbp t va asid) s =
        .next { s.modThread t (fun th => { th with latch := some ⟨.imprecise, 0x44, 0, 0, 0⟩ }) with
          resp := some ⟨.ok, 0x80000000⟩ })

/-- TLBOC answers -2, the one overlapping slot, or -1, and changes nothing (R145). -/
def Obligations.TlbocAnswersTheTrichotomy : Prop :=
  ∀ (t : Tid) (c : Entry) (s : State), Admitted (.tlboc t c) s → SizesValid s.tlb → sizeInvalid c = false →
    ((∀ j, j < 192 → overlaps c (Memory.read s.tlb j) = false) →
      exec (.tlboc t c) s = .next { s with resp := some ⟨.ok, 0xFFFFFFFFFFFFFFFE⟩ }) ∧
    (∀ i, i < 192 → (∀ j, j < 192 → (overlaps c (Memory.read s.tlb j) = true ↔ j = i)) →
      exec (.tlboc t c) s = .next { s with resp := some ⟨.ok, BitVec.ofNat 64 i⟩ }) ∧
    (∀ i j, i < j → j < 192 → overlaps c (Memory.read s.tlb i) = true → overlaps c (Memory.read s.tlb j) = true →
      exec (.tlboc t c) s = .next { s with resp := some ⟨.ok, 0xFFFFFFFFFFFFFFFF⟩ })

/-- CTLBW writes its slot when the entry overlaps nothing, and otherwise writes nothing, even over the slot it would replace;
it answers as TLBOC does (R146). -/
def Obligations.CtlbwWritesOnlyWithoutOverlap : Prop :=
  ∀ (t : Tid) (e : Entry) (b : Word) (s : State), Admitted (.ctlbw t e b) s → SizesValid s.tlb → sizeInvalid e = false →
    ((∀ j, j < 192 → overlaps e (Memory.read s.tlb j) = false) →
      ∃ s', exec (.ctlbw t e b) s = .next s' ∧
        (∀ j, Memory.read s'.tlb j = if j = wrapIndex b then e else Memory.read s.tlb j) ∧
        s'.resp = some ⟨.ok, 0xFFFFFFFFFFFFFFFE⟩ ∧ { s' with tlb := s.tlb, resp := s.resp } = s) ∧
    (∀ i, i < 192 → (∀ j, j < 192 → (overlaps e (Memory.read s.tlb j) = true ↔ j = i)) →
      exec (.ctlbw t e b) s = .next { s with resp := some ⟨.ok, BitVec.ofNat 64 i⟩ }) ∧
    (∀ i j, i < j → j < 192 → overlaps e (Memory.read s.tlb i) = true → overlaps e (Memory.read s.tlb j) = true →
      exec (.ctlbw t e b) s = .next { s with resp := some ⟨.ok, 0xFFFFFFFFFFFFFFFF⟩ })

/-- Lookups stay unambiguous, no query matching two slots, under every step but a TLBW, a CTLBW of a global entry and a host's
write of an image (from R77, R78 and R146): the overlap check of CTLBW does not consult the candidate's G bit (R78), and TLBW
checks nothing (R142). The first clause says it of CTLBW itself. -/
def Obligations.CtlbwKeepsLookupsUnambiguous : Prop :=
  (∀ (t : Tid) (e : Entry) (b : Word) (s s' : State), entryG e = false → SingleMatch s.tlb → Admitted (.ctlbw t e b) s →
    exec (.ctlbw t e b) s = .next s' → SingleMatch s'.tlb) ∧
  ∀ s s' : State, NotImageWrite s → SingleMatch s.tlb →
    (∀ k rest, s.port = .command k :: rest → ∀ t e b, decode s.cfg.numThreads k ≠ .ok (.tlbw t e b) ∧
      (decode s.cfg.numThreads k = .ok (.ctlbw t e b) → entryG e = false)) →
    step s = .next s' → SingleMatch s'.tlb

/-- A range evaluation of a store with a valid size-invalid slot stops the block, whatever the query; a size-invalid
candidate stops it too. The record names such a slot, the thread, its PC and its BADVA registers, the event and cause are 0,
and beside the record, the response and the dump nothing the spec describes has changed (R74, R148, R275). The model's count
of draws may have (log entry 5). -/
def Obligations.SizeInvalidEntriesStopTheBlock : Prop :=
  ∀ (i : Instr) (s : State), Admitted i s →
    (((∃ va asid, i = .tlbp i.tid va asid) ∨ (∃ c, i = .tlboc i.tid c) ∨ (∃ e b, i = .ctlbw i.tid e b) ∨
        ((∃ m a va, i = .xlate i.tid m a va) ∧ syscfgMmuen s.syscfg = true)) →
      (∃ j, j < 192 ∧ sizeInvalid (Memory.read s.tlb j) = true) →
      ∃ st info j, exec i s = .fault (.fatalStop st) ∧ j < 192 ∧ sizeInvalid (Memory.read s.tlb j) = true ∧
        info = ⟨.sizeInvalidSlot j, i.tid, 0, 0, (s.thread i.tid).pc, (s.thread i.tid).badva0, (s.thread i.tid).badva1⟩ ∧
        st.fatal = some info ∧ st.resp = some ⟨.fatal, 0⟩ ∧ st.sent = s.sent ++ [.fatalDump info] ∧
        { st with fatal := s.fatal, resp := s.resp, sent := s.sent, draws := s.draws } = s) ∧
    (SizesValid s.tlb → ∀ c, sizeInvalid c = true → (i = .tlboc i.tid c ∨ ∃ b, i = .ctlbw i.tid c b) →
      ∃ st info, exec i s = .fault (.fatalStop st) ∧
        info = ⟨.sizeInvalidCandidate, i.tid, 0, 0, (s.thread i.tid).pc, (s.thread i.tid).badva0, (s.thread i.tid).badva1⟩ ∧
        st.fatal = some info ∧ st.resp = some ⟨.fatal, 0⟩ ∧ st.sent = s.sent ++ [.fatalDump info] ∧
        { st with fatal := s.fatal, resp := s.resp, sent := s.sent } = s)

/-! ### Translation -/

/-- With translation disabled XLATE is the identity with all permissions and size class 0, for every mode and access type,
whatever the store holds (R80, R147). -/
def Obligations.DisabledTranslationIsTheIdentity : Prop :=
  ∀ (t : Tid) (m : Mode) (a : Acc) (va : Word) (s : State), Admitted (.xlate t m a va) s → syscfgMmuen s.syscfg = false →
    exec (.xlate t m a va) s = .next { s with resp := some ⟨.ok, 0x70000000000#64 + va.setWidth 64⟩ }

/-- With translation enabled XLATE answers for the lowest matching slot, by the permission check; the fields of its result are
those of R147; it changes no state (R81, R83, R84, R85). -/
def Obligations.XlateAnswersForTheLowestMatch : Prop :=
  ∀ (t : Tid) (m : Mode) (a : Acc) (va : Word) (s : State) (i k : Nat), Admitted (.xlate t m a va) s →
    syscfgMmuen s.syscfg = true → SizesValid s.tlb → i < 192 →
    lookupMatch (ssrAsid (s.thread t).ssr) va (Memory.read s.tlb i) = true →
    (∀ j, j < i → lookupMatch (ssrAsid (s.thread t).ssr) va (Memory.read s.tlb j) = false) →
    sizeClass (Memory.read s.tlb i) = some k →
    ∃ r : BitVec 64, exec (.xlate t m a va) s = .next { s with resp := some ⟨.ok, r⟩ } ∧
      match permission (Memory.read s.tlb i) m a with
      | .ok p =>
        r.extractLsb' 43 21 = 0 ∧ r.getLsbD 42 = p.x ∧ r.getLsbD 41 = p.w ∧ r.getLsbD 40 = p.r ∧
          (r.extractLsb' 36 4).toNat = k ∧ r.extractLsb' 0 36 = physAddr (Memory.read s.tlb i) k va
      | .error c => r.getLsbD 63 = true ∧ r.extractLsb' 56 7 = 0 ∧ r.extractLsb' 48 8 = c ∧ r.extractLsb' 40 8 = 0x02 ∧
          r.extractLsb' 0 40 = 0

/-- With translation enabled and no matching slot XLATE reports a TLB miss with its cause, and changes no state (R82, R85,
R147, R245). -/
def Obligations.XlateReportsAMiss : Prop :=
  ∀ (t : Tid) (m : Mode) (a : Acc) (va : Word) (s : State), Admitted (.xlate t m a va) s →
    syscfgMmuen s.syscfg = true → SizesValid s.tlb →
    (∀ j, j < 192 → lookupMatch (ssrAsid (s.thread t).ssr) va (Memory.read s.tlb j) = false) →
    exec (.xlate t m a va) s =
      .next { s with
        resp := some ⟨.ok,
          match a with
          | .fetch => if va.toNat / 4096 = (s.thread t).pc.toNat / 4096 then 0x8060040000000000 else 0x8061040000000000
          | .load => 0x8070060000000000
          | .store => 0x8071060000000000⟩ }

/-- The permission check: KERNEL gets everything; a USER access without U faults with the U cause before R, W, X are looked
at; otherwise R, W, X are granted as the entry says, and an access whose bit is 0 faults (R83). -/
def Obligations.PermissionCheckOrder : Prop :=
  ∀ (e : Entry) (a : Acc),
    permission e .kernel a = .ok ⟨true, true, true⟩ ∧
    (entryU e = false →
      permission e .user .fetch = .error 0x12 ∧ permission e .user .load = .error 0x24 ∧
        permission e .user .store = .error 0x25) ∧
    ∀ m, m = .guest ∨ (m = .user ∧ entryU e = true) →
      permission e m .fetch = (if entryX e then .ok ⟨entryR e, entryW e, entryX e⟩ else .error 0x11) ∧
        permission e m .load = (if entryR e then .ok ⟨entryR e, entryW e, entryX e⟩ else .error 0x22) ∧
        permission e m .store = (if entryW e then .ok ⟨entryR e, entryW e, entryX e⟩ else .error 0x23)

/-- The physical address is the physical base rounded down to the page size, plus the offset in the page; the size marker
does not reach it (R76, R84). -/
def Obligations.PhysicalAddressIsBasePlusOffset : Prop :=
  ∀ (e : Entry) (k : Nat) (va : Word), sizeClass e = some k →
    (physAddr e k va).toNat =
      ((entryPaExt e).toNat * 2 ^ 23 + (entryPpd e).toNat / 2) * 4096 / pageSize k * pageSize k + va.toNat % pageSize k

/-! ### Locks -/

/-- Acquiring a lock: a free lock is taken, the owner goes on unchanged, any other thread becomes Waiting and asks for its
bundle again (R181, R184, R187). -/
def Obligations.AcquireTakesAFreeLock : Prop :=
  ∀ (l : LockId) (t : Tid) (s : State), Admitted (lockInstr l t) s →
    exec (lockInstr l t) s = .next (
      if syscfgLock l s.syscfg = false then
        { s.modThread t (setLockState l .owner) with syscfg := syscfgSetLock l s.syscfg true, resp := some ⟨.ok, 1⟩ }
      else if lockState l (s.thread t) = .owner then { s with resp := some ⟨.ok, 1⟩ }
      else
        { s.modThread t (fun th => { setLockState l .waiting th with bundle := { th.bundle with retry := true } }) with
          resp := some ⟨.ok, 0⟩ })

/-- Releasing a lock: by a thread that is not the owner it is a no-op; by the owner it frees the lock when no thread waits,
and otherwise hands it to the waiting thread whose index follows nearest, leaving the bit 1 (R182, R183, R185, R188). -/
def Obligations.ReleaseHandsTheLockToTheNextWaiter : Prop :=
  ∀ (l : LockId) (t : Tid) (s : State), Admitted (unlockInstr l t) s → s.hasThread t →
    (lockState l (s.thread t) ≠ .owner → exec (unlockInstr l t) s = .next { s with resp := some ⟨.ok, 0⟩ }) ∧
    (lockState l (s.thread t) = .owner → (∀ u, s.hasThread u → lockState l (s.thread u) ≠ .waiting) →
      exec (unlockInstr l t) s =
        .next { s.modThread t (setLockState l .unlocked) with
          syscfg := syscfgSetLock l s.syscfg false, resp := some ⟨.ok, 0⟩ }) ∧
    (lockState l (s.thread t) = .owner → ∀ w, s.hasThread w → lockState l (s.thread w) = .waiting →
      (∀ u, s.hasThread u → lockState l (s.thread u) = .waiting →
        ringDistance s.cfg.numThreads t w ≤ ringDistance s.cfg.numThreads t u) →
      exec (unlockInstr l t) s =
        .next { (s.modThread t (setLockState l .unlocked)).modThread w (setLockState l .owner) with
          syscfg := syscfgSetLock l s.syscfg true, resp := some ⟨.ok, 0⟩ })

/-- A waiting thread that presents its lock bundle again, the lock still held, changes no state (R186 case a): after the
lock command and the COMMIT the state is as before, whatever next_pc the COMMIT carries. -/
def Obligations.WaitingForALockIsAStutter : Prop :=
  ∀ (l : LockId) (t : Tid) (c : Word) (s : State), Admitted (lockInstr l t) s → (s.thread t).bundle = .clear →
    syscfgLock l s.syscfg = true → lockState l (s.thread t) = .waiting →
    ∃ s' s'', exec (lockInstr l t) s = .next s' ∧ exec (.commit t c) s' = .next s'' ∧ { s'' with resp := s.resp } = s

/-! ### Raising events -/

/-- Registration: the pair with the lower ordinal, then the lower cause, is kept; the same pair again adds the address of a
slot not yet recorded, if one is recorded already, and otherwise changes nothing (R243, R244). -/
def Obligations.LatchKeepsThePriorityWinner : Prop :=
  ∀ (t : Tid) (e : Event) (c : BitVec 8) (a : Addr) (s : State),
    let fresh : Latch :=
      ⟨e, c, match a with | some (.slot0, va) => va | _ => 0, match a with | some (.slot1, va) => va | _ => 0,
        match a with | none => 0b00 | some (.slot0, _) => 0b01 | some (.slot1, _) => 0b10⟩
    let key : Event → BitVec 8 → Nat := fun e c => (ordinal e).toNat * 256 + c.toNat
    raise t e c a s = s.modThread t (fun th =>
      { th with
        latch := some (
          match th.latch with
          | none => fresh
          | some l =>
            if key e c < key l.event l.cause then fresh
            else if key l.event l.cause < key e c then l
            else
              match a with
              | some (.slot0, va) => if l.vmask = 0b10 then { l with va0 := va, vmask := 0b11 } else l
              | some (.slot1, va) => if l.vmask = 0b01 then { l with va1 := va, vmask := 0b11 } else l
              | none => l) })

/-- The RAISE commands register their events in the latch of their thread and change nothing else (R200 to R203, R245). -/
def Obligations.RaiseCommandsRegisterTheirEvent : Prop :=
  ∀ (t : Tid) (s : State),
    (∀ slot va, Admitted (.raiseTlbmiss t .fetch slot va) s →
      exec (.raiseTlbmiss t .fetch slot va) s =
        .next { raise t .tlbMissX (if va.toNat / 4096 = (s.thread t).pc.toNat / 4096 then 0x60 else 0x61) none s with
          resp := some ⟨.ok, 0⟩ }) ∧
    (∀ slot va, Admitted (.raiseTlbmiss t .load slot va) s →
      exec (.raiseTlbmiss t .load slot va) s =
        .next { raise t .tlbMissRw 0x70 (some (slot, va)) s with resp := some ⟨.ok, 0⟩ }) ∧
    (∀ slot va, Admitted (.raiseTlbmiss t .store slot va) s →
      exec (.raiseTlbmiss t .store slot va) s =
        .next { raise t .tlbMissRw 0x71 (some (slot, va)) s with resp := some ⟨.ok, 0⟩ }) ∧
    (∀ a slot c va, Admitted (.raisePrecise t a slot c va) s →
      exec (.raisePrecise t a slot c va) s =
        .next { raise t .precise c (if a = .fetch then none else some (slot, va)) s with resp := some ⟨.ok, 0⟩ }) ∧
    (∀ n imm, Admitted (.raiseTrap t n imm) s →
      exec (.raiseTrap t n imm) s =
        .next { raise t (if n = .trap0 then .trap0 else .trap1) imm none s with resp := some ⟨.ok, 0⟩ }) ∧
    (∀ n c, Admitted (.raiseEvent t n c) s →
      exec (.raiseEvent t n c) s =
        .next { raise t (if n = .fptrap then .fptrap else .debug) c none s with resp := some ⟨.ok, 0⟩ })

/-- An interrupt is accepted exactly under the test of R265; it is then entered at once, with the PC of the bundle not yet
started in ELR, and wakes a Wait thread; otherwise it is rejected and changes nothing (R204, R265, R266). -/
def Obligations.InterruptsAreEnteredAtOnceOrRejected : Prop :=
  ∀ (t : Tid) (n : Fin 16) (s : State), s.fatal = none →
    let accepted := (s.thread t).tmode ≠ .off ∧ ssrEx (s.thread t).ssr = false ∧ ssrIe (s.thread t).ssr = true ∧
      syscfgGie s.syscfg = true ∧ (s.thread t).missWait = false ∧ (s.thread t).latch = none
    (accepted →
      exec (.raiseInt t n) s =
        .next { s.modThread t (fun th =>
          { th with
            tmode := .run
            elr := th.pc
            ssr := ssrSetEx (ssrSetCause th.ssr (BitVec.ofNat 8 (0xC0 + n.val))) true
            pc := s.evb ||| BitVec.ofNat 32 (4 * (0x10 + n.val)) }) with resp := some ⟨.ok, 0⟩ }) ∧
    (¬accepted → exec (.raiseInt t n) s = .next { s with resp := some ⟨.rejected, 0⟩ })

/-! ### The end of a bundle -/

/-- COMMIT with an empty latch: a retry keeps PC, else a pending RTE clears SSR.EX and goes to ELR, else PC is next_pc; a write
of the thread's own mode is applied; the bundle is cleared and the result is PC (R206). -/
def Obligations.CommitEndsABundleWithoutEvent : Prop :=
  ∀ (t : Tid) (c : Word) (s : State), Admitted (.commit t c) s → (s.thread t).latch = none →
    let pc' := if (s.thread t).bundle.retry then (s.thread t).pc else if (s.thread t).bundle.rte then (s.thread t).elr else c
    exec (.commit t c) s =
      .next { s.modThread t (fun th =>
        { th with
          pc := pc'
          ssr := if th.bundle.retry = false ∧ th.bundle.rte = true then ssrSetEx th.ssr false else th.ssr
          tmode := th.bundle.selfmode.getD th.tmode
          bundle := ⟨false, false, none⟩ }) with resp := some ⟨.ok, pc'.setWidth 64⟩ }

/-- RTE marks the bundle and does no more, whatever the bundle already holds. The COMMIT that ends a bundle so marked, no event
being latched, clears SSR.EX and goes to ELR, unless a lock command has asked for the bundle again: then SSR and PC stay. A
write of the thread's own mode is applied either way, and nothing else changes (R205, R206, R269). -/
def Obligations.RteReturnsToElrAtCommit : Prop :=
  ∀ (t : Tid) (c : Word) (s : State), Admitted (.rte t) s →
    let b := (s.thread t).bundle
    let pc' := if b.retry then (s.thread t).pc else (s.thread t).elr
    ∃ s', exec (.rte t) s = .next s' ∧
      s' = { s.modThread t (fun th => { th with bundle := ⟨b.retry, true, b.selfmode⟩ }) with resp := some ⟨.ok, 0⟩ } ∧
      exec (.commit t c) s' =
        .next { s.modThread t (fun th =>
          { th with
            ssr := if b.retry then th.ssr else ssrSetEx th.ssr false
            pc := pc'
            tmode := b.selfmode.getD th.tmode
            bundle := ⟨false, false, none⟩ }) with resp := some ⟨.ok, pc'.setWidth 64⟩ }

/-- COMMIT with a latched event that is known, not a TLB miss and not IMPRECISE, no exception active: the thread enters it,
resuming where R248 says; a trap with cause 0 also signals the shim, with the PC before entry and the SSR before entry, in
which the addresses of step 2 of R250 are already recorded; and nothing else changes (R248, R250, R254 to R256, R258, R262,
R263). RESET and interrupts never stand in a latch (LatchInv; log entry 19): their row of R248 is said for completeness. -/
def Obligations.CommitEntersTheLatchedEvent : Prop :=
  ∀ (t : Tid) (c : Word) (s : State) (l : Latch), Admitted (.commit t c) s → (s.thread t).latch = some l →
    ssrEx (s.thread t).ssr = false → admittedPair l.event l.cause = true → isTlbMiss l.event = false →
    l.event ≠ .imprecise →
    let resume : Word :=
      if l.event = .precise then (if l.cause ∈ s.cfg.preciseNext then c else (s.thread t).pc)
      else if l.event = .trap0 ∨ l.event = .trap1 ∨ l.event = .fptrap ∨ l.event = .debug then c
      else (s.thread t).pc
    ∃ s', exec (.commit t c) s = .next s' ∧
      Entered s.evb l l.event l.cause resume (s.thread t) (s'.thread t) ∧
      (s'.thread t).tmode = (s.thread t).tmode ∧ (s'.thread t).diag = (s.thread t).diag ∧
      (s'.thread t).tlbls = (s.thread t).tlbls ∧ (s'.thread t).k0ls = (s.thread t).k0ls ∧
      (∀ u, u ≠ t → s'.thread u = s.thread u) ∧
      (((l.event = .trap0 ∨ l.event = .trap1) ∧ l.cause = 0 →
          ∃ ssr, s'.sent = s.sent ++ [.shim t l.event 0 ssr (s.thread t).pc] ∧
            (l.vmask = 0 → ssr = (s.thread t).ssr) ∧
            ∀ j, ssr.getLsbD j =
              if l.vmask = 0 then (s.thread t).ssr.getLsbD j
              else if j = 20 then l.vmask.getLsbD 0
              else if j = 21 then l.vmask.getLsbD 1
              else if j = 22 then l.vmask == 0b10
              else (s.thread t).ssr.getLsbD j) ∧
        (¬((l.event = .trap0 ∨ l.event = .trap1) ∧ l.cause = 0) → s'.sent = s.sent)) ∧
      s'.resp = some ⟨.ok, (s'.thread t).pc.setWidth 64⟩ ∧
      { s' with threads := s.threads, resp := s.resp, sent := s.sent } = s

/-- A latched event, known or not, that comes while SSR.EX is 1 becomes PRECISE/DOUBLE_EXCEPT: the superseded cause goes to
DIAG, the latched addresses are recorded, ELR is overwritten with the resume point of PRECISE/DOUBLE_EXCEPT, which is PC unless
PRECISE_NEXT names that cause, the vector is EVB OR 8; no lock is taken and no other thread redirected (R246, R251). -/
def Obligations.EventDuringAHandlerIsADoubleException : Prop :=
  ∀ (t : Tid) (c : Word) (s : State) (l : Latch), Admitted (.commit t c) s → (s.thread t).latch = some l →
    ssrEx (s.thread t).ssr = true → l.event ≠ .reset →
    ∃ s', exec (.commit t c) s = .next s' ∧
      Entered s.evb l .precise 0x03 (if (0x03 : BitVec 8) ∈ s.cfg.preciseNext then c else (s.thread t).pc) (s.thread t)
        (s'.thread t) ∧
      (s'.thread t).pc = s.evb ||| 0x08 ∧
      (s'.thread t).diag = l.cause.setWidth 32 ∧ (s'.thread t).tmode = (s.thread t).tmode ∧
      (s'.thread t).tlbls = (s.thread t).tlbls ∧ (s'.thread t).k0ls = (s.thread t).k0ls ∧
      (∀ u, u ≠ t → s'.thread u = s.thread u) ∧ s'.resp = some ⟨.ok, (s'.thread t).pc.setWidth 64⟩ ∧
      { s' with threads := s.threads, resp := s.resp } = s

/-- The dispatch of a TLB miss while the TLB lock is free or already the thread's: the thread is entered as the owner of the
lock (R253, R257). -/
def Obligations.TlbMissIsEnteredUnderTheLock : Prop :=
  ∀ (t : Tid) (c : Word) (s : State) (l : Latch), Admitted (.commit t c) s → (s.thread t).latch = some l →
    ssrEx (s.thread t).ssr = false → isTlbMiss l.event = true → admittedPair l.event l.cause = true →
    (syscfgLock .tlb s.syscfg = false ∨ (s.thread t).tlbls = .owner) →
    ∃ s', exec (.commit t c) s = .next s' ∧
      Entered s.evb l l.event l.cause (s.thread t).pc (s.thread t) (s'.thread t) ∧
      (s'.thread t).tlbls = .owner ∧ syscfgLock .tlb s'.syscfg = true ∧
      (∀ j, j ≠ 11 → s'.syscfg.getLsbD j = s.syscfg.getLsbD j) ∧
      (s'.thread t).tmode = (s.thread t).tmode ∧ (s'.thread t).diag = (s.thread t).diag ∧
      (s'.thread t).k0ls = (s.thread t).k0ls ∧ (∀ u, u ≠ t → s'.thread u = s.thread u) ∧
      s'.resp = some ⟨.ok, (s'.thread t).pc.setWidth 64⟩ ∧
      { s' with threads := s.threads, syscfg := s.syscfg, resp := s.resp } = s

/-- The dispatch of a TLB miss while another thread holds the TLB lock: the thread waits, with its PC and its latch unchanged
and its addresses recorded; a COMMIT presented again while the lock is still held changes no state (R253). The bundle state is
cleared, its flags discarded, as at the end of every COMMIT (R206, R317 (d)). spec/10_state.md R40 excepts this COMMIT from
those it names, and following R206 there is the model's choice (log entry 9). -/
def Obligations.TlbMissWaitsForTheLock : Prop :=
  ∀ (t : Tid) (c : Word) (s : State) (l : Latch), Admitted (.commit t c) s → (s.thread t).latch = some l →
    ssrEx (s.thread t).ssr = false → isTlbMiss l.event = true → admittedPair l.event l.cause = true →
    syscfgLock .tlb s.syscfg = true → (s.thread t).tlbls ≠ .owner →
    ∃ s', exec (.commit t c) s = .next s' ∧
      s' = { s.modThread t (fun th =>
        { recordBadva th l with tlbls := .waiting, missWait := true, bundle := ⟨false, false, none⟩ }) with
          resp := some ⟨.ok, (s.thread t).pc.setWidth 64⟩ } ∧
      ∀ c', exec (.commit t c') s' = .next s'

/-- The dispatch of IMPRECISE: the originator resumes at next_pc; every other thread that exists and is not Off is redirected
to the same vector, resuming at its own PC, Run, with its latch, bundle and miss_wait cleared and every other field kept; Off
threads are not touched (R247, R258, R260). -/
def Obligations.ImpreciseRedirectsEveryThread : Prop :=
  ∀ (t : Tid) (c : Word) (s : State) (l : Latch), Admitted (.commit t c) s → s.hasThread t → (s.thread t).latch = some l →
    ssrEx (s.thread t).ssr = false → l.event = .imprecise → l.cause = 0x44 →
    ∃ s', exec (.commit t c) s = .next s' ∧
      Entered s.evb l .imprecise 0x44 c (s.thread t) (s'.thread t) ∧
      (s'.thread t).tmode = (s.thread t).tmode ∧ (s'.thread t).diag = (s.thread t).diag ∧
      (s'.thread t).tlbls = (s.thread t).tlbls ∧ (s'.thread t).k0ls = (s.thread t).k0ls ∧
      (∀ u, u ≠ t → s'.thread u =
        if s.hasThread u ∧ (s.thread u).tmode ≠ .off then
          { s.thread u with
            elr := (s.thread u).pc
            ssr := ssrSetEx (ssrSetCause (s.thread u).ssr 0x44) true
            pc := s.evb ||| 0x04
            tmode := .run
            latch := none
            bundle := ⟨false, false, none⟩
            missWait := false }
        else s.thread u) ∧
      s'.resp = some ⟨.ok, (s'.thread t).pc.setWidth 64⟩ ∧ { s' with threads := s.threads, resp := s.resp } = s

/-- The pairs of event and cause that are admitted are those of R246 and R247. The dispatch of any other pair, no exception
active, stops the block: the addresses are recorded, and the record names the pair, the thread, its PC and its BADVA registers
(R252, R275, R276). RESET and interrupts never stand in a latch (LatchInv; log entry 19). -/
def Obligations.UnknownEventsStopTheBlock : Prop :=
  (∀ (e : Event) (c : BitVec 8), admittedPair e c = true ↔
    (e = .precise ∧ c ∈ [0x03, 0x11, 0x12, 0x15, 0x1B, 0x1E, 0x20, 0x21, 0x22, 0x23, 0x24, 0x25]) ∨
    (e = .imprecise ∧ c = 0x44) ∨ (e = .tlbMissX ∧ (c = 0x60 ∨ c = 0x61)) ∨ (e = .tlbMissRw ∧ (c = 0x70 ∨ c = 0x71)) ∨
    e = .trap0 ∨ e = .trap1 ∨ (e = .fptrap ∧ c = 0xBF) ∨ (e = .debug ∧ c = 0x80) ∨
    (∃ n, e = .int n ∧ c.toNat = 0xC0 + n.val) ∨ (e = .reset ∧ c = 0x00)) ∧
  ∀ (t : Tid) (c : Word) (s : State) (l : Latch), Admitted (.commit t c) s → (s.thread t).latch = some l →
    ssrEx (s.thread t).ssr = false → admittedPair l.event l.cause = false →
    ∃ st info, exec (.commit t c) s = .fault (.fatalStop st) ∧
      info = ⟨.unknownEvent, t, ordinal l.event, l.cause, (s.thread t).pc,
        if l.vmask.getLsbD 0 then l.va0 else (s.thread t).badva0,
        if l.vmask.getLsbD 1 then l.va1 else (s.thread t).badva1⟩ ∧
      st = { s.modThread t (fun th => recordBadva th l) with
        fatal := some info, resp := some ⟨.fatal, 0⟩, sent := s.sent ++ [.fatalDump info] }

/-- After a data fault is entered, a read of the merged BADVA returns the address of slot 1 if slot 1 alone reported one, and
else that of slot 0 (R33, R255, R230). -/
def Obligations.MergedBadvaReadsTheFaultAddress : Prop :=
  ∀ (t : Tid) (c : Word) (s s' : State) (l : Latch), Admitted (.commit t c) s → (s.thread t).latch = some l →
    l.vmask ≠ 0 → exec (.commit t c) s = .next s' → (s'.thread t).latch = none →
    ∃ s'', exec (.sregR t .badva) s' = .next s'' ∧
      s''.resp = some ⟨.ok, (if l.vmask = 0b10 then l.va1 else l.va0).setWidth 64⟩

/-- The ordinals of R241; the vector of an event is EVB OR four times its ordinal (R259); with EVB bits 6:0 zero the vectors are
EVB plus the offsets of R241, and no two events share one. -/
def Obligations.VectorsAreDistinct : Prop :=
  ordinal .reset = 0x00 ∧ ordinal .imprecise = 0x01 ∧ ordinal .precise = 0x02 ∧ ordinal .tlbMissX = 0x04 ∧
    ordinal .tlbMissRw = 0x06 ∧ ordinal .trap0 = 0x08 ∧ ordinal .trap1 = 0x09 ∧ ordinal .fptrap = 0x0B ∧
    ordinal .debug = 0x0C ∧ (∀ n, (ordinal (.int n)).toNat = 0x10 + n.val) ∧
  (∀ (evb : Word) (e : Event), vector evb e = evb ||| BitVec.ofNat 32 (4 * (ordinal e).toNat)) ∧
    ∀ evb : Word, evb.extractLsb' 0 7 = 0 →
      vector evb .reset = evb ∧ vector evb .imprecise = evb + 0x04 ∧ vector evb .precise = evb + 0x08 ∧
        vector evb .tlbMissX = evb + 0x10 ∧ vector evb .tlbMissRw = evb + 0x18 ∧ vector evb .trap0 = evb + 0x20 ∧
        vector evb .trap1 = evb + 0x24 ∧ vector evb .fptrap = evb + 0x2C ∧ vector evb .debug = evb + 0x30 ∧
        (∀ n, vector evb (.int n) = evb + BitVec.ofNat 32 (0x40 + 4 * n.val)) ∧
        ∀ e f, vector evb e = vector evb f → e = f

/-! ### System registers -/

/-- The fields of SSR stand at the bits of R30 and those of SYSCFG at the bits of R23, each setter writes its field and no
other bit, and the privilege mode is KERNEL with EX = 1 or UM = 0, else GUEST with GM = 1, else USER (R36). -/
def Obligations.StatusFieldsStandAtTheirBits : Prop :=
  (∀ v : Word,
    (ssrCause v).toNat = v.toNat % 256 ∧ (ssrAsid v).toNat = v.toNat / 2 ^ 8 % 256 ∧ ssrUm v = v.toNat.testBit 16 ∧
      ssrEx v = v.toNat.testBit 17 ∧ ssrIe v = v.toNat.testBit 18 ∧ ssrGm v = v.toNat.testBit 19 ∧
      ssrV0 v = v.toNat.testBit 20 ∧ ssrV1 v = v.toNat.testBit 21 ∧ ssrBvs v = v.toNat.testBit 22 ∧
      syscfgMmuen v = v.toNat.testBit 0 ∧ syscfgGie v = v.toNat.testBit 4 ∧ syscfgLock .tlb v = v.toNat.testBit 11 ∧
      syscfgLock .k0 v = v.toNat.testBit 12) ∧
  (∀ (v : Word) (c : BitVec 8) (b v0 v1 bvs : Bool),
    (ssrSetCause v c).toNat = v.toNat / 256 * 256 + c.toNat ∧
      ∀ j, j < 32 →
        (ssrSetEx v b).getLsbD j = (if j = 17 then b else v.getLsbD j) ∧
        (ssrSetBadva v v0 v1 bvs).getLsbD j =
          (if j = 20 then v0 else if j = 21 then v1 else if j = 22 then bvs else v.getLsbD j) ∧
        (syscfgSetLock .tlb v b).getLsbD j = (if j = 11 then b else v.getLsbD j) ∧
        (syscfgSetLock .k0 v b).getLsbD j = (if j = 12 then b else v.getLsbD j)) ∧
  ∀ (s : State) (t : Tid),
    let ssr := (s.thread t).ssr.toNat
    (s.mode t = .kernel ↔ ssr.testBit 17 = true ∨ ssr.testBit 16 = false) ∧
      (s.mode t = .guest ↔ ssr.testBit 17 = false ∧ ssr.testBit 16 = true ∧ ssr.testBit 19 = true) ∧
      (s.mode t = .user ↔ ssr.testBit 17 = false ∧ ssr.testBit 16 = true ∧ ssr.testBit 19 = false)

/-- SREG_R returns the register R230 names, and changes nothing but for the cycle counter, each read of which is a draw of
some value (R27, R230, R231). MODECTL reads bit i as 1 when thread i is not Off and bit 16 + i as 1 when it waits; every other
bit reads 0 (R234). -/
def Obligations.SregReadReturnsTheRegister : Prop :=
  (∀ s : State, (∀ u, s.hasThread u → modectlSays (modectlRead s) u (s.thread u).tmode) ∧
    ∀ j, j < 32 → (∀ u, s.hasThread u → j ≠ u.val ∧ j ≠ 16 + u.val) → (modectlRead s).getLsbD j = false) ∧
  ∀ (t : Tid) (r : SReg) (s : State), Admitted (.sregR t r) s →
    (readsCycles r = false →
      exec (.sregR t r) s =
        .next { s with
          resp := some ⟨.ok, BitVec.setWidth 64 (
            match r with
            | .ssr => (s.thread t).ssr
            | .elr => (s.thread t).elr
            | .badva0 => (s.thread t).badva0
            | .badva1 => (s.thread t).badva1
            | .badva => if ssrBvs (s.thread t).ssr then (s.thread t).badva1 else (s.thread t).badva0
            | .diag => (s.thread t).diag
            | .evb => s.evb
            | .syscfg => s.syscfg
            | .modectl => modectlRead s
            | .cfgbase => s.cfgbase
            | .rev => s.rev
            | .pcycleLo => 0
            | .pcycleHi => 0)⟩ }) ∧
    (r = .pcycleLo → ∃ count,
      exec (.sregR t r) s =
        .next { s with
          pcycle := count, draws := s.draws + 1, resp := some ⟨.ok, (count.extractLsb' 0 32).setWidth 64⟩ }) ∧
    (r = .pcycleHi → ∃ count,
      exec (.sregR t r) s =
        .next { s with
          pcycle := count, draws := s.draws + 1, resp := some ⟨.ok, (count.extractLsb' 32 32).setWidth 64⟩ })

/-- SREG_W writes the register R230 names, all 32 bits but for SYSCFG's lock bits 11 and 12, which it keeps; a write to a
read-only register changes nothing (R230, R232). MODECTL is the next statement's. -/
def Obligations.SregWriteWritesTheRegister : Prop :=
  ∀ (t : Tid) (r : SReg) (v : Word) (s : State), Admitted (.sregW t r v) s → r ≠ .modectl →
    ∃ s', exec (.sregW t r v) s = .next s' ∧ s'.resp = some ⟨.ok, 0⟩ ∧
      s'.thread t =
        { s.thread t with
          ssr := if r = .ssr then v else (s.thread t).ssr
          elr := if r = .elr then v else (s.thread t).elr
          badva0 := if r = .badva0 then v else (s.thread t).badva0
          badva1 := if r = .badva1 then v else (s.thread t).badva1
          diag := if r = .diag then v else (s.thread t).diag } ∧
      (∀ u, u ≠ t → s'.thread u = s.thread u) ∧
      s'.evb = (if r = .evb then v else s.evb) ∧
      (∀ j, s'.syscfg.getLsbD j =
        if r = .syscfg ∧ j ≠ 11 ∧ j ≠ 12 then v.getLsbD j else s.syscfg.getLsbD j) ∧
      { s' with threads := s.threads, evb := s.evb, syscfg := s.syscfg, resp := s.resp } = s

/-- A write of MODECTL: the writer's own mode waits for its COMMIT; a thread started from Off is reset and takes the new mode;
every other thread takes the new mode and keeps the rest; no lock bit moves (R234, R305, R307). The contexts of the started
threads are told, in rising order, to zero their registers (R306; that the reset output is a message is log entry 14). ELR,
BADVA0, BADVA1 and DIAG of a started thread are left open, as R311 leaves them. -/
def Obligations.ModectlWriteSetsTheThreadModes : Prop :=
  ∀ (t : Tid) (v : Word) (s : State), Admitted (.sregW t .modectl v) s → s.hasThread t →
    let asked : Tid → TMode := fun u =>
      if v.getLsbD u.val = false then .off else if v.getLsbD (16 + u.val) then .wait else .run
    ∃ s', exec (.sregW t .modectl v) s = .next s' ∧ s'.resp = some ⟨.ok, 0⟩ ∧
      (∀ u,
        let mode := asked u
        if ¬s.hasThread u then s'.thread u = s.thread u
        else if u = t then
          s'.thread u = { s.thread u with bundle := { (s.thread u).bundle with selfmode := some mode } }
        else if (s.thread u).tmode = .off ∧ mode ≠ .off then
          ∃ elr badva0 badva1 diag, s'.thread u =
            ⟨s.evb, if s.cfg.resetSetsEx then 0x00020000 else 0, elr, badva0, badva1, diag, mode, .unlocked, .unlocked, none,
              ⟨false, false, none⟩, false⟩
        else s'.thread u = { s.thread u with tmode := mode }) ∧
      s'.sent = s.sent ++ ((List.finRange 8).filter (fun u =>
        decide (s.hasThread u ∧ u ≠ t ∧ (s.thread u).tmode = .off ∧ asked u ≠ .off))).map .contextReset ∧
      { s' with threads := s.threads, sent := s.sent, draws := s.draws, resp := s.resp } = s

/-! ### Reset -/

/-- Core reset: the shared state takes its boot values, every slot is 0, thread 0 runs and the others are Off, each after a
per-thread reset; the context of each thread is told, in rising order, to zero its registers (R306; that the reset output is
a message is log entry 14); no thread is inside a bundle; ELR, BADVA0, BADVA1 and DIAG are left open (R301 to R303, R305 to
R314). -/
def Obligations.CoreResetSetsTheBootState : Prop :=
  ∀ (s : State) (rest : List Input), s.port = .rstCore :: rest →
    ∃ s', step s = .next s' ∧ (∀ i, Memory.read s'.tlb i = 0) ∧ s'.syscfg = 0 ∧ s'.pcycle = 0 ∧
      s'.evb = s.cfg.bootVector ∧ s'.cfgbase = s.cfg.configTableBase ∧ s'.rev = s.cfg.revisionId ∧ s'.fatal = none ∧
      s'.cfg = s.cfg ∧ s'.port = rest ∧ s'.inBundle = none ∧ s'.resp = none ∧
      s'.sent = s.sent ++ ((List.finRange 8).filter (fun u => decide (s.hasThread u))).map .contextReset ∧
      ∀ u, s.hasThread u → ∃ elr badva0 badva1 diag, s'.thread u =
        ⟨s.cfg.bootVector, if s.cfg.resetSetsEx then 0x00020000 else 0, elr, badva0, badva1, diag,
          if u = 0 then .run else .off, .unlocked, .unlocked, none, ⟨false, false, none⟩, false⟩

/-- Per-thread reset: PC is EVB as software last wrote it, the thread mode is kept, the lock states are Unlocked with the lock
bits not touched and no waiter selected, the context is told to zero its registers (R306; that the reset output is a message is
log entry 14), and nothing else changes; ELR, BADVA0, BADVA1 and DIAG are left open (R305 to R311, R314, R318). -/
def Obligations.ThreadResetKeepsTheModeAndTheLockBits : Prop :=
  ∀ (t : Tid) (s : State) (rest : List Input), s.port = .rstThread t :: rest → s.hasThread t → s.fatal = none →
    ∃ s' elr badva0 badva1 diag, step s = .next s' ∧
      s'.thread t = ⟨s.evb, if s.cfg.resetSetsEx then 0x00020000 else 0, elr, badva0, badva1, diag, (s.thread t).tmode,
        .unlocked, .unlocked, none, ⟨false, false, none⟩, false⟩ ∧
      (∀ u, u ≠ t → s'.thread u = s.thread u) ∧ s'.sent = s.sent ++ [.contextReset t] ∧
      { s' with threads := s.threads, sent := s.sent, draws := s.draws, resp := s.resp, port := s.port } = s

/-- The state after reset, for every choice of the parameters: thread 0 runs in KERNEL mode at BOOT_VECTOR with translation
disabled, no interrupt accepted, both locks free and every slot 0 (R315); and the invariants hold there. That it is ordered
rests on nothing being presented in it, the model's choice (log entry 12). -/
def Obligations.ResetStateIsTheBootState : Prop :=
  (∀ p : Params,
    let s := State.resetWith p
    (s.thread 0).tmode = .run ∧ s.mode 0 = .kernel ∧ (s.thread 0).pc = p.bootVector ∧ s.evb = p.bootVector ∧
      (s.thread 0).ssr = (if p.resetSetsEx then 0x00020000 else 0) ∧ syscfgMmuen s.syscfg = false ∧
      (∀ t, acceptsInt t s = false) ∧ syscfgLock .tlb s.syscfg = false ∧ syscfgLock .k0 s.syscfg = false ∧
      (∀ i, Memory.read s.tlb i = 0) ∧ s.fatal = none ∧ s.cfg = p ∧ (∀ t, t ≠ 0 → (s.thread t).tmode = .off) ∧
      Memory.wf s.tlb = true ∧ LockInv s ∧ LatchInv s ∧ BundleInv s ∧ s.Ordered) ∧
    State.reset = State.resetWith State.reset.cfg

/-! ### Invariants and rules of the whole machine -/

/-- Every step keeps the TLB store in its canonical form, an image write too. -/
def Obligations.StepKeepsTheStoreCanonical : Prop :=
  ∀ s s' : State, Memory.wf s.tlb = true → step s = .next s' → Memory.wf s'.tlb = true

/-- Every step but a host's write of an image keeps the lock invariants: at most one owner, the bit set while there is one,
and nobody Waiting or Owner while the bit is 0 (R45, R189). -/
def Obligations.StepKeepsTheLockInvariants : Prop :=
  ∀ s s' : State, NotImageWrite s → LockInv s → step s = .next s' → LockInv s'

/-- Every step but a host's write of an image keeps the latch invariant: RESET and interrupts never reach a latch, and a
thread in miss_wait keeps a TLB miss latched, with SSR.EX = 0, waiting for the TLB lock or just handed it (R41, R240 to R243,
R253). -/
def Obligations.StepKeepsTheLatchInvariant : Prop :=
  ∀ s s' : State, NotImageWrite s → LatchInv s → step s = .next s' → LatchInv s'

/-- In the orders of items that R8 allows, a thread between its bundles has a clear bundle, and an empty latch unless it is in
miss_wait: every step keeps this, a host's write of an image and a stopped block apart, and what is left to serve stays ordered
(R8, R206, R242). That the bundle of a thread in miss_wait is clear follows R206 where R40 reads otherwise, the model's choice
(log entry 9). -/
def Obligations.StepKeepsLatchesEmptyBetweenBundles : Prop :=
  ∀ s s' : State, s.Ordered → step s = .next s' → s'.Ordered ∧ (NotImageWrite s → BundleInv s → BundleInv s')

/-- A lock whose owner was reset stays dead: while its bit is 1 and nobody owns it, no step but a core reset or a host's write
of an image gives it an owner or frees it (R318). -/
def Obligations.LockOfAResetOwnerStaysDead : Prop :=
  ∀ (l : LockId) (s s' : State), NotImageWrite s → (∀ rest, s.port ≠ .rstCore :: rest) → LockDead l s →
    step s = .next s' → LockDead l s'

/-- The parameters never change, and no step touches a thread slot that stands for no thread (R9, R20). -/
def Obligations.StepKeepsParametersAndAbsentThreads : Prop :=
  ∀ s s' : State, step s = .next s' → s'.cfg = s.cfg ∧ ∀ u, ¬s.hasThread u → s'.thread u = s.thread u

/-- The TLB store is written by TLBW and CTLBW alone among the commands, and each writes at most the slot its index names
(R22, R142, R146). -/
def Obligations.OnlyTlbWritesChangeTheStore : Prop :=
  ∀ (i : Instr) (s s' : State), exec i s = .next s' →
    (∀ j, Memory.read s'.tlb j ≠ Memory.read s.tlb j →
      ∃ t e b, (i = .tlbw t e b ∨ i = .ctlbw t e b) ∧ j = wrapIndex b ∧ Memory.read s'.tlb j = e) ∧
    ((∀ t e b, i ≠ .tlbw t e b ∧ i ≠ .ctlbw t e b) → s'.tlb = s.tlb)

/-- Which command writes PC and SSR: no thread's PC changes but by COMMIT, RAISE_INT and a MODECTL write; no thread's SSR but by
these and an SREG_W of SSR (R29, R43). -/
def Obligations.OnlyControlCommandsWritePcAndSsr : Prop :=
  ∀ (i : Instr) (s s' : State) (u : Tid), exec i s = .next s' → i.isCommit = false → i.isInterrupt = false →
    (∀ v, i ≠ .sregW i.tid .modectl v) →
    (s'.thread u).pc = (s.thread u).pc ∧
      ((∀ v, i ≠ .sregW i.tid .ssr v) → (s'.thread u).ssr = (s.thread u).ssr)

/-- A thread's command leaves every other thread as it was, but that a release may make one of them an owner, that a COMMIT of
a latched IMPRECISE event may redirect it, and that a MODECTL write may set its mode or restart it (R103, R20). -/
def Obligations.CommandsLeaveOtherThreadsAlone : Prop :=
  ∀ (i : Instr) (s s' : State) (u : Tid), exec i s = .next s' → u ≠ i.tid →
    s'.thread u = s.thread u ∨
    (∃ l, i = unlockInstr l i.tid ∧ lockState l (s.thread u) = .waiting ∧
      s'.thread u = setLockState l .owner (s.thread u)) ∨
    (∃ c la, i = .commit i.tid c ∧ (s.thread i.tid).latch = some la ∧ la.event = .imprecise) ∨
    ∃ v, i = .sregW i.tid .modectl v

/-- A command of a thread outside KERNEL mode changes no shared state but the TLB lock that its own TLB miss takes, and no
other thread but by the broadcast of an IMPRECISE event already latched (R270, R123). -/
def Obligations.UnprivilegedThreadsCannotChangeSharedState : Prop :=
  ∀ (i : Instr) (s s' : State), exec i s = .next s' → i.isInterrupt = false → s.mode i.tid ≠ .kernel →
    s'.tlb = s.tlb ∧ s'.evb = s.evb ∧ s'.cfgbase = s.cfgbase ∧ s'.rev = s.rev ∧ s'.pcycle = s.pcycle ∧
      s'.fatal = s.fatal ∧ s'.cfg = s.cfg ∧ s'.draws = s.draws ∧
      (∀ j, j ≠ 11 → s'.syscfg.getLsbD j = s.syscfg.getLsbD j) ∧
      (s'.syscfg ≠ s.syscfg → i.isCommit = true ∧ (s'.thread i.tid).tlbls = .owner ∧ s'.mode i.tid = .kernel) ∧
      ((∀ l, (s.thread i.tid).latch = some l → l.event ≠ .imprecise) → ∀ u, u ≠ i.tid → s'.thread u = s.thread u)

/-- A thread outside KERNEL mode reaches it only at a vector: whatever command, of whichever thread, takes it there has left
its PC at the vector of some event, and so has any step, the resets too, but a host's write of an image (R271, R258, R309). -/
def Obligations.KernelModeIsEnteredOnlyAtAVector : Prop :=
  (∀ (i : Instr) (s s' : State) (u : Tid), exec i s = .next s' → s.mode u ≠ .kernel → s'.mode u = .kernel →
    ∃ e, (s'.thread u).pc = vector s'.evb e) ∧
  ∀ (s s' : State) (u : Tid), NotImageWrite s → step s = .next s' → s.mode u ≠ .kernel → s'.mode u = .kernel →
    ∃ e, (s'.thread u).pc = vector s'.evb e

/-! ### The persistence image -/

/-- The TLB image is 1536 bytes, byte 8i + j being bits 8j+7..8j of slot i (R104). A quiescent block answers an image read with
its image and changes no state; a write of an image replaces the state as a whole and runs no rule; writing back what was
read restores the state; a transfer while a bundle is not clear is refused (R105). The register image is the model's record,
and that a stopped block is served like any other, and an image of a wrong size refused, is its choice (log entry 13). -/
def Obligations.TheImageHoldsEverySlot : Prop :=
  (∀ m : Memory, (tlbImage m).length = 1536 ∧
    (∀ i j, i < 192 → j < 8 → (tlbImage m)[8 * i + j]? = some ((Memory.read m i).extractLsb' (8 * j) 8)) ∧
    ∀ i, i < 192 → Memory.read (imageTlb (tlbImage m)) i = Memory.read m i) ∧
  ∀ (s : State) (rest : List Input),
    ((∀ t, s.hasThread t → (s.thread t).bundle = .clear) →
      (s.port = .imageRead :: rest →
        step s = .next { s with port := rest, resp := none, sent := s.sent ++ [.image (tlbImage s.tlb) (regImage s)] }) ∧
      (∀ bytes g, s.port = .imageWrite bytes g :: rest → bytes.length = 1536 → g.threads.length = s.cfg.numThreads →
        ∃ s', step s = .next s' ∧
          (∀ i j, i < 192 → j < 8 → bytes[8 * i + j]? = some ((Memory.read s'.tlb i).extractLsb' (8 * j) 8)) ∧
          regImage s' = g ∧ (∀ u, ¬s.hasThread u → s'.thread u = s.thread u) ∧ s'.cfg = s.cfg ∧ s'.port = rest ∧
          s'.inBundle = s.inBundle ∧ s'.resp = none ∧ s'.sent = s.sent ∧ s'.draws = s.draws) ∧
      (s.port = .imageWrite (tlbImage s.tlb) (regImage s) :: rest → Memory.wf s.tlb = true →
        step s = .next { s with port := rest, resp := none }) ∧
      ∀ bytes g, s.port = .imageWrite bytes g :: rest → bytes.length ≠ 1536 ∨ g.threads.length ≠ s.cfg.numThreads →
        step s = .refused .imageMalformed) ∧
    ∀ t, s.hasThread t → (s.thread t).bundle ≠ .clear →
      (s.port = .imageRead :: rest ∨ ∃ bytes g, s.port = .imageWrite bytes g :: rest) →
      step s = .refused .imageNotQuiescent
end

