-- ==== Sys2Proof/Laws/Decode.lean ====
section
/-! SUPPORT. The command word and its fields, and the operand buses, each way (spec/30_encoding.md R111, R112). -/

namespace Sys2Proof

/-- The fields of a word put together from fields are those fields. -/
@[simp] theorem Fields.ofWord_toWord (f : Fields) : Fields.ofWord f.toWord = f := by
  cases f with
  | mk op tid priv acc slot z imm8 sub =>
    simp only [Fields.ofWord, Fields.toWord, Fields.mk.injEq]
    refine ⟨?_, ?_, ?_, ?_, ?_, ?_, ?_, ?_⟩ <;>
    · apply BitVec.eq_of_getLsbD_eq
      intro i hi
      simp only [BitVec.getLsbD_extractLsb', BitVec.getLsbD_append]
      interval_cases i <;> simp

/-- A word is put together again from its fields: no bit is dropped. -/
@[simp] theorem Fields.toWord_ofWord (w : Word) : (Fields.ofWord w).toWord = w := by
  simp only [Fields.ofWord, Fields.toWord]
  apply BitVec.eq_of_getLsbD_eq
  intro i hi
  simp only [BitVec.getLsbD_extractLsb', BitVec.getLsbD_append]
  interval_cases i <;> simp

theorem tidOfField_ofNat (t : Tid) : tidOfField (BitVec.ofNat 3 t.val) = t := by revert t; decide

theorem ofNat_tidOfField (v : BitVec 3) : BitVec.ofNat 3 (tidOfField v).val = v := by simp [tidOfField]

theorem interruptOfSub_ofNat (n : Fin 16) : interruptOfSub (BitVec.ofNat 8 n.val) = some n := by revert n; decide

/-- A command reads A[31:0] where its encoding put a 32-bit value. -/
@[simp] theorem busA_low32 (v : Word) : (v.setWidth 64).extractLsb' 0 32 = v := by
  apply BitVec.eq_of_toNat_eq
  have := v.isLt
  simp; omega

/-- TLBP reads B[7:0] where its encoding put the ASID. -/
@[simp] theorem busB_low8 (v : BitVec 8) : (v.setWidth 32).extractLsb' 0 8 = v := by
  apply BitVec.eq_of_toNat_eq
  have := v.isLt
  simp; omega

/-- Every command's fields name its thread, and its Z field is zero. -/
theorem Instr.fields_tid (i : Instr) : i.fields.tid = BitVec.ofNat 3 i.tid.val := by cases i <;> rfl

theorem Instr.fields_z (i : Instr) : i.fields.z = 0 := by cases i <;> rfl

end Sys2Proof
end

