-- ==== Sys2Proof/Laws/Flags.lean ====
section
/-! SUPPORT. What each status-field operation writes and what it leaves (spec/10_state.md R23, R30). -/

namespace Sys2Proof.Machine

/-- A bit of a word after bit `i` is written. -/
theorem putBit_getLsbD (v : Word) (i : Nat) (b : Bool) (j : Nat) (hi : i < 32) :
    (putBit v i b).getLsbD j = if j = i then b else v.getLsbD j := by
  unfold putBit
  by_cases hj : j < 32
  · cases b <;> by_cases h : i = j
    · simp [h, BitVec.getLsbD_twoPow, hj]
    · simp [BitVec.getLsbD_twoPow, hj, h, Ne.symm h]
    · simp [h, BitVec.getLsbD_twoPow, hj]
    · simp [BitVec.getLsbD_twoPow, hj, h, Ne.symm h]
  · have h : j ≠ i := by omega
    rw [if_neg h, BitVec.getLsbD_of_ge _ _ (by omega), BitVec.getLsbD_of_ge _ _ (by omega)]

theorem ssrSetEx_getLsbD (v : Word) (b : Bool) (j : Nat) :
    (ssrSetEx v b).getLsbD j = if j = 17 then b else v.getLsbD j := putBit_getLsbD v 17 b j (by omega)

theorem ssrSetCause_getLsbD (v : Word) (c : BitVec 8) (j : Nat) :
    (ssrSetCause v c).getLsbD j = if j < 8 then c.getLsbD j else v.getLsbD j := by
  unfold ssrSetCause
  rw [BitVec.getLsbD_append]
  by_cases h : j < 8
  · simp [h]
  · rw [if_neg h]
    simp only [h, decide_false, cond_false, BitVec.getLsbD_extractLsb']
    by_cases hj : j < 32
    · simp [show j - 8 < 24 by omega, show 8 + (j - 8) = j by omega]
    · rw [BitVec.getLsbD_of_ge v j (by omega)]
      simp [show ¬ j - 8 < 24 by omega]

theorem ssrSetBadva_getLsbD (v : Word) (v0 v1 bvs : Bool) (j : Nat) :
    (ssrSetBadva v v0 v1 bvs).getLsbD j =
      if j = 22 then bvs else if j = 21 then v1 else if j = 20 then v0 else v.getLsbD j := by
  simp only [ssrSetBadva, putBit_getLsbD _ 22 _ _ (by omega), putBit_getLsbD _ 21 _ _ (by omega),
    putBit_getLsbD _ 20 _ _ (by omega)]

@[simp] theorem ssrEx_setEx (v : Word) (b : Bool) : ssrEx (ssrSetEx v b) = b := by
  simp only [ssrEx, ssrSetEx_getLsbD]; rfl
@[simp] theorem ssrUm_setEx (v : Word) (b : Bool) : ssrUm (ssrSetEx v b) = ssrUm v := by
  simp only [ssrUm, ssrSetEx_getLsbD]; rfl
@[simp] theorem ssrGm_setEx (v : Word) (b : Bool) : ssrGm (ssrSetEx v b) = ssrGm v := by
  simp only [ssrGm, ssrSetEx_getLsbD]; rfl
@[simp] theorem ssrIe_setEx (v : Word) (b : Bool) : ssrIe (ssrSetEx v b) = ssrIe v := by
  simp only [ssrIe, ssrSetEx_getLsbD]; rfl
@[simp] theorem ssrBvs_setEx (v : Word) (b : Bool) : ssrBvs (ssrSetEx v b) = ssrBvs v := by
  simp only [ssrBvs, ssrSetEx_getLsbD]; rfl
@[simp] theorem ssrEx_setCause (v : Word) (c : BitVec 8) : ssrEx (ssrSetCause v c) = ssrEx v := by
  simp only [ssrEx, ssrSetCause_getLsbD]; rfl
@[simp] theorem ssrUm_setCause (v : Word) (c : BitVec 8) : ssrUm (ssrSetCause v c) = ssrUm v := by
  simp only [ssrUm, ssrSetCause_getLsbD]; rfl
@[simp] theorem ssrGm_setCause (v : Word) (c : BitVec 8) : ssrGm (ssrSetCause v c) = ssrGm v := by
  simp only [ssrGm, ssrSetCause_getLsbD]; rfl
@[simp] theorem ssrBvs_setCause (v : Word) (c : BitVec 8) : ssrBvs (ssrSetCause v c) = ssrBvs v := by
  simp only [ssrBvs, ssrSetCause_getLsbD]; rfl
@[simp] theorem ssrEx_setBadva (v : Word) (a b c : Bool) : ssrEx (ssrSetBadva v a b c) = ssrEx v := by
  simp only [ssrEx, ssrSetBadva_getLsbD]; rfl
@[simp] theorem ssrUm_setBadva (v : Word) (a b c : Bool) : ssrUm (ssrSetBadva v a b c) = ssrUm v := by
  simp only [ssrUm, ssrSetBadva_getLsbD]; rfl
@[simp] theorem ssrBvs_setBadva (v : Word) (a b c : Bool) : ssrBvs (ssrSetBadva v a b c) = c := by
  simp only [ssrBvs, ssrSetBadva_getLsbD]; rfl

/-- SSR.CAUSE reads as it was written. -/
@[simp] theorem ssrCause_setCause (v : Word) (c : BitVec 8) : ssrCause (ssrSetCause v c) = c := by
  apply BitVec.eq_of_getLsbD_eq
  intro i hi
  rw [ssrCause, BitVec.getLsbD_extractLsb', ssrSetCause_getLsbD]
  simp [hi]

/-- Writing what the badva fields hold changes nothing. -/
theorem ssrSetBadva_idem (v : Word) (a b c : Bool) : ssrSetBadva (ssrSetBadva v a b c) a b c = ssrSetBadva v a b c := by
  apply BitVec.eq_of_getLsbD_eq
  intro i hi
  simp only [ssrSetBadva_getLsbD]
  split_ifs <;> rfl

/-- A thread whose SSR.EX is 1 is in KERNEL mode (spec/10_state.md R36). -/
theorem privMode_of_ex {v : Word} (h : ssrEx v = true) : privMode v = .kernel := by simp [privMode, h]

theorem lockBitIndex_lt (l : LockId) : lockBitIndex l < 32 := by cases l <;> decide

/-- A lock's bit reads as it was written, the other lock's as before (spec/41_lock.md R180). -/
theorem syscfgLock_setLock (l k : LockId) (v : Word) (b : Bool) :
    syscfgLock k (syscfgSetLock l v b) = if k = l then b else syscfgLock k v := by
  unfold syscfgLock syscfgSetLock
  rw [putBit_getLsbD _ _ _ _ (lockBitIndex_lt l)]
  cases l <;> cases k <;> rfl

@[simp] theorem syscfgLock_setLock_self (l : LockId) (v : Word) (b : Bool) :
    syscfgLock l (syscfgSetLock l v b) = b := by simp [syscfgLock_setLock]

/-- A bit of SYSCFG after a write by SREG_W: bits 11 and 12 are kept (spec/43_sreg.md R232). -/
theorem syscfgWrite_getLsbD (old v : Word) (j : Nat) :
    (syscfgWrite old v).getLsbD j = if j = 11 ∨ j = 12 then old.getLsbD j else v.getLsbD j := by
  by_cases hj : j < 32
  · unfold syscfgWrite
    interval_cases j <;> simp [BitVec.getLsbD_or, BitVec.getLsbD_and]
  · rw [BitVec.getLsbD_of_ge _ _ (by omega), BitVec.getLsbD_of_ge v _ (by omega)]
    rw [if_neg (by omega)]

@[simp] theorem syscfgLock_write (l : LockId) (old v : Word) : syscfgLock l (syscfgWrite old v) = syscfgLock l old := by
  unfold syscfgLock
  rw [syscfgWrite_getLsbD]
  cases l <;> simp [lockBitIndex]

/-- Clearing the low `n` bits rounds down to a multiple of two to the `n`. -/
theorem clearLow_toNat {w : Nat} (n : Nat) (x : BitVec w) : (clearLow n x).toNat = x.toNat / 2 ^ n * 2 ^ n := by
  unfold clearLow
  rw [BitVec.toNat_shiftLeft, BitVec.toNat_ushiftRight, Nat.shiftRight_eq_div_pow, Nat.shiftLeft_eq]
  apply Nat.mod_eq_of_lt
  exact lt_of_le_of_lt (Nat.div_mul_le_self _ _) x.isLt

/-- The ordinals of two events are the same only for the same event (spec/60_exceptions.md R241). -/
theorem ordinal_injective : ∀ e f : Event, ordinal e = ordinal f → e = f := by
  have h16 : ∀ n m : Fin 16, ordinal (.int n) = ordinal (.int m) → n = m := by decide
  have hlow : ∀ n : Fin 16, 0x10#5 ≤ ordinal (.int n) := by decide
  intro e f h
  cases e <;> cases f <;> first
    | rfl
    | (exact congrArg Event.int (h16 _ _ h))
    | (exact absurd h (by decide))
    | (next n => exact absurd (hlow n) (by first | (rw [h]; decide) | (rw [← h]; decide)))

end Sys2Proof.Machine
end

