-- ==== Sys2Proof/Laws/State.lean ====
section
/-! SUPPORT. One lemma for each field of State and each named update of it, and the thread each update leaves. -/

namespace Sys2Proof.Machine

section
variable (s : State)

@[simp] theorem State.setThread_tlb (t : Tid) (th : Thread) : (s.setThread t th).tlb = s.tlb := rfl
@[simp] theorem State.setThread_syscfg (t : Tid) (th : Thread) : (s.setThread t th).syscfg = s.syscfg := rfl
@[simp] theorem State.setThread_evb (t : Tid) (th : Thread) : (s.setThread t th).evb = s.evb := rfl
@[simp] theorem State.setThread_cfgbase (t : Tid) (th : Thread) : (s.setThread t th).cfgbase = s.cfgbase := rfl
@[simp] theorem State.setThread_rev (t : Tid) (th : Thread) : (s.setThread t th).rev = s.rev := rfl
@[simp] theorem State.setThread_pcycle (t : Tid) (th : Thread) : (s.setThread t th).pcycle = s.pcycle := rfl
@[simp] theorem State.setThread_fatal (t : Tid) (th : Thread) : (s.setThread t th).fatal = s.fatal := rfl
@[simp] theorem State.setThread_cfg (t : Tid) (th : Thread) : (s.setThread t th).cfg = s.cfg := rfl
@[simp] theorem State.setThread_port (t : Tid) (th : Thread) : (s.setThread t th).port = s.port := rfl
@[simp] theorem State.setThread_inBundle (t : Tid) (th : Thread) : (s.setThread t th).inBundle = s.inBundle := rfl
@[simp] theorem State.setThread_resp (t : Tid) (th : Thread) : (s.setThread t th).resp = s.resp := rfl
@[simp] theorem State.setThread_sent (t : Tid) (th : Thread) : (s.setThread t th).sent = s.sent := rfl
@[simp] theorem State.setThread_draws (t : Tid) (th : Thread) : (s.setThread t th).draws = s.draws := rfl

@[simp] theorem State.modThread_tlb (t : Tid) (f : Thread → Thread) : (s.modThread t f).tlb = s.tlb := rfl
@[simp] theorem State.modThread_syscfg (t : Tid) (f : Thread → Thread) : (s.modThread t f).syscfg = s.syscfg := rfl
@[simp] theorem State.modThread_evb (t : Tid) (f : Thread → Thread) : (s.modThread t f).evb = s.evb := rfl
@[simp] theorem State.modThread_cfgbase (t : Tid) (f : Thread → Thread) : (s.modThread t f).cfgbase = s.cfgbase := rfl
@[simp] theorem State.modThread_rev (t : Tid) (f : Thread → Thread) : (s.modThread t f).rev = s.rev := rfl
@[simp] theorem State.modThread_pcycle (t : Tid) (f : Thread → Thread) : (s.modThread t f).pcycle = s.pcycle := rfl
@[simp] theorem State.modThread_fatal (t : Tid) (f : Thread → Thread) : (s.modThread t f).fatal = s.fatal := rfl
@[simp] theorem State.modThread_cfg (t : Tid) (f : Thread → Thread) : (s.modThread t f).cfg = s.cfg := rfl
@[simp] theorem State.modThread_port (t : Tid) (f : Thread → Thread) : (s.modThread t f).port = s.port := rfl
@[simp] theorem State.modThread_inBundle (t : Tid) (f : Thread → Thread) : (s.modThread t f).inBundle = s.inBundle := rfl
@[simp] theorem State.modThread_resp (t : Tid) (f : Thread → Thread) : (s.modThread t f).resp = s.resp := rfl
@[simp] theorem State.modThread_sent (t : Tid) (f : Thread → Thread) : (s.modThread t f).sent = s.sent := rfl
@[simp] theorem State.modThread_draws (t : Tid) (f : Thread → Thread) : (s.modThread t f).draws = s.draws := rfl

@[simp] theorem State.mapThreads_tlb (f : Tid → Thread → Thread) : (s.mapThreads f).tlb = s.tlb := rfl
@[simp] theorem State.mapThreads_syscfg (f : Tid → Thread → Thread) : (s.mapThreads f).syscfg = s.syscfg := rfl
@[simp] theorem State.mapThreads_evb (f : Tid → Thread → Thread) : (s.mapThreads f).evb = s.evb := rfl
@[simp] theorem State.mapThreads_cfgbase (f : Tid → Thread → Thread) : (s.mapThreads f).cfgbase = s.cfgbase := rfl
@[simp] theorem State.mapThreads_rev (f : Tid → Thread → Thread) : (s.mapThreads f).rev = s.rev := rfl
@[simp] theorem State.mapThreads_pcycle (f : Tid → Thread → Thread) : (s.mapThreads f).pcycle = s.pcycle := rfl
@[simp] theorem State.mapThreads_fatal (f : Tid → Thread → Thread) : (s.mapThreads f).fatal = s.fatal := rfl
@[simp] theorem State.mapThreads_cfg (f : Tid → Thread → Thread) : (s.mapThreads f).cfg = s.cfg := rfl
@[simp] theorem State.mapThreads_port (f : Tid → Thread → Thread) : (s.mapThreads f).port = s.port := rfl
@[simp] theorem State.mapThreads_inBundle (f : Tid → Thread → Thread) : (s.mapThreads f).inBundle = s.inBundle := rfl
@[simp] theorem State.mapThreads_resp (f : Tid → Thread → Thread) : (s.mapThreads f).resp = s.resp := rfl
@[simp] theorem State.mapThreads_sent (f : Tid → Thread → Thread) : (s.mapThreads f).sent = s.sent := rfl
@[simp] theorem State.mapThreads_draws (f : Tid → Thread → Thread) : (s.mapThreads f).draws = s.draws := rfl

@[simp] theorem State.respond_tlb (c : RespCode) (r : BitVec 64) : (s.respond c r).tlb = s.tlb := rfl
@[simp] theorem State.respond_syscfg (c : RespCode) (r : BitVec 64) : (s.respond c r).syscfg = s.syscfg := rfl
@[simp] theorem State.respond_evb (c : RespCode) (r : BitVec 64) : (s.respond c r).evb = s.evb := rfl
@[simp] theorem State.respond_cfgbase (c : RespCode) (r : BitVec 64) : (s.respond c r).cfgbase = s.cfgbase := rfl
@[simp] theorem State.respond_rev (c : RespCode) (r : BitVec 64) : (s.respond c r).rev = s.rev := rfl
@[simp] theorem State.respond_pcycle (c : RespCode) (r : BitVec 64) : (s.respond c r).pcycle = s.pcycle := rfl
@[simp] theorem State.respond_fatal (c : RespCode) (r : BitVec 64) : (s.respond c r).fatal = s.fatal := rfl
@[simp] theorem State.respond_threads (c : RespCode) (r : BitVec 64) : (s.respond c r).threads = s.threads := rfl
@[simp] theorem State.respond_cfg (c : RespCode) (r : BitVec 64) : (s.respond c r).cfg = s.cfg := rfl
@[simp] theorem State.respond_port (c : RespCode) (r : BitVec 64) : (s.respond c r).port = s.port := rfl
@[simp] theorem State.respond_inBundle (c : RespCode) (r : BitVec 64) : (s.respond c r).inBundle = s.inBundle := rfl
@[simp] theorem State.respond_resp (c : RespCode) (r : BitVec 64) : (s.respond c r).resp = some ⟨c, r⟩ := rfl
@[simp] theorem State.respond_sent (c : RespCode) (r : BitVec 64) : (s.respond c r).sent = s.sent := rfl
@[simp] theorem State.respond_draws (c : RespCode) (r : BitVec 64) : (s.respond c r).draws = s.draws := rfl

@[simp] theorem State.send_tlb (m : OutMsg) : (s.send m).tlb = s.tlb := rfl
@[simp] theorem State.send_syscfg (m : OutMsg) : (s.send m).syscfg = s.syscfg := rfl
@[simp] theorem State.send_evb (m : OutMsg) : (s.send m).evb = s.evb := rfl
@[simp] theorem State.send_cfgbase (m : OutMsg) : (s.send m).cfgbase = s.cfgbase := rfl
@[simp] theorem State.send_rev (m : OutMsg) : (s.send m).rev = s.rev := rfl
@[simp] theorem State.send_pcycle (m : OutMsg) : (s.send m).pcycle = s.pcycle := rfl
@[simp] theorem State.send_fatal (m : OutMsg) : (s.send m).fatal = s.fatal := rfl
@[simp] theorem State.send_threads (m : OutMsg) : (s.send m).threads = s.threads := rfl
@[simp] theorem State.send_cfg (m : OutMsg) : (s.send m).cfg = s.cfg := rfl
@[simp] theorem State.send_port (m : OutMsg) : (s.send m).port = s.port := rfl
@[simp] theorem State.send_inBundle (m : OutMsg) : (s.send m).inBundle = s.inBundle := rfl
@[simp] theorem State.send_resp (m : OutMsg) : (s.send m).resp = s.resp := rfl
@[simp] theorem State.send_sent (m : OutMsg) : (s.send m).sent = s.sent ++ [m] := rfl
@[simp] theorem State.send_draws (m : OutMsg) : (s.send m).draws = s.draws := rfl

@[simp] theorem State.setLockBit_tlb (l : LockId) (b : Bool) : (s.setLockBit l b).tlb = s.tlb := rfl
@[simp] theorem State.setLockBit_syscfg (l : LockId) (b : Bool) : (s.setLockBit l b).syscfg = syscfgSetLock l s.syscfg b := rfl
@[simp] theorem State.setLockBit_evb (l : LockId) (b : Bool) : (s.setLockBit l b).evb = s.evb := rfl
@[simp] theorem State.setLockBit_cfgbase (l : LockId) (b : Bool) : (s.setLockBit l b).cfgbase = s.cfgbase := rfl
@[simp] theorem State.setLockBit_rev (l : LockId) (b : Bool) : (s.setLockBit l b).rev = s.rev := rfl
@[simp] theorem State.setLockBit_pcycle (l : LockId) (b : Bool) : (s.setLockBit l b).pcycle = s.pcycle := rfl
@[simp] theorem State.setLockBit_fatal (l : LockId) (b : Bool) : (s.setLockBit l b).fatal = s.fatal := rfl
@[simp] theorem State.setLockBit_threads (l : LockId) (b : Bool) : (s.setLockBit l b).threads = s.threads := rfl
@[simp] theorem State.setLockBit_cfg (l : LockId) (b : Bool) : (s.setLockBit l b).cfg = s.cfg := rfl
@[simp] theorem State.setLockBit_port (l : LockId) (b : Bool) : (s.setLockBit l b).port = s.port := rfl
@[simp] theorem State.setLockBit_inBundle (l : LockId) (b : Bool) : (s.setLockBit l b).inBundle = s.inBundle := rfl
@[simp] theorem State.setLockBit_resp (l : LockId) (b : Bool) : (s.setLockBit l b).resp = s.resp := rfl
@[simp] theorem State.setLockBit_sent (l : LockId) (b : Bool) : (s.setLockBit l b).sent = s.sent := rfl
@[simp] theorem State.setLockBit_draws (l : LockId) (b : Bool) : (s.setLockBit l b).draws = s.draws := rfl

@[simp] theorem State.respond_thread (c : RespCode) (r : BitVec 64) (t : Tid) : (s.respond c r).thread t = s.thread t := rfl
@[simp] theorem State.send_thread (m : OutMsg) (t : Tid) : (s.send m).thread t = s.thread t := rfl
@[simp] theorem State.setLockBit_thread (l : LockId) (b : Bool) (t : Tid) : (s.setLockBit l b).thread t = s.thread t := rfl

@[simp] theorem State.thread_tlb (m : Memory) (t : Tid) : State.thread { s with tlb := m } t = s.thread t := rfl
@[simp] theorem State.thread_port (p : List Input) (t : Tid) : State.thread { s with port := p } t = s.thread t := rfl
@[simp] theorem State.thread_inBundle (b : Option Tid) (t : Tid) : State.thread { s with inBundle := b } t = s.thread t := rfl
@[simp] theorem State.thread_syscfg (v : Word) (t : Tid) : State.thread { s with syscfg := v } t = s.thread t := rfl
@[simp] theorem State.thread_evb (v : Word) (t : Tid) : State.thread { s with evb := v } t = s.thread t := rfl
@[simp] theorem State.thread_fatal (f : Option FatalInfo) (t : Tid) : State.thread { s with fatal := f } t = s.thread t := rfl
@[simp] theorem State.thread_resp (r : Option Response) (t : Tid) : State.thread { s with resp := r } t = s.thread t := rfl
@[simp] theorem State.thread_draws (n : Nat) (t : Tid) : State.thread { s with draws := n } t = s.thread t := rfl

/-- What a thread holds depends on the threads alone. -/
theorem State.thread_congr {s s' : State} (h : s'.threads = s.threads) (t : Tid) : s'.thread t = s.thread t := by
  unfold State.thread
  simp only [h]

/-- A replaced thread reads as it was written, every other thread as before. -/
theorem State.setThread_thread (t u : Tid) (th : Thread) :
    (s.setThread t th).thread u = if u = t then th else s.thread u := by
  simp only [State.setThread, State.thread, Vector.getElem_set, Fin.val_eq_val, eq_comm]

@[simp] theorem State.setThread_thread_self (t : Tid) (th : Thread) : (s.setThread t th).thread t = th := by
  simp [State.setThread_thread]

theorem State.setThread_thread_ne {t u : Tid} (h : u ≠ t) (th : Thread) :
    (s.setThread t th).thread u = s.thread u := by
  simp [State.setThread_thread, h]

/-- A changed thread reads as the change says, every other thread as before. -/
theorem State.modThread_thread (t u : Tid) (f : Thread → Thread) :
    (s.modThread t f).thread u = if u = t then f (s.thread u) else s.thread u := by
  unfold State.modThread
  rw [State.setThread_thread]
  split
  · next h => rw [h]
  · rfl

@[simp] theorem State.modThread_thread_self (t : Tid) (f : Thread → Thread) :
    (s.modThread t f).thread t = f (s.thread t) := by
  simp [State.modThread_thread]

theorem State.modThread_thread_ne {t u : Tid} (h : u ≠ t) (f : Thread → Thread) :
    (s.modThread t f).thread u = s.thread u := by
  simp [State.modThread_thread, h]

/-- Every thread `u` reads as `f u` leaves it. -/
@[simp] theorem State.mapThreads_thread (f : Tid → Thread → Thread) (u : Tid) :
    (s.mapThreads f).thread u = f u (s.thread u) := by
  fin_cases u <;> rfl

/-- Two states with the same fields and the same threads are the same state. -/
theorem State.eq_of_threads {s s' : State} (h : { s' with threads := s.threads } = s)
    (ht : ∀ u, s'.thread u = s.thread u) : s' = s := by
  have hv : s'.threads = s.threads := by
    apply Vector.ext
    intro i hi
    exact ht ⟨i, hi⟩
  rw [← h, ← hv]

end

end Sys2Proof.Machine
end

