-- ==== Sys2Proof/Laws/Memory.lean ====
section
/-! SUPPORT. The TLB store: a read after a write, and the canonical form that every operation keeps. -/

namespace Sys2Proof.Machine

theorem Memory.find_insert_self (i : Nat) (e : Entry) (m : Memory) (h : ∀ c ∈ m, c.1 ≠ i) :
    (Memory.insert i e m).find? (fun c => c.1 == i) = some (i, e) := by
  induction m with
  | nil => simp [Memory.insert]
  | cons c m ih =>
    have hc : c.1 ≠ i := h c (by simp)
    unfold Memory.insert
    split
    · simp
    · rw [List.find?_cons_of_neg (by simpa using hc)]
      exact ih fun c hc => h c (by simp [hc])

theorem Memory.find_insert_ne {i j : Nat} (e : Entry) (m : Memory) (h : j ≠ i) :
    (Memory.insert i e m).find? (fun c => c.1 == j) = m.find? (fun c => c.1 == j) := by
  induction m with
  | nil => simp [Memory.insert, Ne.symm h]
  | cons c m ih =>
    unfold Memory.insert
    split
    · rw [List.find?_cons_of_neg (by simpa using Ne.symm h)]
    · rw [List.find?_cons, List.find?_cons, ih]

theorem Memory.find_filter_ne {i j : Nat} (m : Memory) (h : j ≠ i) :
    (m.filter (fun c => c.1 != i)).find? (fun c => c.1 == j) = m.find? (fun c => c.1 == j) := by
  induction m with
  | nil => rfl
  | cons c m ih =>
    by_cases hc : c.1 = i
    · have hj : c.1 ≠ j := fun hcj => h (hcj.symm.trans hc)
      rw [List.filter_cons_of_neg (by simp [hc]), List.find?_cons_of_neg (by simpa using hj), ih]
    · rw [List.filter_cons_of_pos (by simpa using hc), List.find?_cons, List.find?_cons, ih]

/-- Slot `j` after a write to slot `i`: the value written if `j` is `i`, else what it held (spec/10_state.md R22). -/
theorem Memory.read_write (m : Memory) (i j : Nat) (e : Entry) :
    Memory.read (Memory.write m i e) j = if j = i then e else Memory.read m j := by
  have hout : ∀ c ∈ m.filter (fun c => c.1 != i), c.1 ≠ i := fun c hc => by simpa using (List.mem_filter.mp hc).2
  by_cases h : j = i
  · subst h
    simp only [if_pos, Memory.read, Memory.write]
    by_cases he : e = Memory.unlisted
    · have hn : (m.filter (fun c => c.1 != j)).find? (fun c => c.1 == j) = none := by
        rw [List.find?_eq_none]
        intro c hc
        simpa using hout c hc
      simp only [he, if_pos, hn]
    · simp only [he, if_false, Memory.find_insert_self j e _ hout]
  · simp only [if_neg h, Memory.read, Memory.write]
    by_cases he : e = Memory.unlisted
    · simp only [he, if_pos, Memory.find_filter_ne m h]
    · simp only [he, if_false, Memory.find_insert_ne e _ h, Memory.find_filter_ne m h]

@[simp] theorem Memory.read_write_self (m : Memory) (i : Nat) (e : Entry) :
    Memory.read (Memory.write m i e) i = e := by simp [Memory.read_write]

theorem Memory.read_write_ne (m : Memory) {i j : Nat} (e : Entry) (h : j ≠ i) :
    Memory.read (Memory.write m i e) j = Memory.read m j := by simp [Memory.read_write, h]

/-- Every slot of the empty store holds 0 (spec/70_reset_and_hazards.md R302). -/
@[simp] theorem Memory.read_nil (i : Nat) : Memory.read [] i = 0 := rfl

theorem Memory.mem_insert {i : Nat} {e : Entry} {m : Memory} {c : Nat × Entry} :
    c ∈ Memory.insert i e m ↔ c = (i, e) ∨ c ∈ m := by
  induction m with
  | nil => simp [Memory.insert]
  | cons d m ih =>
    unfold Memory.insert
    split
    · simp
    · simp only [List.mem_cons, ih]; tauto

theorem Memory.wf_iff (m : Memory) :
    Memory.wf m = true ↔ (∀ c ∈ m, c.1 < tlbEntries ∧ c.2 ≠ Memory.unlisted) ∧ (m.map Prod.fst).Pairwise (· < ·) := by
  simp [Memory.wf]

theorem Memory.insert_rising (i : Nat) (e : Entry) (m : Memory) (hi : ∀ c ∈ m, c.1 ≠ i)
    (hm : (m.map Prod.fst).Pairwise (· < ·)) : ((Memory.insert i e m).map Prod.fst).Pairwise (· < ·) := by
  induction m with
  | nil => simp [Memory.insert]
  | cons c m ih =>
    rw [List.map_cons, List.pairwise_cons] at hm
    have hc : c.1 ≠ i := hi c (by simp)
    unfold Memory.insert
    split
    · next hlt =>
      rw [List.map_cons, List.pairwise_cons]
      refine ⟨?_, by rw [List.map_cons, List.pairwise_cons]; exact hm⟩
      intro k hk
      rw [List.map_cons, List.mem_cons] at hk
      rcases hk with rfl | hk
      · exact hlt
      · exact hlt.trans (hm.1 k hk)
    · next hge =>
      rw [List.map_cons, List.pairwise_cons]
      refine ⟨?_, ih (fun d hd => hi d (by simp [hd])) hm.2⟩
      intro k hk
      obtain ⟨d, hd, rfl⟩ := List.mem_map.mp hk
      rcases Memory.mem_insert.mp hd with rfl | hd
      · change c.1 < i
        omega
      · exact hm.1 _ (List.mem_map.mpr ⟨d, hd, rfl⟩)

/-- A write to a slot that exists keeps the canonical form. -/
theorem Memory.wf_write (m : Memory) (i : Nat) (e : Entry) (hi : i < tlbEntries) (hm : Memory.wf m = true) :
    Memory.wf (Memory.write m i e) = true := by
  rw [Memory.wf_iff] at hm
  have hf : ((m.filter (fun c => c.1 != i)).map Prod.fst).Pairwise (· < ·) :=
    hm.2.sublist (List.filter_sublist.map _)
  have hmem : ∀ c ∈ m.filter (fun c => c.1 != i), c ∈ m ∧ c.1 ≠ i := fun c hc => by
    simpa using List.mem_filter.mp hc
  rw [Memory.wf_iff]
  unfold Memory.write
  by_cases he : e = Memory.unlisted
  · simp only [he, if_pos]
    exact ⟨fun c hc => hm.1 c (hmem c hc).1, hf⟩
  · simp only [he, if_false]
    refine ⟨fun c hc => ?_, Memory.insert_rising i e _ (fun c hc => (hmem c hc).2) hf⟩
    rcases Memory.mem_insert.mp hc with rfl | hc
    · exact ⟨hi, he⟩
    · exact hm.1 c (hmem c hc).1

@[simp] theorem Memory.wf_nil : Memory.wf [] = true := by decide

/-- A slot that no pair names reads as an unlisted slot does. -/
theorem Memory.read_unlisted {m : Memory} {i : Nat} (h : ∀ c ∈ m, c.1 ≠ i) : Memory.read m i = Memory.unlisted := by
  unfold Memory.read
  rw [List.find?_eq_none.mpr (by simpa using h)]

/-- The head of a list reads as it stands, and the tail is read everywhere else. -/
theorem Memory.read_cons (c : Nat × Entry) (m : Memory) (i : Nat) :
    Memory.read (c :: m) i = if c.1 = i then c.2 else Memory.read m i := by
  unfold Memory.read
  rw [List.find?_cons]
  cases h : c.1 == i <;> simp_all

/-- Stores in canonical form that read alike are the same list. -/
theorem Memory.ext_of_wf {m m' : Memory} (h : Memory.wf m = true) (h' : Memory.wf m' = true)
    (hr : ∀ i, Memory.read m i = Memory.read m' i) : m = m' := by
  rw [Memory.wf_iff] at h h'
  obtain ⟨hv, hs⟩ := h
  obtain ⟨hv', hs'⟩ := h'
  have below : ∀ {c : Nat × Entry} {l : Memory}, ((c :: l).map Prod.fst).Pairwise (· < ·) →
      ∀ i, i ≤ c.1 → ∀ d ∈ l, d.1 ≠ i := by
    intro c l hp i hi d hd
    have := (List.pairwise_cons.mp hp).1 d.1 (List.mem_map_of_mem hd)
    omega
  induction m generalizing m' with
  | nil =>
    cases m' with
    | nil => rfl
    | cons c l =>
      have := hr c.1
      rw [Memory.read_cons, if_pos rfl] at this
      exact absurd this.symm (hv' c (by simp)).2
  | cons c l ih =>
    cases m' with
    | nil =>
      have := hr c.1
      rw [Memory.read_cons, if_pos rfl] at this
      exact absurd this (hv c (by simp)).2
    | cons d l' =>
      have hcd : c.1 = d.1 := by
        rcases Nat.lt_trichotomy c.1 d.1 with hlt | heq | hlt
        · have := hr c.1
          rw [Memory.read_cons, if_pos rfl, Memory.read_cons, if_neg (by omega),
            Memory.read_unlisted (below hs' _ (by omega))] at this
          exact absurd this (hv c (by simp)).2
        · exact heq
        · have := hr d.1
          rw [Memory.read_cons, if_neg (by omega), Memory.read_cons, if_pos rfl,
            Memory.read_unlisted (below hs _ (by omega))] at this
          exact absurd this.symm (hv' d (by simp)).2
      have hc := hr c.1
      rw [Memory.read_cons, if_pos rfl, Memory.read_cons, if_pos hcd.symm] at hc
      rw [Prod.ext hcd hc, ih (m' := l') (fun i => ?_) (fun e he => hv e (by simp [he])) (List.pairwise_cons.mp hs).2
        (fun e he => hv' e (by simp [he])) (List.pairwise_cons.mp hs').2]
      by_cases hi : c.1 = i
      · rw [Memory.read_unlisted (below hs _ (by omega)), Memory.read_unlisted (below hs' _ (by omega))]
      · have := hr i
        rwa [Memory.read_cons, if_neg hi, Memory.read_cons, if_neg (by omega)] at this

/-- The index wrap names a slot that exists (spec/40_tlb.md R141). -/
theorem wrapIndex_lt (b : Word) : wrapIndex b < tlbEntries := by
  have h : (b &&& 0xFF#32).toNat ≤ 255 := by
    rw [BitVec.toNat_and]
    exact Nat.and_le_right
  unfold wrapIndex
  dsimp only
  split <;> unfold tlbEntries at * <;> omega

/-- A slot is listed by a scan when it exists and its entry satisfies the predicate (spec/40_tlb.md R148). -/
theorem mem_slotsWhere {m : Memory} {p : Entry → Bool} {i : Nat} :
    i ∈ slotsWhere m p ↔ i < tlbEntries ∧ p (Memory.read m i) = true := by
  simp [slotsWhere]

/-- A scan lists the slots in rising order, each once. -/
theorem slotsWhere_rising (m : Memory) (p : Entry → Bool) : (slotsWhere m p).Pairwise (· < ·) :=
  List.Pairwise.filter _ List.pairwise_lt_range

end Sys2Proof.Machine
end

