-- ==== Sys2Proof/Laws/Ops.lean ====
section
/-! SUPPORT. For each shared operation what it can do, said once: where it gives a next state, and what that state's fields
and threads are. -/

namespace Sys2Proof.Machine

/-! ### Outcomes and admission -/

theorem andThen_next {o : Out} {f : State → Out} {s' : State} :
    andThen o f = .next s' ↔ ∃ m, o = .next m ∧ f m = .next s' := by
  cases o <;> simp [andThen]

@[simp] theorem answer_next {code : RespCode} {r : BitVec 64} {s s' : State} :
    answer code r s = .next s' ↔ s.respond code r = s' := by simp [answer]

@[simp] theorem stop_not_next {reason : FatalReason} {t : Tid} {e : BitVec 5} {c : BitVec 8} {s s' : State} :
    ¬stop reason t e c s = .next s' := by simp [stop]

/-- The conditions under which a command's rule runs (spec/30_encoding.md R122). -/
def Runs (c : Admission) (t : Tid) (s : State) : Prop :=
  s.fatal = none ∧ (s.thread t).tmode = .run ∧ (c.isCommit = true ∨ (s.thread t).missWait = false) ∧
    (c.suppressible = true → (s.thread t).latch = none) ∧ (c.privileged = true → s.mode t = .kernel)

/-- An admitted command runs its rule. -/
theorem whenAdmitted_of_runs {c : Admission} {t : Tid} {s : State} (h : Runs c t s) (run : State → Out) :
    whenAdmitted c t s run = run s := by
  obtain ⟨h1, h2, h3, h4, h5⟩ := h
  have h3' : ¬((s.thread t).missWait = true ∧ c.isCommit = false) := by
    rintro ⟨ha, hb⟩
    rcases h3 with h3 | h3 <;> simp_all
  have h4' : ¬(c.suppressible = true ∧ (s.thread t).latch.isSome = true) := by
    rintro ⟨ha, hb⟩
    simp [h4 ha] at hb
  have h5' : ¬(c.privileged = true ∧ s.mode t ≠ .kernel) := fun ⟨ha, hb⟩ => hb (h5 ha)
  unfold whenAdmitted
  rw [if_neg (by simp [h1]), if_neg (by simp [h2]), if_neg h3', if_neg h4', if_neg h5']

/-- What an admission can do: turn the command away with nothing else changed, register PRECISE/0x1B for a thread outside
KERNEL mode, or run the rule (spec/30_encoding.md R122). -/
theorem whenAdmitted_next {c : Admission} {t : Tid} {s s' : State} {run : State → Out}
    (h : whenAdmitted c t s run = .next s') :
    (∃ code, (code = .fatal ∨ code = .rejected ∨ code = .suppressed) ∧ s' = s.respond code 0) ∨
      (s' = (raise t .precise 0x1B none s).respond .faulted 0 ∧ c.privileged = true ∧ s.mode t ≠ .kernel ∧
        s.fatal = none ∧ (s.thread t).tmode = .run ∧ (c.isCommit = true ∨ (s.thread t).missWait = false)) ∨
      (Runs c t s ∧ run s = .next s') := by
  unfold whenAdmitted at h
  split at h
  · exact .inl ⟨.fatal, by simp, (answer_next.mp h).symm⟩
  next h1 =>
  split at h
  · exact .inl ⟨.rejected, by simp, (answer_next.mp h).symm⟩
  next h2 =>
  split at h
  · exact .inl ⟨.suppressed, by simp, (answer_next.mp h).symm⟩
  next h3 =>
  have h1' : s.fatal = none := by simpa using h1
  have h3' : c.isCommit = true ∨ (s.thread t).missWait = false := by
    cases hc : c.isCommit <;> cases hm : (s.thread t).missWait <;> simp_all
  split at h
  · exact .inl ⟨.suppressed, by simp, (answer_next.mp h).symm⟩
  next h4 =>
  split at h
  next h5 => exact .inr (.inl ⟨(answer_next.mp h).symm, h5.1, h5.2, h1', by simpa using h2, h3'⟩)
  next h5 =>
  refine .inr (.inr ⟨⟨h1', by simpa using h2, h3', fun hs => ?_, fun hp => ?_⟩, h⟩)
  · simpa [hs] using h4
  · simpa [hp] using h5

/-! ### Range evaluation -/

theorem namedSlot_none {d : Nat} {l : List Nat} : namedSlot d l = none ↔ l = [] := by
  match l with
  | [] => simp [namedSlot]
  | [_] => simp [namedSlot]
  | _ :: _ :: _ => simp [namedSlot]

/-- The slot a record names is one of the size-invalid ones (spec/20_memory.md R74). -/
theorem namedSlot_mem {d i : Nat} {l : List Nat} (h : namedSlot d l = some i) : i ∈ l := by
  match l, h with
  | [_], h => simpa [namedSlot, eq_comm] using h
  | a :: b :: rest, h =>
    have hl : Config.slotChoice d % (rest.length + 2) < (a :: b :: rest).length := Nat.mod_lt _ (by omega)
    simp only [namedSlot, Option.some.injEq] at h
    rw [← h, List.getD_eq_getElem _ _ hl]
    exact List.getElem_mem hl

/-- No slot satisfies `p` when a scan lists none. -/
theorem slotsWhere_eq_nil {m : Memory} {p : Entry → Bool} :
    slotsWhere m p = [] ↔ ∀ i, i < tlbEntries → p (Memory.read m i) = false := by
  simp [List.eq_nil_iff_forall_not_mem, mem_slotsWhere]

/-- With every size valid a range evaluation goes on (spec/20_memory.md R74). -/
theorem withValidSizes_of {t : Tid} {s : State} (h : ∀ i, i < tlbEntries → sizeInvalid (Memory.read s.tlb i) = false)
    (k : State → Out) : withValidSizes t s k = k s := by
  unfold withValidSizes
  rw [slotsWhere_eq_nil.mpr h]
  rfl

/-- A range evaluation goes on only with every size valid. -/
theorem withValidSizes_next {t : Tid} {s s' : State} {k : State → Out} (h : withValidSizes t s k = .next s') :
    (∀ i, i < tlbEntries → sizeInvalid (Memory.read s.tlb i) = false) ∧ k s = .next s' := by
  unfold withValidSizes at h
  split at h
  · exact absurd h stop_not_next
  next hn => exact ⟨slotsWhere_eq_nil.mp (namedSlot_none.mp hn), h⟩

/-- A valid size-invalid slot stops a range evaluation, and the record names such a slot. -/
theorem withValidSizes_stop {t : Tid} {s : State} (h : ∃ i, i < tlbEntries ∧ sizeInvalid (Memory.read s.tlb i) = true)
    (k : State → Out) :
    ∃ i, i < tlbEntries ∧ sizeInvalid (Memory.read s.tlb i) = true ∧
      withValidSizes t s k = stop (.sizeInvalidSlot i) t 0 0 { s with draws := s.draws + 1 } := by
  unfold withValidSizes
  cases hn : namedSlot s.draws (slotsWhere s.tlb sizeInvalid) with
  | none =>
    obtain ⟨i, hi, hv⟩ := h
    rw [slotsWhere_eq_nil.mp (namedSlot_none.mp hn) i hi] at hv
    cases hv
  | some i =>
    obtain ⟨hi, hv⟩ := mem_slotsWhere.mp (namedSlot_mem hn)
    exact ⟨i, hi, hv, rfl⟩

/-- A scan lists one slot when that slot alone satisfies `p`. -/
theorem slotsWhere_eq_singleton {m : Memory} {p : Entry → Bool} {i : Nat} (hi : i < tlbEntries)
    (h : ∀ j, j < tlbEntries → (p (Memory.read m j) = true ↔ j = i)) : slotsWhere m p = [i] := by
  have hm : ∀ j, j ∈ slotsWhere m p ↔ j = i := fun j => by
    rw [mem_slotsWhere]
    exact ⟨fun ⟨hj, hp⟩ => (h j hj).mp hp, fun hj => ⟨hj ▸ hi, (h j (hj ▸ hi)).mpr hj⟩⟩
  have hr := slotsWhere_rising m p
  match hl : slotsWhere m p with
  | [] => exact absurd ((hm i).mpr rfl) (by simp [hl])
  | [a] => rw [(hm a).mp (by simp [hl])]
  | a :: b :: rest =>
    have ha := (hm a).mp (by simp [hl])
    have hb := (hm b).mp (by simp [hl])
    rw [hl] at hr
    have := (List.pairwise_cons.mp hr).1 b (by simp)
    omega

/-- A scan lists two slots at least when two slots satisfy `p`. -/
theorem slotsWhere_two {m : Memory} {p : Entry → Bool} {i j : Nat} (hij : i < j) (hj : j < tlbEntries)
    (hpi : p (Memory.read m i) = true) (hpj : p (Memory.read m j) = true) :
    ∃ a b rest, slotsWhere m p = a :: b :: rest := by
  have hi : i ∈ slotsWhere m p := mem_slotsWhere.mpr ⟨hij.trans hj, hpi⟩
  have hj : j ∈ slotsWhere m p := mem_slotsWhere.mpr ⟨hj, hpj⟩
  match hl : slotsWhere m p with
  | [] => simp [hl] at hi
  | [a] =>
    simp only [hl, List.mem_singleton] at hi hj
    omega
  | a :: b :: rest => exact ⟨a, b, rest, rfl⟩

/-- The head of a scan is the lowest slot that satisfies `p` (spec/20_memory.md R81). -/
theorem slotsWhere_head {m : Memory} {p : Entry → Bool} {i : Nat} (hi : i < tlbEntries)
    (hp : p (Memory.read m i) = true) (hlow : ∀ j, j < i → p (Memory.read m j) = false) :
    ∃ rest, slotsWhere m p = i :: rest := by
  have hmem : i ∈ slotsWhere m p := mem_slotsWhere.mpr ⟨hi, hp⟩
  have hr := slotsWhere_rising m p
  match hl : slotsWhere m p with
  | [] => simp [hl] at hmem
  | a :: rest =>
    have ha : a ∈ slotsWhere m p := by simp [hl]
    have hpa := (mem_slotsWhere.mp ha).2
    rw [hl] at hr hmem
    rcases List.mem_cons.mp hmem with h | h
    · exact ⟨rest, by rw [h]⟩
    · have hlt := (List.pairwise_cons.mp hr).1 i h
      rw [hlow a hlt] at hpa
      cases hpa

/-! ### Registration -/

section
variable (t : Tid) (e : Event) (c : BitVec 8) (a : Addr) (s : State)

@[simp] theorem raise_tlb : (raise t e c a s).tlb = s.tlb := rfl
@[simp] theorem raise_syscfg : (raise t e c a s).syscfg = s.syscfg := rfl
@[simp] theorem raise_evb : (raise t e c a s).evb = s.evb := rfl
@[simp] theorem raise_cfgbase : (raise t e c a s).cfgbase = s.cfgbase := rfl
@[simp] theorem raise_rev : (raise t e c a s).rev = s.rev := rfl
@[simp] theorem raise_pcycle : (raise t e c a s).pcycle = s.pcycle := rfl
@[simp] theorem raise_fatal : (raise t e c a s).fatal = s.fatal := rfl
@[simp] theorem raise_cfg : (raise t e c a s).cfg = s.cfg := rfl
@[simp] theorem raise_port : (raise t e c a s).port = s.port := rfl
@[simp] theorem raise_inBundle : (raise t e c a s).inBundle = s.inBundle := rfl
@[simp] theorem raise_draws : (raise t e c a s).draws = s.draws := rfl

/-- A registration writes the latch of its thread and nothing else (spec/60_exceptions.md R243). -/
theorem raise_thread (u : Tid) :
    (raise t e c a s).thread u =
      if u = t then { s.thread u with latch := some (register (s.thread u).latch e c a) } else s.thread u :=
  State.modThread_thread s t u _

/-- What a registration can leave in the latch: the new event, the old one, or the old one with an address more
(spec/60_exceptions.md R243). -/
theorem register_cases (latch : Option Latch) :
    register latch e c a = newLatch e c a ∨
      ∃ l, latch = some l ∧ (register latch e c a = l ∨ (e = l.event ∧ c = l.cause ∧ register latch e c a = mergeAddr l a)) := by
  cases latch with
  | none => exact .inl rfl
  | some l =>
    unfold register
    dsimp only
    split
    · exact .inl rfl
    · split
      next h => exact .inr ⟨l, rfl, .inr ⟨h.1, h.2, rfl⟩⟩
      · exact .inr ⟨l, rfl, .inl rfl⟩

@[simp] theorem newLatch_event : (newLatch e c a).event = e := by unfold newLatch; split <;> rfl
@[simp] theorem newLatch_cause : (newLatch e c a).cause = c := by unfold newLatch; split <;> rfl
@[simp] theorem mergeAddr_event (l : Latch) : (mergeAddr l a).event = l.event := by
  unfold mergeAddr; split <;> (try split) <;> rfl
@[simp] theorem mergeAddr_cause (l : Latch) : (mergeAddr l a).cause = l.cause := by
  unfold mergeAddr; split <;> (try split) <;> rfl

end

/-! ### Locks -/

section
variable (l k : LockId) (v : LockState) (th : Thread)

@[simp] theorem setLockState_pc : (setLockState l v th).pc = th.pc := by cases l <;> rfl
@[simp] theorem setLockState_ssr : (setLockState l v th).ssr = th.ssr := by cases l <;> rfl
@[simp] theorem setLockState_elr : (setLockState l v th).elr = th.elr := by cases l <;> rfl
@[simp] theorem setLockState_tmode : (setLockState l v th).tmode = th.tmode := by cases l <;> rfl
@[simp] theorem setLockState_latch : (setLockState l v th).latch = th.latch := by cases l <;> rfl
@[simp] theorem setLockState_bundle : (setLockState l v th).bundle = th.bundle := by cases l <;> rfl
@[simp] theorem setLockState_missWait : (setLockState l v th).missWait = th.missWait := by cases l <;> rfl

/-- A lock state reads as written, the other lock's as before (spec/41_lock.md R180). -/
theorem lockState_set : lockState k (setLockState l v th) = if k = l then v else lockState k th := by
  cases l <;> cases k <;> rfl

@[simp] theorem lockState_set_self : lockState l (setLockState l v th) = v := by simp [lockState_set]

end

/-- What acquiring can do (spec/41_lock.md R181). -/
theorem acquire_cases (l : LockId) (t : Tid) (s : State) :
    (syscfgLock l s.syscfg = false ∧
      acquire l t s = ((s.setLockBit l true).modThread t (setLockState l .owner), true)) ∨
    (syscfgLock l s.syscfg = true ∧ lockState l (s.thread t) = .owner ∧ acquire l t s = (s, true)) ∨
    (syscfgLock l s.syscfg = true ∧ lockState l (s.thread t) ≠ .owner ∧
      acquire l t s = (s.modThread t (setLockState l .waiting), false)) := by
  unfold acquire
  cases h : syscfgLock l s.syscfg
  · simp
  · by_cases ho : lockState l (s.thread t) = .owner
    · simp [ho]
    · simp [ho]

/-- An acquire touches only threads, SYSCFG. -/
theorem acquire_frame (l : LockId) (t : Tid) (s : State) :
    { (acquire l t s).1 with threads := s.threads, syscfg := s.syscfg } = s := by
  rcases acquire_cases l t s with ⟨-, h⟩ | ⟨-, -, h⟩ | ⟨-, -, h⟩ <;> rw [h] <;> rfl

/-- The threads of the ring are those that exist, the releasing one apart (spec/41_lock.md R183). -/
theorem mem_afterThread {n : Nat} {t u : Tid} (hn : n ≤ 8) (ht : t.val < n) :
    u ∈ afterThread n t ↔ u.val < n ∧ u ≠ t := by
  unfold afterThread
  simp only [List.mem_map, List.mem_range]
  constructor
  · rintro ⟨k, hk, rfl⟩
    have hlt : (t.val + 1 + k) % n < n := Nat.mod_lt _ (by omega)
    have hv : (Fin.ofNat 8 ((t.val + 1 + k) % n)).val = (t.val + 1 + k) % n := by
      simp only [Fin.val_ofNat]
      omega
    refine ⟨by omega, fun he => ?_⟩
    have he' : (t.val + 1 + k) % n = t.val := by rw [← hv, he]
    rcases Nat.lt_or_ge (t.val + 1 + k) n with h | h
    · rw [Nat.mod_eq_of_lt h] at he'; omega
    · rw [Nat.mod_eq_sub_mod h, Nat.mod_eq_of_lt (by omega)] at he'; omega
  · rintro ⟨hu, hne⟩
    have hne' : u.val ≠ t.val := fun h => hne (Fin.ext h)
    refine ⟨if t.val < u.val then u.val - t.val - 1 else u.val + n - t.val - 1, by split <;> omega, ?_⟩
    apply Fin.ext
    simp only [Fin.val_ofNat]
    split
    · rw [show t.val + 1 + (u.val - t.val - 1) = u.val by omega, Nat.mod_eq_of_lt hu]; omega
    · rw [show t.val + 1 + (u.val + n - t.val - 1) = u.val + n by omega, Nat.add_mod_right, Nat.mod_eq_of_lt hu]; omega

theorem numThreads_le (p : Params) : p.numThreads ≤ 8 := p.lastTid.isLt

/-- The selected waiter exists, waits and is not the releasing thread. -/
theorem nextWaiter_some {l : LockId} {t w : Tid} {s : State} (ht : t.val < s.cfg.numThreads)
    (h : nextWaiter l t s = some w) :
    w.val < s.cfg.numThreads ∧ w ≠ t ∧ lockState l (s.thread w) = .waiting := by
  have hm := (mem_afterThread (numThreads_le s.cfg) ht).mp (List.mem_of_find?_eq_some h)
  exact ⟨hm.1, hm.2, by simpa using List.find?_some h⟩

/-- No waiter is selected when no other thread waits. -/
theorem nextWaiter_none {l : LockId} {t : Tid} {s : State} (ht : t.val < s.cfg.numThreads) :
    nextWaiter l t s = none ↔
      ∀ u : Tid, u.val < s.cfg.numThreads → u ≠ t → lockState l (s.thread u) ≠ .waiting := by
  unfold nextWaiter
  rw [List.find?_eq_none]
  constructor
  · intro h u hu hne
    simpa using h u ((mem_afterThread (numThreads_le s.cfg) ht).mpr ⟨hu, hne⟩)
  · intro h u hu
    obtain ⟨hu, hne⟩ := (mem_afterThread (numThreads_le s.cfg) ht).mp hu
    simpa using h u hu hne

/-- What releasing can do (spec/41_lock.md R182). -/
theorem release_cases (l : LockId) (t : Tid) (s : State) :
    (lockState l (s.thread t) ≠ .owner ∧ release l t s = s) ∨
    (lockState l (s.thread t) = .owner ∧
      nextWaiter l t ((s.setLockBit l false).modThread t (setLockState l .unlocked)) = none ∧
      release l t s = (s.setLockBit l false).modThread t (setLockState l .unlocked)) ∨
    (lockState l (s.thread t) = .owner ∧ ∃ w,
      nextWaiter l t ((s.setLockBit l false).modThread t (setLockState l .unlocked)) = some w ∧
      release l t s =
        ((((s.setLockBit l false).modThread t (setLockState l .unlocked)).modThread w (setLockState l .owner)).setLockBit l
          true)) := by
  unfold release
  by_cases ho : lockState l (s.thread t) = .owner
  · simp only [ho, ne_eq, not_true_eq_false, if_false, false_and, false_or, true_and]
    cases hn : nextWaiter l t ((s.setLockBit l false).modThread t (setLockState l .unlocked)) with
    | none => exact .inl ⟨rfl, by simp⟩
    | some w => exact .inr ⟨w, rfl, by simp⟩
  · exact .inl ⟨ho, by simp [ho]⟩

/-- A release touches only threads, SYSCFG. -/
theorem release_frame (l : LockId) (t : Tid) (s : State) :
    { release l t s with threads := s.threads, syscfg := s.syscfg } = s := by
  rcases release_cases l t s with ⟨-, h⟩ | ⟨-, -, h⟩ | ⟨-, w, -, h⟩ <;> rw [h] <;> rfl

section
variable (l : LockId) (t : Tid) (s : State)

@[simp] theorem release_tlb : (release l t s).tlb = s.tlb := (congrArg State.tlb (release_frame l t s) :)
@[simp] theorem release_evb : (release l t s).evb = s.evb := (congrArg State.evb (release_frame l t s) :)
@[simp] theorem release_cfgbase : (release l t s).cfgbase = s.cfgbase := (congrArg State.cfgbase (release_frame l t s) :)
@[simp] theorem release_rev : (release l t s).rev = s.rev := (congrArg State.rev (release_frame l t s) :)
@[simp] theorem release_pcycle : (release l t s).pcycle = s.pcycle := (congrArg State.pcycle (release_frame l t s) :)
@[simp] theorem release_fatal : (release l t s).fatal = s.fatal := (congrArg State.fatal (release_frame l t s) :)
@[simp] theorem release_cfg : (release l t s).cfg = s.cfg := (congrArg State.cfg (release_frame l t s) :)
@[simp] theorem release_port : (release l t s).port = s.port := (congrArg State.port (release_frame l t s) :)
@[simp] theorem release_inBundle : (release l t s).inBundle = s.inBundle := (congrArg State.inBundle (release_frame l t s) :)
@[simp] theorem release_resp : (release l t s).resp = s.resp := (congrArg State.resp (release_frame l t s) :)
@[simp] theorem release_sent : (release l t s).sent = s.sent := (congrArg State.sent (release_frame l t s) :)
@[simp] theorem release_draws : (release l t s).draws = s.draws := (congrArg State.draws (release_frame l t s) :)

end

/-! ### Taking an exception and returning from one -/

/-- A thread whose SSR.EX is 0 keeps its event; otherwise it becomes PRECISE/DOUBLE_EXCEPT (spec/60_exceptions.md R251). -/
theorem overrideDouble_cases (th : Thread) (l : Latch) :
    ((l.event = .reset ∨ ssrEx th.ssr = false) ∧ overrideDouble th l = (th, l)) ∨
    (l.event ≠ .reset ∧ ssrEx th.ssr = true ∧
      overrideDouble th l =
        ({ th with diag := l.cause.setWidth 32, latch := some { l with event := .precise, cause := 0x03 } },
          { l with event := .precise, cause := 0x03 })) := by
  unfold overrideDouble
  by_cases hr : l.event = .reset
  · simp [hr]
  · cases hx : ssrEx th.ssr
    · simp
    · simp [hr]

section
variable (th : Thread) (l : Latch)

@[simp] theorem recordBadva_pc : (recordBadva th l).pc = th.pc := by unfold recordBadva; split <;> rfl
@[simp] theorem recordBadva_elr : (recordBadva th l).elr = th.elr := by unfold recordBadva; split <;> rfl
@[simp] theorem recordBadva_diag : (recordBadva th l).diag = th.diag := by unfold recordBadva; split <;> rfl
@[simp] theorem recordBadva_tmode : (recordBadva th l).tmode = th.tmode := by unfold recordBadva; split <;> rfl
@[simp] theorem recordBadva_tlbls : (recordBadva th l).tlbls = th.tlbls := by unfold recordBadva; split <;> rfl
@[simp] theorem recordBadva_k0ls : (recordBadva th l).k0ls = th.k0ls := by unfold recordBadva; split <;> rfl
@[simp] theorem recordBadva_latch : (recordBadva th l).latch = th.latch := by unfold recordBadva; split <;> rfl
@[simp] theorem recordBadva_bundle : (recordBadva th l).bundle = th.bundle := by unfold recordBadva; split <;> rfl
@[simp] theorem recordBadva_missWait : (recordBadva th l).missWait = th.missWait := by unfold recordBadva; split <;> rfl

@[simp] theorem recordBadva_lockState (k : LockId) : lockState k (recordBadva th l) = lockState k th := by
  cases k <;> simp [lockState]

/-- BADVA0 after the addresses are recorded (spec/60_exceptions.md R255). -/
theorem recordBadva_badva0 : (recordBadva th l).badva0 = if l.vmask.getLsbD 0 then l.va0 else th.badva0 := by
  unfold recordBadva
  split
  next h => simp [h]
  · rfl

/-- BADVA1 after the addresses are recorded (spec/60_exceptions.md R255). -/
theorem recordBadva_badva1 : (recordBadva th l).badva1 = if l.vmask.getLsbD 1 then l.va1 else th.badva1 := by
  unfold recordBadva
  split
  next h => simp [h]
  · rfl

/-- A bit of SSR after the addresses are recorded: V0, V1 and BVS alone can change (spec/60_exceptions.md R255). -/
theorem recordBadva_ssr (j : Nat) :
    (recordBadva th l).ssr.getLsbD j =
      if l.vmask = 0 then th.ssr.getLsbD j
      else if j = 22 then l.vmask == 0b10 else if j = 21 then l.vmask.getLsbD 1 else if j = 20 then l.vmask.getLsbD 0
      else th.ssr.getLsbD j := by
  unfold recordBadva
  split
  · rfl
  · exact ssrSetBadva_getLsbD ..

@[simp] theorem recordBadva_ex : ssrEx (recordBadva th l).ssr = ssrEx th.ssr := by
  unfold recordBadva
  split
  · rfl
  · exact ssrEx_setBadva ..

/-- Recording the same addresses again changes nothing. -/
theorem recordBadva_idem : recordBadva (recordBadva th l) l = recordBadva th l := by
  unfold recordBadva
  split
  · rfl
  · cases h0 : l.vmask.getLsbD 0 <;> cases h1 : l.vmask.getLsbD 1 <;> simp [ssrSetBadva_idem]

end

/-- The thread that takes event `e` (spec/60_exceptions.md R250, R258, R263). -/
theorem takeEvent_thread_self (t : Tid) (e : Event) (c : BitVec 8) (n : Word) (s : State) :
    (takeEvent t e c n s).thread t =
      { enterThread s.evb e c (resumePc s.cfg.preciseNext e c (s.thread t).pc n) (s.thread t) with
        latch := none, missWait := false } := by
  unfold takeEvent
  simp only [State.modThread_thread_self]
  by_cases hi : e = .imprecise
  · subst hi
    simp [broadcastImprecise, broadcastTo, enter, shimSignal]
  · simp only [hi, if_false, enter, State.modThread_thread_self, shimSignal]
    split <;> rfl

/-- Every other thread is left alone, but by the broadcast of an IMPRECISE event (spec/60_exceptions.md R260). -/
theorem takeEvent_thread_ne {t u : Tid} (h : u ≠ t) (e : Event) (c : BitVec 8) (n : Word) (s : State) :
    (takeEvent t e c n s).thread u =
      if e = .imprecise then broadcastTo s.cfg.numThreads s.evb t c u (s.thread u) else s.thread u := by
  unfold takeEvent
  simp only [State.modThread_thread_ne _ h]
  by_cases hi : e = .imprecise
  · subst hi
    simp [broadcastImprecise, enter, shimSignal, State.modThread_thread_ne _ h]
  · simp only [hi, if_false, enter, State.modThread_thread_ne _ h, shimSignal]
    split <;> rfl

/-- Taking an event touches only threads, and sends the shim signal of a trap with cause 0 (spec/60_exceptions.md R256). -/
theorem takeEvent_frame (t : Tid) (e : Event) (c : BitVec 8) (n : Word) (s : State) :
    { takeEvent t e c n s with threads := s.threads, sent := s.sent } = s := by
  unfold takeEvent shimSignal
  dsimp only
  split <;> split <;> rfl

section
variable (t : Tid) (e : Event) (c : BitVec 8) (n : Word) (s : State)

@[simp] theorem takeEvent_tlb : (takeEvent t e c n s).tlb = s.tlb := (congrArg State.tlb (takeEvent_frame t e c n s) :)
@[simp] theorem takeEvent_syscfg : (takeEvent t e c n s).syscfg = s.syscfg := (congrArg State.syscfg (takeEvent_frame t e c n s) :)
@[simp] theorem takeEvent_evb : (takeEvent t e c n s).evb = s.evb := (congrArg State.evb (takeEvent_frame t e c n s) :)
@[simp] theorem takeEvent_cfgbase : (takeEvent t e c n s).cfgbase = s.cfgbase := (congrArg State.cfgbase (takeEvent_frame t e c n s) :)
@[simp] theorem takeEvent_rev : (takeEvent t e c n s).rev = s.rev := (congrArg State.rev (takeEvent_frame t e c n s) :)
@[simp] theorem takeEvent_pcycle : (takeEvent t e c n s).pcycle = s.pcycle := (congrArg State.pcycle (takeEvent_frame t e c n s) :)
@[simp] theorem takeEvent_fatal : (takeEvent t e c n s).fatal = s.fatal := (congrArg State.fatal (takeEvent_frame t e c n s) :)
@[simp] theorem takeEvent_cfg : (takeEvent t e c n s).cfg = s.cfg := (congrArg State.cfg (takeEvent_frame t e c n s) :)
@[simp] theorem takeEvent_port : (takeEvent t e c n s).port = s.port := (congrArg State.port (takeEvent_frame t e c n s) :)
@[simp] theorem takeEvent_inBundle : (takeEvent t e c n s).inBundle = s.inBundle := (congrArg State.inBundle (takeEvent_frame t e c n s) :)
@[simp] theorem takeEvent_resp : (takeEvent t e c n s).resp = s.resp := (congrArg State.resp (takeEvent_frame t e c n s) :)
@[simp] theorem takeEvent_draws : (takeEvent t e c n s).draws = s.draws := (congrArg State.draws (takeEvent_frame t e c n s) :)

end

/-- What taking an event sends (spec/60_exceptions.md R262). -/
theorem takeEvent_sent (t : Tid) (e : Event) (c : BitVec 8) (n : Word) (s : State) :
    (takeEvent t e c n s).sent =
      if (e = .trap0 ∨ e = .trap1) ∧ c = 0 then s.sent ++ [.shim t e 0 (s.thread t).ssr (s.thread t).pc] else s.sent := by
  unfold takeEvent shimSignal
  dsimp only
  split <;> split <;> rfl

/-- What the branch on the event can do: enter, enter as the owner of the TLB lock, or wait for it with the latch kept
(spec/60_exceptions.md R250, R253). -/
theorem branchEvent_next {t : Tid} {e : Event} {c : BitVec 8} {n : Word} {s s' : State}
    (h : branchEvent t e c n s = .next s') :
    admittedPair e c = true ∧
      ((isTlbMiss e = false ∧ s' = takeEvent t e c n s) ∨
        (isTlbMiss e = true ∧ (acquire .tlb t s).2 = true ∧ s' = takeEvent t e c n (acquire .tlb t s).1) ∨
        (isTlbMiss e = true ∧ (acquire .tlb t s).2 = false ∧
          s' = (acquire .tlb t s).1.modThread t (fun th => { th with missWait := true }))) := by
  unfold branchEvent at h
  split at h
  · exact absurd h stop_not_next
  next ha =>
  refine ⟨by simpa using ha, ?_⟩
  split at h
  next hm =>
    right
    rcases hq : acquire .tlb t s with ⟨s1, b⟩
    rw [hq] at h
    cases b
    · exact .inr ⟨hm, rfl, by simpa using h.symm⟩
    · exact .inl ⟨hm, rfl, by simpa using h.symm⟩
  next hm => exact .inl ⟨by simpa using hm, by simpa using h.symm⟩

/-- A dispatch branches on the latched event, after the double-exception override and the recording of its addresses
(spec/60_exceptions.md R250). -/
theorem dispatch_eq (t : Tid) (n : Word) (l : Latch) (s : State) :
    dispatch t n l s =
      branchEvent t (overrideDouble (s.thread t) l).2.event (overrideDouble (s.thread t) l).2.cause n
        (s.setThread t (recordBadva (overrideDouble (s.thread t) l).1 (overrideDouble (s.thread t) l).2)) := rfl

/-- A dispatch touches only threads, SYSCFG and what is sent. -/
theorem dispatch_frame {t : Tid} {n : Word} {l : Latch} {s m : State} (h : dispatch t n l s = .next m) :
    { m with threads := s.threads, syscfg := s.syscfg, sent := s.sent } = s := by
  rw [dispatch_eq] at h
  generalize overrideDouble (s.thread t) l = q at h
  have ha := acquire_frame .tlb t (s.setThread t (recordBadva q.1 q.2))
  obtain ⟨-, ⟨-, rfl⟩ | ⟨-, -, rfl⟩ | ⟨-, -, rfl⟩⟩ := branchEvent_next h
  · exact congrArg (fun x : State => { x with threads := s.threads, syscfg := s.syscfg })
      (takeEvent_frame t q.2.event q.2.cause n (s.setThread t (recordBadva q.1 q.2)))
  · exact (congrArg (fun x : State => { x with threads := s.threads, syscfg := s.syscfg, sent := s.sent })
      (takeEvent_frame t q.2.event q.2.cause n (acquire .tlb t (s.setThread t (recordBadva q.1 q.2))).1)).trans
      (congrArg (fun x : State => { x with threads := s.threads, sent := s.sent }) ha)
  · exact congrArg (fun x : State => { x with threads := s.threads, sent := s.sent }) ha

/-- The end of a COMMIT: the bundle is clear and the result is PC (spec/42_event_cmds.md R206). -/
theorem finishCommit_eq (t : Tid) (s : State) :
    finishCommit t s =
      .next ((s.modThread t (fun th => { th with bundle := .clear })).respond .ok
        ((s.thread t).pc.setWidth 64)) := by
  simp [finishCommit, answer]

/-! ### Resets and thread modes -/

/-- A thread after its reset (spec/70_reset_and_hazards.md R305). -/
@[simp] theorem threadReset_thread_self (t : Tid) (s : State) :
    (threadReset t s).thread t = resetThread s.cfg s.evb s.draws (s.thread t) := by
  unfold threadReset
  rw [State.send_thread, State.thread_draws, State.modThread_thread_self]

/-- The reset of a thread leaves every other thread alone. -/
theorem threadReset_thread_ne {t u : Tid} (h : u ≠ t) (s : State) : (threadReset t s).thread u = s.thread u := by
  unfold threadReset
  rw [State.send_thread, State.thread_draws, State.modThread_thread_ne _ h]

/-- A thread after core reset (spec/70_reset_and_hazards.md R301). -/
@[simp] theorem coreReset_thread (s : State) (u : Tid) :
    (coreReset s).thread u = coreResetThread s.cfg s.draws u (s.thread u) :=
  State.mapThreads_thread s (coreResetThread s.cfg s.draws) u

/-- A thread after a MODECTL write (spec/43_sreg.md R234). -/
@[simp] theorem modectlWrite_thread (t : Tid) (v : Word) (s : State) (u : Tid) :
    (modectlWrite t v s).thread u = modectlThread s.cfg s.evb s.draws t v u (s.thread u) :=
  State.mapThreads_thread s (modectlThread s.cfg s.evb s.draws t v) u

/-- A MODECTL write touches only threads, what is sent and the count of draws. -/
theorem modectlWrite_frame (t : Tid) (v : Word) (s : State) :
    { modectlWrite t v s with threads := s.threads, sent := s.sent, draws := s.draws } = s := rfl

end Sys2Proof.Machine
end

