-- ==== Sys2Proof/Laws/Exec.lean ====
section
/-! SUPPORT. What `exec` is for each command: its rule under its admission (spec/30_encoding.md R122 to R124). -/

namespace Sys2Proof.Machine

/-- An admitted command's rule runs: the admission of `Safety` is that of `Ops`. -/
theorem Admitted.runs {i : Instr} {s : State} (h : Admitted i s) :
    Runs ⟨i.privileged, i.suppressible, i.isCommit⟩ i.tid s := h

/-- An admitted command's rule runs, whatever way its admission and its thread are written. -/
theorem Admitted.run {i : Instr} {s : State} (h : Admitted i s) {c : Admission} {t : Tid} (run : State → Out)
    (hc : c = ⟨i.privileged, i.suppressible, i.isCommit⟩ := by rfl) (ht : t = i.tid := by rfl) :
    whenAdmitted c t s run = run s := by
  subst hc ht
  exact whenAdmitted_of_runs h.runs run

section
variable (t : Tid) (s : State)

theorem exec_tlbw (e : Entry) (b : Word) : exec (.tlbw t e b) s =
    whenAdmitted privilegedChange t s fun s => answer .ok 0 { s with tlb := Memory.write s.tlb (wrapIndex b) e } := rfl
theorem exec_tlbr (b : Word) : exec (.tlbr t b) s =
    whenAdmitted privilegedRead t s fun s => answer .ok (Memory.read s.tlb (wrapIndex b)) s := rfl
theorem exec_tlbp (va : Word) (asid : BitVec 8) : exec (.tlbp t va asid) s =
    whenAdmitted privilegedChange t s fun s => withValidSizes t s fun s =>
      answer .ok (probeResult (slotsWhere s.tlb (lookupMatch asid va)))
        (if 2 ≤ (slotsWhere s.tlb (lookupMatch asid va)).length then raise t .imprecise 0x44 none s else s) := rfl
theorem exec_tlboc (c : Entry) : exec (.tlboc t c) s =
    whenAdmitted privilegedRead t s fun s => overlapCheck t c s fun r s => answer .ok (sext64 r) s := rfl
theorem exec_ctlbw (e : Entry) (b : Word) : exec (.ctlbw t e b) s =
    whenAdmitted privilegedChange t s fun s => overlapCheck t e s fun r s =>
      answer .ok (sext64 r) (if r = -2 then { s with tlb := Memory.write s.tlb (wrapIndex b) e } else s) := rfl
theorem exec_xlate (m : Mode) (a : Acc) (va : Word) : exec (.xlate t m a va) s =
    whenAdmitted unprivileged t s fun s =>
      if syscfgMmuen s.syscfg = false then answer .ok (xlateOk (va.setWidth 36) allPerms 0) s
      else withValidSizes t s fun s => answer .ok (xlateResult t m a va s) s := rfl
theorem exec_lock (l : LockId) : exec (lockInstr l t) s = whenAdmitted privilegedChange t s (acquireCommand l t) := by
  cases l <;> rfl
theorem exec_unlock (l : LockId) : exec (unlockInstr l t) s =
    whenAdmitted privilegedChange t s fun s => answer .ok 0 (release l t s) := by
  cases l <;> rfl
theorem exec_raiseTlbmiss (a : Acc) (k : Slot) (va : Word) : exec (.raiseTlbmiss t a k va) s =
    whenAdmitted unprivileged t s fun s =>
      answer .ok 0 (raise t (missEvent a) (missCause (s.thread t).pc a va) (faultAddr a k va) s) := rfl
theorem exec_raisePrecise (a : Acc) (k : Slot) (c : BitVec 8) (va : Word) : exec (.raisePrecise t a k c va) s =
    whenAdmitted unprivileged t s fun s => answer .ok 0 (raise t .precise c (faultAddr a k va) s) := rfl
theorem exec_raiseTrap (n : TrapNumber) (imm : BitVec 8) : exec (.raiseTrap t n imm) s =
    whenAdmitted unprivileged t s fun s => answer .ok 0 (raise t (trapEvent n) imm none s) := rfl
theorem exec_raiseEvent (e : RaisedEvent) (c : BitVec 8) : exec (.raiseEvent t e c) s =
    whenAdmitted unprivileged t s fun s => answer .ok 0 (raise t (raisedEvent e) c none s) := rfl
theorem exec_raiseInt (n : Fin 16) : exec (.raiseInt t n) s = execRaiseInt t n s := rfl
theorem exec_rte : exec (.rte t) s =
    whenAdmitted privilegedChange t s fun s =>
      answer .ok 0 (s.modThread t (fun th => { th with bundle := { th.bundle with rte := true } })) := rfl
theorem exec_sregR (r : SReg) : exec (.sregR t r) s =
    whenAdmitted privilegedRead t s fun s =>
      answer .ok ((sregValue t r (if readsCycles r then advanceCycles s else s)).setWidth 64)
        (if readsCycles r then advanceCycles s else s) := rfl
theorem exec_sregW (r : SReg) (v : Word) : exec (.sregW t r v) s =
    whenAdmitted privilegedChange t s fun s => answer .ok 0 (sregWrite t r v s) := rfl
theorem exec_commit (c : Word) : exec (.commit t c) s =
    whenAdmitted bundleEnd t s fun s =>
      match (s.thread t).latch with
      | some l => andThen (dispatch t c l s) (finishCommit t)
      | none => finishCommit t (s.modThread t (endBundle c)) := rfl

/-- With every size valid, stored and candidate, the overlap check goes on with its value (spec/40_tlb.md R145). -/
theorem overlapCheck_of {c : Entry} (hs : SizesValid s.tlb) (hc : sizeInvalid c = false) (k : Int → State → Out) :
    overlapCheck t c s k = k (overlapValue (slotsWhere s.tlb (overlaps c))) s := by
  unfold overlapCheck
  rw [withValidSizes_of hs]
  simp [hc]

/-- The overlap check goes on only with every size valid. -/
theorem overlapCheck_next {c : Entry} {k : Int → State → Out} {s' : State} (h : overlapCheck t c s k = .next s') :
    SizesValid s.tlb ∧ sizeInvalid c = false ∧ k (overlapValue (slotsWhere s.tlb (overlaps c))) s = .next s' := by
  obtain ⟨hs, h⟩ := withValidSizes_next h
  split at h
  · exact absurd h stop_not_next
  next hc => exact ⟨hs, by simpa using hc, h⟩

end

/-- What COMMIT does to its state: without a latched event the bundle ends; with one it is dispatched. -/
theorem commit_next {t : Tid} {c : Word} {s s' : State} (h : exec (.commit t c) s = .next s') :
    (∃ code, (code = .fatal ∨ code = .rejected) ∧ s' = s.respond code 0) ∨
      ((s.thread t).latch = none ∧ finishCommit t (s.modThread t (endBundle c)) = .next s') ∨
      ∃ l m, (s.thread t).latch = some l ∧ dispatch t c l s = .next m ∧ finishCommit t m = .next s' := by
  rw [exec_commit] at h
  unfold whenAdmitted at h
  split at h
  · exact .inl ⟨.fatal, by simp, (answer_next.mp h).symm⟩
  split at h
  · exact .inl ⟨.rejected, by simp, (answer_next.mp h).symm⟩
  rw [if_neg (by simp [bundleEnd]), if_neg (by simp [bundleEnd]), if_neg (by simp [bundleEnd])] at h
  cases hl : (s.thread t).latch with
  | none =>
    dsimp only at h
    rw [hl] at h
    exact .inr (.inl ⟨rfl, h⟩)
  | some l =>
    dsimp only at h
    rw [hl] at h
    obtain ⟨m, hd, hf⟩ := andThen_next.mp h
    exact .inr (.inr ⟨l, m, rfl, hd, hf⟩)

end Sys2Proof.Machine
end

