-- ==== Sys2Proof/Laws/Effect.lean ====
section
/-! SUPPORT. What a command can do, said once: the state `exec` leaves, the response apart, is one of the cases of
`Effect`. -/

namespace Sys2Proof.Machine

/-- The state `m` that command `i` leaves from `s`, before the response is returned. -/
inductive Effect : Instr → State → State → Prop
  /-- The command is turned away, or reads only. -/
  | keep (i : Instr) (s : State) : Effect i s s
  /-- A privileged command outside KERNEL mode (spec/30_encoding.md R122 step 7). -/
  | faulted (i : Instr) (s : State) (hp : i.privileged = true) (hm : s.mode i.tid ≠ .kernel) (hf : s.fatal = none)
      (ht : (s.thread i.tid).tmode = .run) (hw : (s.thread i.tid).missWait = false) : Effect i s (raise i.tid .precise 0x1B none s)
  /-- TLBW, and CTLBW when nothing overlaps (spec/40_tlb.md R142, R146). -/
  | store (i : Instr) (s : State) (h : Admitted i s) (t : Tid) (e : Entry) (b : Word)
      (hi : i = .tlbw t e b ∨ (i = .ctlbw t e b ∧ SizesValid s.tlb ∧ sizeInvalid e = false ∧
        overlapValue (slotsWhere s.tlb (overlaps e)) = -2)) :
      Effect i s { s with tlb := Memory.write s.tlb (wrapIndex b) e }
  /-- TLBP with two matches (spec/40_tlb.md R144). -/
  | multiMatch (t : Tid) (va : Word) (asid : BitVec 8) (s : State) (h : Admitted (.tlbp t va asid) s) :
      Effect (.tlbp t va asid) s (raise t .imprecise 0x44 none s)
  /-- A lock command that advances (spec/41_lock.md R181). -/
  | acquired (l : LockId) (t : Tid) (s : State) (h : Admitted (lockInstr l t) s) (ha : (acquire l t s).2 = true) :
      Effect (lockInstr l t) s (acquire l t s).1
  /-- A lock command that asks for its bundle again (spec/41_lock.md R184, R187). -/
  | retried (l : LockId) (t : Tid) (s : State) (h : Admitted (lockInstr l t) s) (ha : (acquire l t s).2 = false) :
      Effect (lockInstr l t) s
        ((acquire l t s).1.modThread t (fun th => { th with bundle := { th.bundle with retry := true } }))
  /-- An unlock command (spec/41_lock.md R182). -/
  | released (l : LockId) (t : Tid) (s : State) (h : Admitted (unlockInstr l t) s) :
      Effect (unlockInstr l t) s (release l t s)
  /-- A TLB miss is registered (spec/42_event_cmds.md R200). -/
  | missed (t : Tid) (a : Acc) (k : Slot) (va : Word) (s : State) (h : Admitted (.raiseTlbmiss t a k va) s) :
      Effect (.raiseTlbmiss t a k va) s
        (raise t (missEvent a) (missCause (s.thread t).pc a va) (faultAddr a k va) s)
  /-- A precise fault, a trap, FPTRAP or DEBUG is registered (spec/42_event_cmds.md R201 to R203). -/
  | raised (i : Instr) (s : State) (h : Admitted i s) (hc : i.isCommit = false) (e : Event) (c : BitVec 8)
      (a : Addr) (he : e = .precise ∨ e = .trap0 ∨ e = .trap1 ∨ e = .fptrap ∨ e = .debug) : Effect i s (raise i.tid e c a s)
  /-- An accepted interrupt (spec/42_event_cmds.md R204). -/
  | interrupted (t : Tid) (n : Fin 16) (s : State) (hf : s.fatal = none) (ha : acceptsInt t s = true) :
      Effect (.raiseInt t n) s
        (enter t (.int n) (0xC0#8 + BitVec.ofNat 8 n.val) (s.thread t).pc
          (s.modThread t (fun th => { th with tmode := .run })))
  /-- RTE marks the bundle (spec/42_event_cmds.md R205). -/
  | returning (t : Tid) (s : State) (h : Admitted (.rte t) s) :
      Effect (.rte t) s (s.modThread t (fun th => { th with bundle := { th.bundle with rte := true } }))
  /-- A read of PCYCLE (spec/10_state.md R27). -/
  | cycles (t : Tid) (r : SReg) (s : State) (h : Admitted (.sregR t r) s) : Effect (.sregR t r) s (advanceCycles s)
  /-- SREG_W (spec/43_sreg.md R232). -/
  | written (t : Tid) (r : SReg) (v : Word) (s : State) (h : Admitted (.sregW t r v) s) :
      Effect (.sregW t r v) s (sregWrite t r v s)
  /-- COMMIT with an empty latch (spec/42_event_cmds.md R206). -/
  | ended (t : Tid) (c : Word) (s : State) (h : Admitted (.commit t c) s) (hl : (s.thread t).latch = none) :
      Effect (.commit t c) s
        ((s.modThread t (endBundle c)).modThread t (fun th => { th with bundle := .clear }))
  /-- COMMIT with a latched event (spec/60_exceptions.md R250). -/
  | dispatched (t : Tid) (c : Word) (s m : State) (l : Latch) (h : Admitted (.commit t c) s)
      (hl : (s.thread t).latch = some l) (hd : dispatch t c l s = .next m) :
      Effect (.commit t c) s
        (m.modThread t (fun th => { th with bundle := .clear }))

/-- No command touches the parameters, the items presented, or which thread is inside its bundle. -/
theorem Effect.frame {i : Instr} {s m : State} (h : Effect i s m) :
    m.cfg = s.cfg ∧ m.port = s.port ∧ m.inBundle = s.inBundle := by
  have acq : ∀ l t, (acquire l t s).1.cfg = s.cfg ∧ (acquire l t s).1.port = s.port ∧
      (acquire l t s).1.inBundle = s.inBundle := fun l t =>
    ⟨(congrArg State.cfg (acquire_frame l t s) :), (congrArg State.port (acquire_frame l t s) :),
      (congrArg State.inBundle (acquire_frame l t s) :)⟩
  cases h with
  | acquired l t s h ha => exact acq l t
  | retried l t s h ha => exact acq l t
  | written t r v s h => cases r <;> exact ⟨rfl, rfl, rfl⟩
  | dispatched t c s m l h hl hd =>
    have hf := dispatch_frame hd
    exact ⟨(congrArg State.cfg hf :), (congrArg State.port hf :), (congrArg State.inBundle hf :)⟩
  | released => simp
  | _ => exact ⟨rfl, rfl, rfl⟩

/-- The conclusion of `effect_of_exec` for one outcome. -/
def Leaves (i : Instr) (s s' : State) : Prop := ∃ m code r, Effect i s m ∧ s' = m.respond code r

/-- The admission either leaves one of the cases of `Effect`, or the rule runs. -/
theorem whenAdmitted_effect {i : Instr} {s s' : State} {c : Admission} {t : Tid} {run : State → Out}
    (h : whenAdmitted c t s run = .next s') (hc : c = ⟨i.privileged, i.suppressible, i.isCommit⟩) (ht : t = i.tid)
    (hn : i.privileged = true → i.isCommit = false) : Leaves i s s' ∨ (Admitted i s ∧ run s = .next s') := by
  subst hc ht
  rcases whenAdmitted_next h with ⟨code, -, rfl⟩ | ⟨rfl, hp, hm, hf, ht, hw⟩ | ⟨hr, h⟩
  · exact .inl ⟨s, code, 0, .keep i s, rfl⟩
  · exact .inl ⟨_, _, _, .faulted i s hp hm hf ht (by simpa [hn hp] using hw), rfl⟩
  · exact .inr ⟨hr, h⟩

/-- A command that gives a next state leaves one of the cases of `Effect`, with a response. -/
theorem effect_of_exec {i : Instr} {s s' : State} (h : exec i s = .next s') : Leaves i s s' := by
  have lock : ∀ (l : LockId) (t : Tid), exec (lockInstr l t) s = .next s' → Leaves (lockInstr l t) s s' := by
    intro l t h
    rw [exec_lock] at h
    rcases whenAdmitted_effect (i := lockInstr l t) h (by cases l <;> rfl) (by cases l <;> rfl)
      (by cases l <;> simp [lockInstr, Instr.isCommit]) with h | ⟨hr, h⟩
    · exact h
    unfold acquireCommand at h
    split at h
    next m hq =>
      have he := Effect.acquired l t s hr (by rw [hq])
      rw [hq] at he
      exact ⟨_, _, _, he, (answer_next.mp h).symm⟩
    next m hq =>
      have he := Effect.retried l t s hr (by rw [hq])
      rw [hq] at he
      exact ⟨_, _, _, he, (answer_next.mp h).symm⟩
  have unlock : ∀ (l : LockId) (t : Tid), exec (unlockInstr l t) s = .next s' → Leaves (unlockInstr l t) s s' := by
    intro l t h
    rw [exec_unlock] at h
    rcases whenAdmitted_effect (i := unlockInstr l t) h (by cases l <;> rfl) (by cases l <;> rfl)
      (by cases l <;> simp [unlockInstr, Instr.isCommit]) with h | ⟨hr, h⟩
    · exact h
    · exact ⟨_, _, _, .released l t s hr, (answer_next.mp h).symm⟩
  cases i with
  | tlbw t e b =>
    rw [exec_tlbw] at h
    rcases whenAdmitted_effect (i := .tlbw t e b) h rfl rfl (by simp [Instr.isCommit]) with h | ⟨hr, h⟩
    · exact h
    · exact ⟨_, _, _, .store _ s hr t e b (.inl rfl), (answer_next.mp h).symm⟩
  | tlbr t b =>
    rw [exec_tlbr] at h
    rcases whenAdmitted_effect (i := .tlbr t b) h rfl rfl (by simp [Instr.isCommit]) with h | ⟨hr, h⟩
    · exact h
    · exact ⟨_, _, _, .keep _ s, (answer_next.mp h).symm⟩
  | tlbp t va asid =>
    rw [exec_tlbp] at h
    rcases whenAdmitted_effect (i := .tlbp t va asid) h rfl rfl (by simp [Instr.isCommit]) with h | ⟨hr, h⟩
    · exact h
    obtain ⟨-, h⟩ := withValidSizes_next h
    have h := (answer_next.mp h).symm
    split at h
    · exact ⟨_, _, _, .multiMatch t va asid s hr, h⟩
    · exact ⟨_, _, _, .keep _ s, h⟩
  | tlboc t c =>
    rw [exec_tlboc] at h
    rcases whenAdmitted_effect (i := .tlboc t c) h rfl rfl (by simp [Instr.isCommit]) with h | ⟨hr, h⟩
    · exact h
    · exact ⟨_, _, _, .keep _ s, (answer_next.mp (overlapCheck_next _ _ h).2.2).symm⟩
  | ctlbw t e b =>
    rw [exec_ctlbw] at h
    rcases whenAdmitted_effect (i := .ctlbw t e b) h rfl rfl (by simp [Instr.isCommit]) with h | ⟨hr, h⟩
    · exact h
    obtain ⟨hs, hc, h⟩ := overlapCheck_next _ _ h
    have h := (answer_next.mp h).symm
    split at h
    next hv => exact ⟨_, _, _, .store _ s hr t e b (.inr ⟨rfl, hs, hc, hv⟩), h⟩
    · exact ⟨_, _, _, .keep _ s, h⟩
  | xlate t m a va =>
    rw [exec_xlate] at h
    rcases whenAdmitted_effect (i := .xlate t m a va) h rfl rfl (by simp [Instr.isCommit]) with h | ⟨hr, h⟩
    · exact h
    split at h
    · exact ⟨_, _, _, .keep _ s, (answer_next.mp h).symm⟩
    · exact ⟨_, _, _, .keep _ s, (answer_next.mp (withValidSizes_next h).2).symm⟩
  | tlblock t => exact lock .tlb t h
  | tlbunlock t => exact unlock .tlb t h
  | k0lock t => exact lock .k0 t h
  | k0unlock t => exact unlock .k0 t h
  | raiseTlbmiss t a k va =>
    rw [exec_raiseTlbmiss] at h
    rcases whenAdmitted_effect (i := .raiseTlbmiss t a k va) h rfl rfl (by simp [Instr.isCommit]) with h | ⟨hr, h⟩
    · exact h
    · exact ⟨_, _, _, .missed t a k va s hr, (answer_next.mp h).symm⟩
  | raisePrecise t a k c va =>
    rw [exec_raisePrecise] at h
    rcases whenAdmitted_effect (i := .raisePrecise t a k c va) h rfl rfl (by simp [Instr.isCommit]) with h | ⟨hr, h⟩
    · exact h
    · exact ⟨_, _, _, .raised _ s hr rfl .precise c _ (.inl rfl), (answer_next.mp h).symm⟩
  | raiseTrap t n imm =>
    rw [exec_raiseTrap] at h
    rcases whenAdmitted_effect (i := .raiseTrap t n imm) h rfl rfl (by simp [Instr.isCommit]) with h | ⟨hr, h⟩
    · exact h
    · exact ⟨_, _, _, .raised _ s hr rfl (trapEvent n) imm none (by cases n <;> simp [trapEvent]),
        (answer_next.mp h).symm⟩
  | raiseEvent t e c =>
    rw [exec_raiseEvent] at h
    rcases whenAdmitted_effect (i := .raiseEvent t e c) h rfl rfl (by simp [Instr.isCommit]) with h | ⟨hr, h⟩
    · exact h
    · exact ⟨_, _, _, .raised _ s hr rfl (raisedEvent e) c none (by cases e <;> simp [raisedEvent]),
        (answer_next.mp h).symm⟩
  | raiseInt t n =>
    rw [exec_raiseInt] at h
    unfold execRaiseInt at h
    split at h
    · exact ⟨_, _, _, .keep _ s, (answer_next.mp h).symm⟩
    next hf =>
    split at h
    next ha => exact ⟨_, _, _, .interrupted t n s (by simpa using hf) ha, (answer_next.mp h).symm⟩
    · exact ⟨_, _, _, .keep _ s, (answer_next.mp h).symm⟩
  | rte t =>
    rw [exec_rte] at h
    rcases whenAdmitted_effect (i := .rte t) h rfl rfl (by simp [Instr.isCommit]) with h | ⟨hr, h⟩
    · exact h
    · exact ⟨_, _, _, .returning t s hr, (answer_next.mp h).symm⟩
  | sregR t r =>
    rw [exec_sregR] at h
    rcases whenAdmitted_effect (i := .sregR t r) h rfl rfl (by simp [Instr.isCommit]) with h | ⟨hr, h⟩
    · exact h
    have h := (answer_next.mp h).symm
    split at h
    · exact ⟨_, _, _, .cycles t r s hr, h⟩
    · exact ⟨_, _, _, .keep _ s, h⟩
  | sregW t r v =>
    rw [exec_sregW] at h
    rcases whenAdmitted_effect (i := .sregW t r v) h rfl rfl (by simp [Instr.isCommit]) with h | ⟨hr, h⟩
    · exact h
    · exact ⟨_, _, _, .written t r v s hr, (answer_next.mp h).symm⟩
  | commit t c =>
    rw [exec_commit] at h
    rcases whenAdmitted_effect (i := .commit t c) h rfl rfl (by simp [Instr.privileged]) with h | ⟨hr, h⟩
    · exact h
    split at h
    next l hl =>
      obtain ⟨m, hd, hf⟩ := andThen_next.mp h
      rw [finishCommit_eq] at hf
      exact ⟨_, _, _, .dispatched t c s m l hr hl hd, (Host.Outcome.next.inj hf).symm⟩
    next hl =>
      rw [finishCommit_eq] at h
      exact ⟨_, _, _, .ended t c s hr hl, (Host.Outcome.next.inj h).symm⟩

end Sys2Proof.Machine
end

