-- ==== Sys2Proof/Laws/PerInstr.lean ====
section
/-! SUPPORT. A fact of every command as syntax: its word's fields read back as its encoding put them, with Z zero and TID
naming its thread (spec/30_encoding.md R111). One lemma a constructor. -/

namespace Sys2Proof.Laws.EncodedFields

/-- The fields of the encoded word are those of the command, Z is zero, and TID names the command's thread. -/
def Statement (i : Instr) : Prop :=
  Fields.ofWord (encode i).cmd = i.fields ∧ (Fields.ofWord (encode i).cmd).z = 0 ∧
    tidOfField (Fields.ofWord (encode i).cmd).tid = i.tid

/-- The shared reason: a word put together from fields has those fields. -/
theorem of_fields {i : Instr} (hz : i.fields.z = 0) (ht : i.fields.tid = BitVec.ofNat 3 i.tid.val) : Statement i := by
  have h : Fields.ofWord (encode i).cmd = i.fields := Fields.ofWord_toWord i.fields
  exact ⟨h, by rw [h, hz], by rw [h, ht, tidOfField_ofNat]⟩

theorem tlbw (t : Tid) (entry : Entry) (index : Word) : Statement (.tlbw t entry index) := of_fields rfl rfl
theorem tlbr (t : Tid) (index : Word) : Statement (.tlbr t index) := of_fields rfl rfl
theorem tlbp (t : Tid) (va : Word) (asid : BitVec 8) : Statement (.tlbp t va asid) := of_fields rfl rfl
theorem tlboc (t : Tid) (candidate : Entry) : Statement (.tlboc t candidate) := of_fields rfl rfl
theorem ctlbw (t : Tid) (entry : Entry) (index : Word) : Statement (.ctlbw t entry index) := of_fields rfl rfl
theorem xlate (t : Tid) (priv : Mode) (acc : Acc) (va : Word) : Statement (.xlate t priv acc va) := of_fields rfl rfl
theorem tlblock (t : Tid) : Statement (.tlblock t) := of_fields rfl rfl
theorem tlbunlock (t : Tid) : Statement (.tlbunlock t) := of_fields rfl rfl
theorem k0lock (t : Tid) : Statement (.k0lock t) := of_fields rfl rfl
theorem k0unlock (t : Tid) : Statement (.k0unlock t) := of_fields rfl rfl
theorem raiseTlbmiss (t : Tid) (acc : Acc) (slot : Slot) (va : Word) : Statement (.raiseTlbmiss t acc slot va) := of_fields rfl rfl
theorem raisePrecise (t : Tid) (acc : Acc) (slot : Slot) (cause : BitVec 8) (va : Word) : Statement (.raisePrecise t acc slot cause va) := of_fields rfl rfl
theorem raiseTrap (t : Tid) (trap : TrapNumber) (imm : BitVec 8) : Statement (.raiseTrap t trap imm) := of_fields rfl rfl
theorem raiseEvent (t : Tid) (event : RaisedEvent) (cause : BitVec 8) : Statement (.raiseEvent t event cause) := of_fields rfl rfl
theorem raiseInt (t : Tid) (n : Fin 16) : Statement (.raiseInt t n) := of_fields rfl rfl
theorem rte (t : Tid) : Statement (.rte t) := of_fields rfl rfl
theorem sregR (t : Tid) (reg : SReg) : Statement (.sregR t reg) := of_fields rfl rfl
theorem sregW (t : Tid) (reg : SReg) (value : Word) : Statement (.sregW t reg value) := of_fields rfl rfl
theorem commit (t : Tid) (nextPc : Word) : Statement (.commit t nextPc) := of_fields rfl rfl

end Sys2Proof.Laws.EncodedFields
end

