-- ==== Sys2Proof/Laws/Step.lean ====
section
/-! SUPPORT. What a step can do, said once. -/

namespace Sys2Proof.Machine

/-- A step that gives a next state has taken the first item off the port and served it. -/
theorem step_next {s s' : State} (h : step s = .next s') :
    ∃ x rest, s.port = x :: rest ∧
      serve x { s with port := rest, inBundle := bundleAfter s.cfg.numThreads s.inBundle x } = .next s' := by
  unfold step at h
  split at h
  · cases h
  next x rest hp => exact ⟨x, rest, hp, h⟩

/-- What serving an item can do: run a command, turn a malformed word away, reset, or transfer an image. -/
theorem serve_next {x : Input} {s s' : State} (h : serve x s = .next s') :
    (∃ k i, x = .command k ∧ decode s.cfg.numThreads k = .ok i ∧ exec i s = .next s') ∨
    (∃ k e code, x = .command k ∧ decode s.cfg.numThreads k = .error e ∧ s' = s.respond code 0) ∨
    (x = .rstCore ∧ s' = { coreReset s with resp := none }) ∨
    (∃ t, x = .rstThread t ∧ t.val < s.cfg.numThreads ∧
      ((s.fatal ≠ none ∧ s' = { s with resp := none }) ∨
        (s.fatal = none ∧ s' = { threadReset t s with resp := none }))) ∨
    (x = .imageRead ∧ quiescent s = true ∧
      s' = { s with resp := none, sent := s.sent ++ [.image (tlbImage s.tlb) (regImage s)] }) ∨
    ∃ tlb regs, x = .imageWrite tlb regs ∧ serveImageWrite tlb regs s = .next s' := by
  cases x with
  | command k =>
    unfold serve serveCommand at h
    dsimp only at h
    split at h
    next e hd =>
      right; left
      unfold answerMalformed at h
      split at h
      · exact ⟨k, e, _, rfl, hd, (answer_next.mp h).symm⟩
      · exact ⟨k, e, _, rfl, hd, (answer_next.mp h).symm⟩
    next i hd => exact .inl ⟨k, i, rfl, hd, h⟩
  | rstCore => exact .inr (.inr (.inl ⟨rfl, (Host.Outcome.next.inj h).symm⟩))
  | rstThread t =>
    unfold serve serveRstThread at h
    dsimp only at h
    split at h
    · cases h
    next ht =>
    refine .inr (.inr (.inr (.inl ⟨t, rfl, Nat.lt_of_not_le ht, ?_⟩)))
    split at h
    next hf => exact .inl ⟨by simpa [Option.isSome_iff_ne_none] using hf, (Host.Outcome.next.inj h).symm⟩
    next hf => exact .inr ⟨by simpa using hf, (Host.Outcome.next.inj h).symm⟩
  | imageRead =>
    unfold serve serveImageRead at h
    dsimp only at h
    split at h
    next hq => exact .inr (.inr (.inr (.inr (.inl ⟨rfl, hq, (Host.Outcome.next.inj h).symm⟩))))
    · cases h
  | imageWrite b g => exact .inr (.inr (.inr (.inr (.inr ⟨b, g, rfl, h⟩))))

/-- Serving an item leaves the parameters, the items left to serve and the
thread inside its bundle as they are. -/
theorem serve_frame {x : Input} {s s' : State} (h : serve x s = .next s') :
    s'.cfg = s.cfg ∧ s'.port = s.port ∧ s'.inBundle = s.inBundle := by
  rcases serve_next h with ⟨k, i, -, -, h⟩ | ⟨k, e, code, -, -, rfl⟩ | ⟨-, rfl⟩ | ⟨t, -, -, ⟨-, rfl⟩ | ⟨-, rfl⟩⟩ | ⟨-, -, rfl⟩ |
    ⟨b, g, -, h⟩
  · obtain ⟨m, code, r, hm, rfl⟩ := effect_of_exec h
    exact hm.frame
  all_goals try exact ⟨rfl, rfl, rfl⟩
  unfold serveImageWrite at h
  split at h
  · cases h
  split at h
  · cases h
  · rw [← Host.Outcome.next.inj h]
    exact ⟨rfl, rfl, rfl⟩

end Sys2Proof.Machine
end

