-- ==== Sys2Proof/Tests/Slice0.lean ====
section
/-! SUPPORT. Tests of the model against spec/95_test_vectors.md and the examples in the command rules, the smoke tests of
WellFormed, and for every statement that has hypotheses a witness that meets them. -/

namespace Sys2Proof.Tests

open Sys2Proof.Machine

/-! ### Small states -/

/-- The next state of an outcome, if it is one. -/
def nextOf : Out → Option State
  | .next s => some s
  | .fault _ => none
  | .refused _ => none

theorem next_of_isSome {o : Out} (h : (nextOf o).isSome = true) : ∃ s', o = .next s' := by
  cases o with
  | next s => exact ⟨s, rfl⟩
  | fault _ => cases h
  | refused _ => cases h

/-- The response code and result of a next state, or those of the block a fault stopped. -/
def respOf : Out → Option Response
  | .next s => s.resp
  | .fault (.fatalStop s) => s.resp
  | .refused _ => none

/-- The fatal record an outcome leaves. -/
def recordOf : Out → Option FatalInfo
  | .next s => s.fatal
  | .fault (.fatalStop s) => s.fatal
  | .refused _ => none

/-- A thread of the next state, seen through `f`. -/
def see {α : Type} (o : Out) (t : Tid) (f : Thread → α) : Option α := (nextOf o).map (fun s => f (s.thread t))

/-- `S0` of spec/95_test_vectors.md with a thread changed. -/
def thread (t : Tid) (f : Thread → Thread) (s : State) : State := s.modThread t f

/-- `S0` with thread 0 outside a handler: T0.SSR = `ssr`, T0.PC = 0x2000. -/
def s0 (ssr : Word) : State := thread 0 (fun th => { th with ssr := ssr, pc := 0x2000 }) State.reset

/-- The running example entry of spec/40_tlb.md and a second entry for the same range. -/
def e5 : Entry := 0x80300001F000000B
def e9 : Entry := 0x80300001F0000013

/-- `s0` with the store given. -/
def stored (ssr : Word) (m : Memory) : State := { s0 ssr with tlb := m }

/-- `stored` with translation enabled. -/
def mapped (ssr : Word) (m : Memory) : State := { stored ssr m with syscfg := 1 }

/-- `s0` with a latched event of thread 0, EVB as in L2.11. -/
def latched (ssr : Word) (l : Latch) : State :=
  { thread 0 (fun th => { th with latch := some l }) (s0 ssr) with evb := 0x00010000 }

/-- Four running kernel threads with the given TLB-lock states and SYSCFG. -/
def locked (cfg : Word) (a b c d : LockState) : State :=
  let th (l : LockState) : Thread := { Thread.atReset State.reset.cfg .run with ssr := 0, tlbls := l }
  { State.reset with
    syscfg := cfg
    threads := #v[th a, th b, th c, th d, Thread.atReset State.reset.cfg .off, Thread.atReset State.reset.cfg .off,
      Thread.atReset State.reset.cfg .off, Thread.atReset State.reset.cfg .off] }

/-- A stopped block. -/
def stoppedBlock (port : List Input) : State :=
  { State.reset with fatal := some ⟨.unknownEvent, 0, 2, 0x77, 0, 0, 0⟩, port := port }

/-! ### WellFormed -/

theorem test_wf_refuses_absent_thread : (Instr.commit 4 0).wf 4 = false ∧ (Instr.commit 3 0).wf 4 = true := by decide
theorem test_wf_refuses_fetch_in_slot1 :
    (Instr.raisePrecise 0 .fetch .slot1 0x11 0).wf 4 = false ∧ (Instr.raisePrecise 0 .fetch .slot0 0x11 0).wf 4 = true ∧
      (Instr.raisePrecise 0 .load .slot1 0x22 0).wf 4 = true := by decide

/-! ### Decoding: words written out by the format of R111 (spec/95_test_vectors.md L2.1) -/

theorem test_decode_tlb_store :
    decode 4 ⟨0b00001_000_00_00_0_000_00000000_00000000, e5, 0x1C5, 9⟩ = .ok (.tlbw 0 e5 0x1C5) ∧
    decode 4 ⟨0b00010_000_00_00_0_000_00000000_00000000, 1, 5, 9⟩ = .ok (.tlbr 0 5) ∧
    decode 4 ⟨0b00011_000_00_00_0_000_00000000_00000000, 0xFFFFFFFF00001800, 0x103, 0⟩ = .ok (.tlbp 0 0x1800 3) ∧
    decode 4 ⟨0b00100_000_00_00_0_000_00000000_00000000, e5, 7, 0⟩ = .ok (.tlboc 0 e5) ∧
    decode 4 ⟨0b00101_001_00_00_0_000_00000000_00000000, e5, 7, 0⟩ = .ok (.ctlbw 1 e5 7) ∧
    decode 4 ⟨0b00110_000_10_01_0_000_00000000_00000000, 0x1800, 0, 0⟩ = .ok (.xlate 0 .kernel .load 0x1800) ∧
    decode 4 ⟨0x30200000, 0x1800, 0, 0⟩ = .ok (.xlate 0 .user .store 0x1800) := by decide
theorem test_decode_locks :
    decode 4 ⟨0b00111_010_00_00_0_000_00000000_00000000, 0, 0, 0⟩ = .ok (.tlblock 2) ∧
    decode 4 ⟨0b01000_000_00_00_0_000_00000000_00000000, 0, 0, 0⟩ = .ok (.tlbunlock 0) ∧
    decode 4 ⟨0b01001_000_00_00_0_000_00000000_00000000, 0, 0, 0⟩ = .ok (.k0lock 0) ∧
    decode 4 ⟨0b01010_011_00_00_0_000_00000000_00000000, 0, 0, 0⟩ = .ok (.k0unlock 3) := by decide
theorem test_decode_events :
    decode 4 ⟨0b01011_000_00_01_1_000_00000000_00000000, 0x3004, 0, 0⟩ = .ok (.raiseTlbmiss 0 .load .slot1 0x3004) ∧
    decode 4 ⟨0b01100_000_00_10_0_000_00100011_00000000, 0x8000, 0, 0⟩ = .ok (.raisePrecise 0 .store .slot0 0x23 0x8000) ∧
    decode 4 ⟨0b01101_000_00_00_0_000_01111111_00000001, 0, 0, 0⟩ = .ok (.raiseTrap 0 .trap1 0x7F) ∧
    decode 4 ⟨0b01110_000_00_00_0_000_10111111_00001011, 0, 0, 0⟩ = .ok (.raiseEvent 0 .fptrap 0xBF) ∧
    decode 4 ⟨0x7000800C, 0, 0, 0⟩ = .ok (.raiseEvent 0 .debug 0x80) ∧
    decode 4 ⟨0b01111_001_00_00_0_000_00000000_00000010, 0, 0, 0⟩ = .ok (.raiseInt 1 2) := by decide
theorem test_decode_return_and_end :
    decode 4 ⟨0b10000_000_00_00_0_000_00000000_00000000, 0, 0, 0⟩ = .ok (.rte 0) ∧
    decode 8 ⟨0b10011_111_00_00_0_000_00000000_00000000, 0, 0, 0x1004⟩ = .ok (.commit 7 0x1004) ∧
    decode 4 ⟨0x9F000000, 0, 0, 0x1004⟩ = .error .noSuchThread := by decide
theorem test_decode_sregs :
    decode 4 ⟨0b10001_000_00_00_0_000_00000000_00010010, 0, 0, 0⟩ = .ok (.sregR 0 .modectl) ∧
    decode 4 ⟨0b10010_011_00_00_0_000_00000000_00010001, 0x11, 0, 0⟩ = .ok (.sregW 3 .syscfg 0x11) := by decide

/-- The malformed words of L2.1, each refused by name. -/
theorem test_decode_malformed :
    [0x00000000, 0xA0000000, 0xF8000000, 0x08010000, 0x0C000000, 0x08400000, 0x10000100, 0x18000001, 0x20080000].map
      (fun w => decode 4 ⟨w, 0, 0, 0⟩) =
      [.error .reservedOp, .error .reservedOp, .error .reservedOp, .error .zNotZero, .error .noSuchThread,
        .error .unusedFieldNotZero, .error .unusedFieldNotZero, .error .unusedFieldNotZero, .error .unusedFieldNotZero] ∧
    [0x30D00000, 0x30B00000, 0x30980000, 0x58300000, 0x58100500, 0x60081100, 0x60002201, 0x68000002, 0x68100000].map
      (fun w => decode 4 ⟨w, 0, 0, 0⟩) =
      [.error .badPriv, .error .badAcc, .error .unusedFieldNotZero, .error .badAcc, .error .unusedFieldNotZero,
        .error .badSlot, .error .unusedFieldNotZero, .error .badSub, .error .unusedFieldNotZero] ∧
    [0x7000BF0A, 0x70002202, 0x78000010, 0x78000101, 0x88000006, 0x90000017, 0x9000000F, 0x80200000, 0x9800FF00].map
      (fun w => decode 4 ⟨w, 0, 0, 0⟩) =
      [.error .badSub, .error .badSub, .error .badSub, .error .unusedFieldNotZero, .error .badSub, .error .badSub,
        .error .badSub, .error .unusedFieldNotZero, .error .unusedFieldNotZero] := by decide

/-! ### The commands, from their rules' examples -/

/-- R142, R143: index 0x1C5 wraps to slot 5, and 0x105 reads it back. -/
theorem test_tlbw : (nextOf (exec (.tlbw 0 e5 0x1C5) (s0 0))).map (·.tlb) = some [(5, e5)] := by decide
theorem test_tlbr : respOf (exec (.tlbr 0 0x105) (stored 0 [(5, e5)])) = some ⟨.ok, e5⟩ := by decide
/-- R144, L1.8. -/
theorem test_tlbp : respOf (exec (.tlbp 0 0x1800 3) (stored 0 [(5, e5)])) = some ⟨.ok, 5⟩ ∧
    respOf (exec (.tlbp 0 0x1800 4) (stored 0 [(5, e5)])) = some ⟨.ok, 0x80000000⟩ := by decide +kernel
theorem test_tlbp_multi_match :
    see (exec (.tlbp 0 0x1800 3) (stored 0 [(5, e5), (9, e9)])) 0 (·.latch) = some (some ⟨.imprecise, 0x44, 0, 0, 0⟩) := by
  decide +kernel
/-- R145, L1.2. -/
theorem test_tlboc : respOf (exec (.tlboc 0 0x80300003F0000013) (stored 0 [(5, e5)])) = some ⟨.ok, 0xFFFFFFFFFFFFFFFE⟩ ∧
    respOf (exec (.tlboc 0 0x80300000F0000084) (stored 0 [(5, e5)])) = some ⟨.ok, 5⟩ ∧
    respOf (exec (.tlboc 0 0x80300000F0000022) (stored 0 [(5, e5), (9, e9)])) = some ⟨.ok, 0xFFFFFFFFFFFFFFFF⟩ := by
  decide +kernel
/-- R146. -/
theorem test_ctlbw :
    (nextOf (exec (.ctlbw 0 0x80400001F000000B 6) (stored 0 [(5, e5)]))).map (·.tlb) =
      some [(5, e5), (6, 0x80400001F000000B)] := by decide +kernel
theorem test_ctlbw_refused :
    (nextOf (exec (.ctlbw 0 e5 5) (stored 0 [(5, e5)]))).map (fun s => (s.tlb, s.resp)) =
      some ([(5, e5)], some ⟨.ok, 5⟩) := by decide +kernel
/-- R147, L1.1 with the 1 GiB class: the last byte hits, page_end misses. -/
theorem test_xlate :
    respOf (exec (.xlate 0 .kernel .load 0x7FFFFFFF) (mapped 0x300 [(0, 0x80340000F0180200)])) =
      some ⟨.ok, 0x00000790FFFFFFFF⟩ ∧
    respOf (exec (.xlate 0 .kernel .load 0x80000000) (mapped 0x300 [(0, 0x80340000F0180200)])) =
      some ⟨.ok, 0x8070060000000000⟩ := by decide +kernel
/-- R83: a USER store to a page without U faults with the U cause. -/
theorem test_xlate_user : respOf (exec (.xlate 0 .user .store 0x1800) (mapped 0x300 [(5, 0x80300001E000000B)])) =
    some ⟨.ok, 0x8025020000000000⟩ := by decide +kernel
/-- R184, R185, L1.4 and L1.6. -/
theorem test_tlblock : (nextOf (exec (.tlblock 0) (s0 0))).map (fun s => (s.syscfg, (s.thread 0).tlbls, s.resp)) =
    some (0x800, .owner, some ⟨.ok, 1⟩) := by decide
theorem test_tlblock_waits :
    (nextOf (exec (.tlblock 1) (locked 0x800 .owner .unlocked .unlocked .unlocked))).map
      (fun s => ((s.thread 1).tlbls, (s.thread 1).bundle.retry, s.resp)) = some (.waiting, true, some ⟨.ok, 0⟩) := by decide
theorem test_tlbunlock :
    (nextOf (exec (.tlbunlock 2) (locked 0x800 .waiting .unlocked .owner .waiting))).map
      (fun s => (s.syscfg, (s.thread 0).tlbls, (s.thread 2).tlbls, (s.thread 3).tlbls)) =
      some (0x800, .waiting, .unlocked, .owner) := by decide
/-- R187, R188: the k0 lock has its own bit. -/
theorem test_k0lock : (nextOf (exec (.k0lock 0) (locked 0x800 .owner .unlocked .unlocked .unlocked))).map
    (fun s => (s.syscfg, (s.thread 0).k0ls, (s.thread 0).tlbls)) = some (0x1800, .owner, .owner) := by decide
theorem test_k0unlock : (nextOf (exec (.k0unlock 0) (locked 0x800 .owner .unlocked .unlocked .unlocked))).map
    (fun s => (s.syscfg, s.resp)) = some (0x800, some ⟨.ok, 0⟩) := by decide
/-- R200 to R203, their examples. -/
theorem test_raise_tlbmiss : see (exec (.raiseTlbmiss 0 .load .slot1 0x3004) (s0 0)) 0 (·.latch) =
    some (some ⟨.tlbMissRw, 0x70, 0, 0x3004, 0b10⟩) := by decide
theorem test_raise_tlbmiss_fetch : see (exec (.raiseTlbmiss 0 .fetch .slot1 0x2FFF) (s0 0)) 0 (·.latch) =
    some (some ⟨.tlbMissX, 0x60, 0, 0, 0b00⟩) := by decide
theorem test_raise_precise : see (exec (.raisePrecise 0 .store .slot0 0x23 0x8000) (s0 0)) 0 (·.latch) =
    some (some ⟨.precise, 0x23, 0x8000, 0, 0b01⟩) := by decide
theorem test_raise_trap : see (exec (.raiseTrap 0 .trap0 0) (s0 0)) 0 (·.latch) = some (some ⟨.trap0, 0, 0, 0, 0⟩) := by
  decide
theorem test_raise_event : see (exec (.raiseEvent 0 .debug 0x80) (s0 0)) 0 (·.latch) =
    some (some ⟨.debug, 0x80, 0, 0, 0⟩) := by decide
/-- R243, L2.10 row 4: the same event from the other slot is merged. -/
theorem test_raise_merges : see (exec (.raisePrecise 0 .load .slot1 0x22 0x8000) (latched 0 ⟨.precise, 0x22, 0x7000, 0, 1⟩)) 0
    (·.latch) = some (some ⟨.precise, 0x22, 0x7000, 0x8000, 0b11⟩) := by decide
/-- R204, its example: thread 1 in Wait. -/
def waiting1 : State :=
  { thread 1 (fun th => { th with tmode := .wait, ssr := 0x00040000, pc := 0x2000 }) State.reset with syscfg := 0x10 }
theorem test_raise_int : see (exec (.raiseInt 1 2) waiting1) 1 (fun th => (th.elr, th.ssr, th.pc, th.tmode)) =
    some (0x2000, 0x000600C2, 0x48, .run) := by decide
theorem test_raise_int_rejected : respOf (exec (.raiseInt 0 2) waiting1) = some ⟨.rejected, 0⟩ := by decide
/-- R205 and R206, the example of R205: RTE marks the bundle, and COMMIT applies it. -/
theorem test_rte : see (exec (.rte 0) (s0 0x00020044)) 0 (·.bundle) = some ⟨false, true, none⟩ := by decide
theorem test_rte_return :
    see (exec (.commit 0 0x4004) (thread 0 (fun th => { th with elr := 0x1230, bundle := ⟨false, true, none⟩ }) (s0 0x00020044))) 0
      (fun th => (th.ssr, th.pc)) = some (0x00000044, 0x1230) := by decide
/-- R231, its example, and R234's. -/
theorem test_sreg_r : respOf (exec (.sregR 0 .badva) (thread 0 (fun th => { th with badva1 := 0x3004 }) (s0 0x00400000))) =
    some ⟨.ok, 0x3004⟩ := by decide
theorem test_modectl : (nextOf (exec (.sregW 0 .modectl 0x00040007) (s0 0))).map modectlRead = some 0x00040007 := by
  decide +kernel
/-- R232, its example: the lock bit is kept. -/
theorem test_sreg_w : (nextOf (exec (.sregW 0 .syscfg 0x11) { s0 0 with syscfg := 0x800 })).map (·.syscfg) = some 0x811 := by
  decide
/-- R206, and L2.11 row 3: a slot 1 fault sets V1 and BVS. -/
theorem test_commit : respOf (exec (.commit 0 0x1004) (s0 0)) = some ⟨.ok, 0x1004⟩ ∧
    see (exec (.commit 0 0x2004) (latched 0x300 ⟨.precise, 0x25, 0, 0x8000, 0b10⟩)) 0
      (fun th => (th.elr, th.ssr, th.pc, th.badva0, th.badva1)) = some (0x2000, 0x00620325, 0x10008, 0, 0x8000) := by decide
/-- L1.7, a double exception, and R252: an unknown cause stops the block. -/
theorem test_commit_double_and_fatal :
    see (exec (.commit 0 0x2004) (latched 0x20000 ⟨.precise, 0x22, 0x7000, 0, 1⟩)) 0
      (fun th => (th.elr, th.ssr, th.pc, th.badva0, th.diag)) = some (0x2000, 0x120003, 0x10008, 0x7000, 0x22) ∧
    recordOf (exec (.commit 0 0x2004) (latched 0 ⟨.precise, 0x77, 0, 0, 0⟩)) =
      some ⟨.unknownEvent, 0, 2, 0x77, 0x2000, 0, 0⟩ := by decide
/-- R253 and R206: the lock wait keeps PC and leaves the SSR but for V0, V1 and BVS; the flags of the bundle are discarded. -/
theorem test_commit_lock_wait :
    let waits := exec (.commit 0 0x2004)
      (thread 0 (fun th => { th with latch := some ⟨.tlbMissRw, 0x70, 0, 0x3004, 2⟩, bundle := ⟨true, true, some .off⟩ })
        (locked 0x800 .unlocked .owner .unlocked .unlocked))
    see waits 0 (fun th => (th.tlbls, th.missWait, th.pc, th.ssr, th.badva1)) = some (.waiting, true, 0, 0x600000, 0x3004) ∧
      see waits 0 (fun th => (th.bundle, th.tmode)) = some (.clear, .run) := by decide
/-- R113: the numbers of the response codes. -/
theorem test_response_numbers :
    [RespCode.ok, .illegal, .suppressed, .fatal, .faulted, .rejected].map respNumber = [0, 1, 2, 3, 4, 5] := by decide
/-- R8 and R300: inside thread 0's bundle come its own commands, an interrupt for thread 1 and a malformed word. -/
theorem test_ordered :
    ordered 4 none [.rstCore, .command ⟨0x38000000, 0, 0, 0⟩, .command ⟨0x79000002, 0, 0, 0⟩, .command ⟨0xA0000000, 0, 0, 0⟩,
      .command ⟨0x98000000, 0, 0, 8⟩, .command ⟨0x99000000, 0, 0, 8⟩, .rstThread 0] = true := by decide
/-- Another thread's command, an interrupt for thread 0, a reset or an image transfer may not come there. -/
theorem test_ordered_refuses :
    [Input.command ⟨0x99000000, 0, 0, 8⟩, .command ⟨0x78000002, 0, 0, 0⟩, .rstThread 0, .rstCore, .imageRead].map
      (fun x => ordered 4 none [.command ⟨0x38000000, 0, 0, 0⟩, x]) = [false, false, false, false, false] := by decide
/-- A word put on the port is the one the next step runs (R110). -/
theorem test_step_runs_word : respOf (step (State.reset.withFetchWord 32 0x38000000)) = some ⟨.ok, 1⟩ := by decide

/-! ### Witnesses: states and operands that meet the hypotheses of the statements -/

theorem witness_EncodedCommandsDecode : (Instr.raisePrecise 7 .load .slot1 0xFF 0xFFFFFFFF).wf 8 = true := by decide
theorem witness_DecodedWordsAreEncodings : decode 4 ⟨0x93000011, 0x11, 0, 0⟩ = .ok (.sregW 3 .syscfg 0x11) := by decide
theorem witness_StepExecutesTheDecodedCommand :
    { State.reset with port := [.command ⟨0x98000000, 0, 0, 8⟩] }.port = .command ⟨0x98000000, 0, 0, 8⟩ :: [] ∧
      decode State.reset.cfg.numThreads ⟨0x98000000, 0, 0, 8⟩ = .ok (.commit 0 8) := by decide
theorem witness_StepExecutesTheDecodedCommand_withFetchWord :
    decode State.reset.cfg.numThreads (layOut 160 (8 * 2 ^ 128 + 0x98000000)) = .ok (.commit 0 8) := by decide
theorem witness_StepExecutesTheDecodedCommand_malformed :
    { State.reset with port := [.command ⟨0xA0000000, 0, 0, 0⟩] }.port = .command ⟨0xA0000000, 0, 0, 0⟩ :: [] ∧
      State.reset.fatal = none ∧ malformed State.reset.cfg.numThreads 0xA0000000 = true := by decide
theorem witness_OrderedItemsKeepBundlesContiguous :
    ordered 4 none [.command ⟨0x38000000, 0, 0, 0⟩, .command ⟨0x98000000, 0, 0, 8⟩] = true ∧
      decode 4 ⟨0x38000000, 0, 0, 0⟩ = .ok (.tlblock 0) ∧ (Instr.tlblock 0).isCommit = false ∧
      (Instr.tlblock 0).isInterrupt = false ∧ decode 4 ⟨0x98000000, 0, 0, 8⟩ = .ok (.commit 0 8) := by decide
theorem witness_AdmissionStepsDecideTheResponse_stopped : (stoppedBlock []).fatal ≠ none := by decide
theorem witness_AdmissionStepsDecideTheResponse_rejected :
    State.reset.fatal = none ∧ (Instr.rte 1).isInterrupt = false ∧ (State.reset.thread 1).tmode ≠ .run := by decide
theorem witness_AdmissionStepsDecideTheResponse_suppressed :
    (latched 0 ⟨.trap0, 0, 0, 0, 0⟩).fatal = none ∧ (Instr.rte 0).isInterrupt = false ∧
      (Instr.rte 0).suppressible = true ∧ ((latched 0 ⟨.trap0, 0, 0, 0, 0⟩).thread 0).latch ≠ none := by decide
theorem witness_AdmissionStepsDecideTheResponse_faulted :
    (s0 0x10000).fatal = none ∧ ((s0 0x10000).thread 0).tmode = .run ∧ (Instr.rte 0).privileged = true ∧
      (s0 0x10000).mode 0 ≠ .kernel ∧ respOf (exec (.rte 0) (s0 0x10000)) = some ⟨.faulted, 0⟩ := by decide
theorem witness_EveryCommandReturnsOneResponse : ∃ s', exec (.rte 1) State.reset = .next s' := ⟨_, rfl⟩
theorem witness_StoppedBlockWaitsForCoreReset :
    (stoppedBlock [.command ⟨0x98000000, 0, 0, 8⟩]).fatal ≠ none ∧ (stoppedBlock [.rstThread 3]).fatal ≠ none ∧
      (stoppedBlock [.rstThread 3]).hasThread 3 ∧ (stoppedBlock [.rstCore]).fatal ≠ none := by decide
theorem witness_StoppedBlockWaitsForCoreReset_image : ∃ s', step (stoppedBlock [.imageRead]) = .next s' := ⟨_, rfl⟩

theorem witness_TlbwWritesOneSlot : Admitted (.tlbw 0 e5 0xFFFFFFFF) (s0 0) := by decide
theorem witness_TlbrReturnsTheSlot : Admitted (.tlbr 0 191) (stored 0 [(191, 0x8000000000000000)]) := by decide
theorem witness_TlbrReturnsTheSlot_afterWrite :
    Admitted (.tlbw 0 e5 0x1C5) (s0 0) ∧ Admitted (.tlbr 0 0x105) (s0 0) ∧ wrapIndex 0x105 = wrapIndex 0x1C5 := by decide
theorem witness_SizeClassSetsThePageRange : sizeClass e5 = some 0 ∧ sizeClass 0x80340000F0180200 = some 9 := by decide
theorem witness_TlbpReportsTheUniqueMatch :
    Admitted (.tlbp 0 0x1FFF 3) (stored 0 [(191, e5)]) ∧ SizesValid (stored 0 [(191, e5)]).tlb ∧
      ∀ j, j < 192 → (lookupMatch 3 0x1FFF (Memory.read (stored 0 [(191, e5)]).tlb j) = true ↔ j = 191) := by decide +kernel
theorem witness_TlbpReportsTheUniqueMatch_none :
    Admitted (.tlbp 0 0x2000 3) (stored 0 [(191, e5)]) ∧ SizesValid (stored 0 [(191, e5)]).tlb ∧
      ∀ j, j < 192 → lookupMatch 3 0x2000 (Memory.read (stored 0 [(191, e5)]).tlb j) = false := by decide +kernel
theorem witness_TlbpReportsTheUniqueMatch_two :
    Admitted (.tlbp 0 0x1000 3) (stored 0 [(0, e5), (191, e9)]) ∧ SizesValid (stored 0 [(0, e5), (191, e9)]).tlb ∧
      lookupMatch 3 0x1000 (Memory.read (stored 0 [(0, e5), (191, e9)]).tlb 0) = true ∧
      lookupMatch 3 0x1000 (Memory.read (stored 0 [(0, e5), (191, e9)]).tlb 191) = true := by decide +kernel
theorem witness_TlbocAnswersTheTrichotomy :
    Admitted (.tlboc 0 e5) (stored 0 []) ∧ SizesValid (stored 0 []).tlb ∧ sizeInvalid e5 = false ∧
      ∀ j, j < 192 → overlaps e5 (Memory.read (stored 0 []).tlb j) = false := by decide +kernel
theorem witness_TlbocAnswersTheTrichotomy_one :
    Admitted (.tlboc 0 e9) (stored 0 [(191, e5)]) ∧ SizesValid (stored 0 [(191, e5)]).tlb ∧ sizeInvalid e9 = false ∧
      ∀ j, j < 192 → (overlaps e9 (Memory.read (stored 0 [(191, e5)]).tlb j) = true ↔ j = 191) := by decide +kernel
theorem witness_TlbocAnswersTheTrichotomy_two :
    Admitted (.tlboc 0 e9) (stored 0 [(0, e5), (191, e9)]) ∧ SizesValid (stored 0 [(0, e5), (191, e9)]).tlb ∧
      overlaps e9 (Memory.read (stored 0 [(0, e5), (191, e9)]).tlb 0) = true ∧
      overlaps e9 (Memory.read (stored 0 [(0, e5), (191, e9)]).tlb 191) = true := by decide +kernel
theorem witness_CtlbwWritesOnlyWithoutOverlap :
    Admitted (.ctlbw 0 e5 192) (stored 0 []) ∧ SizesValid (stored 0 []).tlb ∧ sizeInvalid e5 = false ∧
      ∀ j, j < 192 → overlaps e5 (Memory.read (stored 0 []).tlb j) = false := by decide +kernel
theorem witness_CtlbwWritesOnlyWithoutOverlap_one :
    Admitted (.ctlbw 0 e9 191) (stored 0 [(191, e5)]) ∧ SizesValid (stored 0 [(191, e5)]).tlb ∧ sizeInvalid e9 = false ∧
      ∀ j, j < 192 → (overlaps e9 (Memory.read (stored 0 [(191, e5)]).tlb j) = true ↔ j = 191) := by decide +kernel
theorem witness_CtlbwWritesOnlyWithoutOverlap_two :
    Admitted (.ctlbw 0 e9 6) (stored 0 [(0, e5), (191, e9)]) ∧ SizesValid (stored 0 [(0, e5), (191, e9)]).tlb ∧
      overlaps e9 (Memory.read (stored 0 [(0, e5), (191, e9)]).tlb 0) = true ∧
      overlaps e9 (Memory.read (stored 0 [(0, e5), (191, e9)]).tlb 191) = true := by decide +kernel
theorem witness_CtlbwKeepsLookupsUnambiguous :
    entryG e5 = false ∧ SingleMatch (s0 0).tlb ∧ Admitted (.ctlbw 0 e5 6) (s0 0) ∧
      ∃ s', exec (.ctlbw 0 e5 6) (s0 0) = .next s' := by
  refine ⟨by decide, fun asid va i j _ _ h => ?_, by decide, ?_⟩
  · have hz : lookupMatch asid va (Memory.read (s0 0).tlb i) = false := by
      change lookupMatch asid va 0 = false
      simp only [lookupMatch]
      split <;> rfl
    rw [hz] at h
    cases h
  · exact next_of_isSome (by decide +kernel)
/-- The clause about steps: a step that executes a CTLBW of an entry that is not global. -/
theorem witness_CtlbwKeepsLookupsUnambiguous_step :
    let k : Command := ⟨0x28000000, e5, 6, 0⟩
    let s : State := { s0 0 with port := [.command k] }
    NotImageWrite s ∧ SingleMatch s.tlb ∧
      (∀ k' rest, s.port = .command k' :: rest → ∀ t e b, decode s.cfg.numThreads k' ≠ .ok (.tlbw t e b) ∧
        (decode s.cfg.numThreads k' = .ok (.ctlbw t e b) → entryG e = false)) ∧
      ∃ s', step s = .next s' := by
  refine ⟨fun _ _ _ h => (by cases h), fun asid va i j hi hj => witness_CtlbwKeepsLookupsUnambiguous.2.1 asid va i j hi hj, ?_,
    next_of_isSome (by decide +kernel)⟩
  intro k' rest h t e b
  have hd : decode 4 ⟨0x28000000, e5, 6, 0⟩ = .ok (.ctlbw 0 e5 6) := by decide
  cases h
  exact ⟨fun h => (by cases hd.symm.trans h), fun h => (by cases hd.symm.trans h; decide)⟩
theorem witness_SizeInvalidEntriesStopTheBlock :
    Admitted (.xlate 0 .user .load 0) (mapped 0x300 [(191, 0x8000000000000000)]) ∧
      syscfgMmuen (mapped 0x300 [(191, 0x8000000000000000)]).syscfg = true ∧
      sizeInvalid (Memory.read (mapped 0x300 [(191, 0x8000000000000000)]).tlb 191) = true := by decide
theorem witness_SizeInvalidEntriesStopTheBlock_probe :
    Admitted (.tlbp 0 0 0) (stored 0 [(0, 0x8000000000000000)]) ∧
      sizeInvalid (Memory.read (stored 0 [(0, 0x8000000000000000)]).tlb 0) = true := by decide
theorem witness_SizeInvalidEntriesStopTheBlock_candidate :
    Admitted (.ctlbw 0 0x8000000000000000 6) (s0 0) ∧ Admitted (.tlboc 0 0x8000000000000000) (s0 0) ∧
      SizesValid (s0 0).tlb ∧ sizeInvalid 0x8000000000000000 = true := by decide +kernel

theorem witness_DisabledTranslationIsTheIdentity :
    Admitted (.xlate 0 .user .store 0xFFFFFFFF) (stored 0 [(5, e5)]) ∧ syscfgMmuen (stored 0 [(5, e5)]).syscfg = false := by
  decide
theorem witness_XlateAnswersForTheLowestMatch :
    Admitted (.xlate 0 .user .load 0x1FFF) (mapped 0x300 [(191, e5)]) ∧ syscfgMmuen (mapped 0x300 [(191, e5)]).syscfg = true ∧
      SizesValid (mapped 0x300 [(191, e5)]).tlb ∧
      lookupMatch (ssrAsid ((mapped 0x300 [(191, e5)]).thread 0).ssr) 0x1FFF (Memory.read (mapped 0x300 [(191, e5)]).tlb 191) =
        true ∧
      (∀ j, j < 191 → lookupMatch (ssrAsid ((mapped 0x300 [(191, e5)]).thread 0).ssr) 0x1FFF
        (Memory.read (mapped 0x300 [(191, e5)]).tlb j) = false) ∧
      sizeClass (Memory.read (mapped 0x300 [(191, e5)]).tlb 191) = some 0 := by decide +kernel
theorem witness_XlateReportsAMiss :
    Admitted (.xlate 0 .user .fetch 0x2000) (mapped 0x300 [(191, e5)]) ∧
      syscfgMmuen (mapped 0x300 [(191, e5)]).syscfg = true ∧ SizesValid (mapped 0x300 [(191, e5)]).tlb ∧
      ∀ j, j < 192 → lookupMatch (ssrAsid ((mapped 0x300 [(191, e5)]).thread 0).ssr) 0x2000
        (Memory.read (mapped 0x300 [(191, e5)]).tlb j) = false := by decide +kernel
theorem witness_PermissionCheckOrder : entryU 0x80300001E000000B = false ∧ entryU e5 = true := by decide
theorem witness_PhysicalAddressIsBasePlusOffset : sizeClass 0xA0340000F0FFFFFF = some 0 := by decide

theorem witness_AcquireTakesAFreeLock : ∀ l, Admitted (lockInstr l 0) (s0 0) ∧ syscfgLock l (s0 0).syscfg = false := by
  intro l; cases l <;> decide
theorem witness_AcquireTakesAFreeLock_held :
    Admitted (lockInstr .tlb 1) (locked 0x800 .owner .unlocked .unlocked .unlocked) ∧
      Admitted (lockInstr .tlb 0) (locked 0x800 .owner .unlocked .unlocked .unlocked) ∧
      syscfgLock .tlb (locked 0x800 .owner .unlocked .unlocked .unlocked).syscfg = true := by decide
theorem witness_ReleaseHandsTheLockToTheNextWaiter_noOwner :
    Admitted (unlockInstr .tlb 3) (locked 0x800 .owner .unlocked .unlocked .unlocked) ∧
      (locked 0x800 .owner .unlocked .unlocked .unlocked).hasThread 3 ∧
      lockState .tlb ((locked 0x800 .owner .unlocked .unlocked .unlocked).thread 3) ≠ .owner := by decide
theorem witness_ReleaseHandsTheLockToTheNextWaiter_noWaiter :
    Admitted (unlockInstr .tlb 0) (locked 0x800 .owner .unlocked .unlocked .unlocked) ∧
      lockState .tlb ((locked 0x800 .owner .unlocked .unlocked .unlocked).thread 0) = .owner ∧
      ∀ u, (locked 0x800 .owner .unlocked .unlocked .unlocked).hasThread u →
        lockState .tlb ((locked 0x800 .owner .unlocked .unlocked .unlocked).thread u) ≠ .waiting := by decide
theorem witness_ReleaseHandsTheLockToTheNextWaiter_wraps :
    Admitted (unlockInstr .tlb 3) (locked 0x800 .waiting .unlocked .waiting .owner) ∧
      lockState .tlb ((locked 0x800 .waiting .unlocked .waiting .owner).thread 3) = .owner ∧
      lockState .tlb ((locked 0x800 .waiting .unlocked .waiting .owner).thread 0) = .waiting ∧
      ∀ u, (locked 0x800 .waiting .unlocked .waiting .owner).hasThread u →
        lockState .tlb ((locked 0x800 .waiting .unlocked .waiting .owner).thread u) = .waiting →
        ringDistance 4 3 0 ≤ ringDistance 4 3 u := by decide
theorem witness_WaitingForALockIsAStutter :
    Admitted (lockInstr .tlb 1) (locked 0x800 .owner .waiting .unlocked .unlocked) ∧
      ((locked 0x800 .owner .waiting .unlocked .unlocked).thread 1).bundle = .clear ∧
      syscfgLock .tlb (locked 0x800 .owner .waiting .unlocked .unlocked).syscfg = true ∧
      lockState .tlb ((locked 0x800 .owner .waiting .unlocked .unlocked).thread 1) = .waiting := by decide

theorem witness_RaiseCommandsRegisterTheirEvent :
    Admitted (.raiseTlbmiss 0 .fetch .slot0 0) (s0 0x10000) ∧ Admitted (.raiseTlbmiss 0 .load .slot1 0) (s0 0x10000) ∧
      Admitted (.raiseTlbmiss 0 .store .slot1 0) (s0 0x10000) ∧ Admitted (.raisePrecise 0 .load .slot1 0xFF 0) (s0 0x10000) ∧
      Admitted (.raiseTrap 0 .trap1 0xFF) (s0 0x10000) ∧ Admitted (.raiseEvent 0 .debug 0x80) (s0 0x10000) := by decide
theorem witness_InterruptsAreEnteredAtOnceOrRejected :
    waiting1.fatal = none ∧ (waiting1.thread 1).tmode ≠ .off ∧ ssrEx (waiting1.thread 1).ssr = false ∧
      ssrIe (waiting1.thread 1).ssr = true ∧ syscfgGie waiting1.syscfg = true ∧ (waiting1.thread 1).missWait = false ∧
      (waiting1.thread 1).latch = none ∧ ssrEx (waiting1.thread 0).ssr = true := by decide

theorem witness_CommitEndsABundleWithoutEvent : Admitted (.commit 0 0) (s0 0x10000) ∧ ((s0 0x10000).thread 0).latch = none := by
  decide
theorem witness_RteReturnsToElrAtCommit :
    Admitted (.rte 0) (s0 0x20000) ∧ ((s0 0x20000).thread 0).bundle = .clear := by decide
/-- A second RTE, after a lock command asked for the bundle again and a write of the thread's own mode. -/
theorem witness_RteReturnsToElrAtCommit_marked :
    Admitted (.rte 0) (thread 0 (fun th => { th with bundle := ⟨true, true, some .wait⟩ }) (s0 0x20000)) := by decide
theorem witness_CommitEntersTheLatchedEvent :
    Admitted (.commit 0 0) (latched 0x10000 ⟨.trap0, 0, 0, 0, 0⟩) ∧
      ((latched 0x10000 ⟨.trap0, 0, 0, 0, 0⟩).thread 0).latch = some ⟨.trap0, 0, 0, 0, 0⟩ ∧
      ssrEx ((latched 0x10000 ⟨.trap0, 0, 0, 0, 0⟩).thread 0).ssr = false ∧ admittedPair .trap0 0 = true ∧
      isTlbMiss .trap0 = false := by decide
theorem witness_CommitEntersTheLatchedEvent_precise :
    Admitted (.commit 0 0) (latched 0x10000 ⟨.precise, 0x25, 1, 2, 3⟩) ∧
      ((latched 0x10000 ⟨.precise, 0x25, 1, 2, 3⟩).thread 0).latch = some ⟨.precise, 0x25, 1, 2, 3⟩ ∧
      ssrEx ((latched 0x10000 ⟨.precise, 0x25, 1, 2, 3⟩).thread 0).ssr = false ∧ admittedPair .precise 0x25 = true ∧
      isTlbMiss .precise = false := by decide
theorem witness_EventDuringAHandlerIsADoubleException :
    Admitted (.commit 0 0) (latched 0x20000 ⟨.debug, 0xFF, 0, 0, 0⟩) ∧
      ((latched 0x20000 ⟨.debug, 0xFF, 0, 0, 0⟩).thread 0).latch = some ⟨.debug, 0xFF, 0, 0, 0⟩ ∧
      ssrEx ((latched 0x20000 ⟨.debug, 0xFF, 0, 0, 0⟩).thread 0).ssr = true := by decide

/-- Thread 0 with a latched TLB miss while the TLB lock is free, its own, or thread 1's. -/
def missed (cfg : Word) (a b : LockState) : State :=
  thread 0 (fun th => { th with latch := some ⟨.tlbMissRw, 0x70, 0, 0x3004, 2⟩ }) (locked cfg a b .unlocked .unlocked)

theorem witness_TlbMissIsEnteredUnderTheLock :
    Admitted (.commit 0 0) (missed 0 .unlocked .unlocked) ∧ syscfgLock .tlb (missed 0 .unlocked .unlocked).syscfg = false ∧
      ((missed 0 .unlocked .unlocked).thread 0).latch = some ⟨.tlbMissRw, 0x70, 0, 0x3004, 2⟩ ∧
      ssrEx ((missed 0 .unlocked .unlocked).thread 0).ssr = false ∧ isTlbMiss .tlbMissRw = true ∧
      admittedPair .tlbMissRw 0x70 = true := by decide
theorem witness_TlbMissIsEnteredUnderTheLock_owner :
    Admitted (.commit 0 0) (missed 0x800 .owner .unlocked) ∧ ((missed 0x800 .owner .unlocked).thread 0).tlbls = .owner ∧
      ((missed 0x800 .owner .unlocked).thread 0).latch = some ⟨.tlbMissRw, 0x70, 0, 0x3004, 2⟩ ∧
      ssrEx ((missed 0x800 .owner .unlocked).thread 0).ssr = false := by decide
theorem witness_TlbMissWaitsForTheLock :
    Admitted (.commit 0 0) (missed 0x800 .unlocked .owner) ∧ syscfgLock .tlb (missed 0x800 .unlocked .owner).syscfg = true ∧
      ((missed 0x800 .unlocked .owner).thread 0).tlbls ≠ .owner ∧
      ((missed 0x800 .unlocked .owner).thread 0).latch = some ⟨.tlbMissRw, 0x70, 0, 0x3004, 2⟩ ∧
      ssrEx ((missed 0x800 .unlocked .owner).thread 0).ssr = false := by decide
/-- The same with a bundle that is not clear, where R40 and R206 differ. -/
theorem witness_TlbMissWaitsForTheLock_bundle :
    Admitted (.commit 0 0) (thread 0 (fun th => { th with bundle := ⟨true, true, none⟩ }) (missed 0x800 .unlocked .owner)) := by
  decide
theorem witness_ImpreciseRedirectsEveryThread :
    Admitted (.commit 0 0) (latched 0 ⟨.imprecise, 0x44, 0, 0, 0⟩) ∧ (latched 0 ⟨.imprecise, 0x44, 0, 0, 0⟩).hasThread 0 ∧
      ((latched 0 ⟨.imprecise, 0x44, 0, 0, 0⟩).thread 0).latch = some ⟨.imprecise, 0x44, 0, 0, 0⟩ ∧
      ssrEx ((latched 0 ⟨.imprecise, 0x44, 0, 0, 0⟩).thread 0).ssr = false := by decide
theorem witness_UnknownEventsStopTheBlock :
    Admitted (.commit 0 0) (latched 0 ⟨.fptrap, 0xBE, 0, 0, 0⟩) ∧
      ((latched 0 ⟨.fptrap, 0xBE, 0, 0, 0⟩).thread 0).latch = some ⟨.fptrap, 0xBE, 0, 0, 0⟩ ∧
      ssrEx ((latched 0 ⟨.fptrap, 0xBE, 0, 0, 0⟩).thread 0).ssr = false ∧ admittedPair .fptrap 0xBE = false := by decide
theorem witness_MergedBadvaReadsTheFaultAddress :
    Admitted (.commit 0 0) (latched 0 ⟨.precise, 0x25, 0, 2, 2⟩) ∧
      ((latched 0 ⟨.precise, 0x25, 0, 2, 2⟩).thread 0).latch = some ⟨.precise, 0x25, 0, 2, 2⟩ ∧
      see (exec (.commit 0 0) (latched 0 ⟨.precise, 0x25, 0, 2, 2⟩)) 0 (·.latch) = some none := by decide
theorem witness_VectorsAreDistinct : (0xFFFFFF80 : Word).extractLsb' 0 7 = 0 := by decide

theorem witness_SregReadReturnsTheRegister :
    Admitted (.sregR 0 .badva) (s0 0) ∧ readsCycles .badva = false ∧ Admitted (.sregR 0 .pcycleLo) (s0 0) ∧
      Admitted (.sregR 0 .pcycleHi) (s0 0) := by decide
theorem witness_SregWriteWritesTheRegister :
    Admitted (.sregW 0 .ssr 0x10000) (s0 0) ∧ Admitted (.sregW 0 .syscfg 0xFFFFFFFF) (s0 0) ∧
      Admitted (.sregW 0 .rev 1) (s0 0) := by decide
theorem witness_ModectlWriteSetsTheThreadModes :
    Admitted (.sregW 0 .modectl 0x00040007) (s0 0) ∧ (s0 0).hasThread 0 ∧ (s0 0).hasThread 3 ∧ ¬(s0 0).hasThread 4 := by decide

theorem witness_CoreResetSetsTheBootState : (stoppedBlock [.rstCore]).port = .rstCore :: [] := by decide
theorem witness_ThreadResetKeepsTheModeAndTheLockBits :
    { s0 0 with port := [.rstThread 3] }.port = .rstThread 3 :: [] ∧ (s0 0).hasThread 3 ∧ (s0 0).fatal = none := by decide

theorem witness_StepKeepsTheStoreCanonical :
    Memory.wf (stored 0 [(0, e5), (191, e9)]).tlb = true ∧
      ∃ s', step ((stored 0 [(0, e5), (191, e9)]).withFetchWord 32 0x08000000) = .next s' := ⟨by decide, ⟨_, rfl⟩⟩
theorem witness_StepKeepsTheLockInvariants :
    NotImageWrite ((locked 0x800 .owner .waiting .unlocked .unlocked).withFetchWord 32 0x40000000) ∧
      LockInv ((locked 0x800 .owner .waiting .unlocked .unlocked).withFetchWord 32 0x40000000) ∧
      ∃ s', step ((locked 0x800 .owner .waiting .unlocked .unlocked).withFetchWord 32 0x40000000) = .next s' :=
  ⟨fun _ _ _ h => (by cases h), ⟨⟨by decide, by decide, by decide⟩, ⟨by decide, by decide, by decide⟩⟩, ⟨_, rfl⟩⟩

/-- Thread 0 in miss_wait behind thread 1, about to present a lone COMMIT. -/
def inMissWait : State :=
  (thread 0 (fun th => { th with missWait := true }) (missed 0x800 .waiting .owner)).withFetchWord 32 0x98000000

theorem witness_StepKeepsTheLatchInvariant :
    NotImageWrite inMissWait ∧ LatchInv inMissWait ∧ ∃ s', step inMissWait = .next s' := by
  refine ⟨fun _ _ _ h => (by cases h), fun t _ => ?_, ⟨_, rfl⟩⟩
  have h0 : t = 0 ∨ (inMissWait.thread t).latch = none ∧ (inMissWait.thread t).missWait = false := by revert t; decide
  rcases h0 with rfl | ⟨hl, hm⟩
  · have hl : (inMissWait.thread 0).latch = some ⟨.tlbMissRw, 0x70, 0, 0x3004, 2⟩ := by decide
    refine ⟨fun l h => ?_, fun _ => ⟨by decide, by decide, _, hl, by decide⟩⟩
    rw [hl] at h
    cases h
    refine ⟨by decide, by decide, by decide, by decide, by decide, by decide⟩
  · exact ⟨fun l h => (by rw [hl] at h; cases h), fun h => (by rw [hm] at h; cases h)⟩
/-- Thread 0 inside its bundle with a latched trap, its COMMIT presented next. -/
def insideBundle : State :=
  { latched 0 ⟨.trap0, 0, 0, 0, 0⟩ with inBundle := some 0, port := [.command ⟨0x98000000, 0, 0, 8⟩] }

theorem witness_StepKeepsLatchesEmptyBetweenBundles :
    insideBundle.Ordered ∧ NotImageWrite insideBundle ∧ BundleInv insideBundle ∧ ∃ s', step insideBundle = .next s' :=
  ⟨by decide, fun _ _ _ h => (by cases h), fun _ => by decide, ⟨_, rfl⟩⟩
theorem witness_LockOfAResetOwnerStaysDead :
    NotImageWrite ((locked 0x800 .unlocked .waiting .unlocked .unlocked).withFetchWord 32 0x38000000) ∧
      (∀ rest, ((locked 0x800 .unlocked .waiting .unlocked .unlocked).withFetchWord 32 0x38000000).port ≠ .rstCore :: rest) ∧
      LockDead .tlb ((locked 0x800 .unlocked .waiting .unlocked .unlocked).withFetchWord 32 0x38000000) ∧
      ∃ s', step ((locked 0x800 .unlocked .waiting .unlocked .unlocked).withFetchWord 32 0x38000000) = .next s' :=
  ⟨fun _ _ _ h => (by cases h), fun _ h => (by cases h), by decide, ⟨_, rfl⟩⟩
theorem witness_StepKeepsParametersAndAbsentThreads :
    (∃ s', step (State.reset.withFetchWord 32 0x38000000) = .next s') ∧ ¬State.reset.hasThread 4 := ⟨⟨_, rfl⟩, by decide⟩
theorem witness_OnlyTlbWritesChangeTheStore : ∃ s', exec (.tlbw 0 e5 5) (s0 0) = .next s' := ⟨_, rfl⟩
theorem witness_OnlyControlCommandsWritePcAndSsr :
    (∃ s', exec (.sregW 0 .elr 5) (s0 0) = .next s') ∧ (Instr.sregW 0 .elr 5).isCommit = false ∧
      (Instr.sregW 0 .elr 5).isInterrupt = false := ⟨⟨_, rfl⟩, by decide⟩
theorem witness_CommandsLeaveOtherThreadsAlone :
    (∃ s', exec (.tlbunlock 0) (locked 0x800 .owner .waiting .unlocked .unlocked) = .next s') ∧ (1 : Tid) ≠ 0 :=
  ⟨⟨_, rfl⟩, by decide⟩
theorem witness_UnprivilegedThreadsCannotChangeSharedState :
    (∃ s', exec (.raiseTrap 0 .trap0 0) (s0 0x10000) = .next s') ∧ (Instr.raiseTrap 0 .trap0 0).isInterrupt = false ∧
      (s0 0x10000).mode 0 ≠ .kernel := ⟨⟨_, rfl⟩, by decide⟩
theorem witness_KernelModeIsEnteredOnlyAtAVector :
    (latched 0x10000 ⟨.trap1, 1, 0, 0, 0⟩).mode 0 ≠ .kernel ∧
      (nextOf (exec (.commit 0 0) (latched 0x10000 ⟨.trap1, 1, 0, 0, 0⟩))).map (·.mode 0) = some .kernel := by decide
/-- The clause about steps: the reset of a user thread. -/
theorem witness_KernelModeIsEnteredOnlyAtAVector_step :
    NotImageWrite { s0 0x10000 with port := [.rstThread 0] } ∧ (s0 0x10000).mode 0 ≠ .kernel ∧
      (nextOf (step { s0 0x10000 with port := [.rstThread 0] })).map (·.mode 0) = some .kernel :=
  ⟨fun _ _ _ h => (by cases h), by decide, by decide⟩
theorem witness_TheImageHoldsEverySlot :
    { s0 0 with port := [.imageRead] }.port = .imageRead :: [] ∧
      ∀ t, (s0 0).hasThread t → ((s0 0).thread t).bundle = .clear := by decide
theorem witness_TheImageHoldsEverySlot_write :
    (∀ t, (s0 0).hasThread t → ((s0 0).thread t).bundle = .clear) ∧
      (List.replicate 1536 (0xFF : BitVec 8)).length = 1536 ∧
      (regImage (stored 0 [(191, e5)])).threads.length = (s0 0).cfg.numThreads :=
  ⟨by decide, List.length_replicate, by decide⟩
theorem witness_TheImageHoldsEverySlot_writeBack :
    Memory.wf (stored 0 [(191, e5)]).tlb = true ∧
      ∀ t, (stored 0 [(191, e5)]).hasThread t → ((stored 0 [(191, e5)]).thread t).bundle = .clear := by decide
theorem witness_TheImageHoldsEverySlot_malformed :
    (∀ t, (s0 0).hasThread t → ((s0 0).thread t).bundle = .clear) ∧ ([] : List (BitVec 8)).length ≠ 1536 ∧
      ({ regImage (s0 0) with threads := [] } : RegImage).threads.length ≠ (s0 0).cfg.numThreads := by decide
theorem witness_TheImageHoldsEverySlot_notQuiescent :
    let s := thread 0 (fun th => { th with bundle := ⟨false, true, none⟩ }) (s0 0)
    s.hasThread 0 ∧ (s.thread 0).bundle ≠ .clear := by decide

end Sys2Proof.Tests
end

section
/-! PROOFS. The family of spec/00_scope.md: the orders of items (R8), what every step keeps of the bundles and latches between
bundles (R206, R242), and what no step touches (R9, R20). First the layers the proofs share: the thread a decoded word names,
and what each command leaves of each thread. -/

namespace Sys2Proof

/-! ### The thread a decoded word names -/

/-- Whatever branch the decoder takes, it is an error or a command written with the thread of the TID field
(spec/30_encoding.md R111, R115). -/
theorem decodeOp_tid {f : Fields} {t : Tid} {k : Command} {i : Instr} (h : decodeOp f t k = .ok i) : i.tid = t := by
  simp only [decodeOp, decodePlain, decodeXlate, decodeRaiseTlbmiss, decodeRaisePrecise, decodeRaiseTrap,
    decodeRaiseEvent, decodeRaiseInt, decodeSregR, decodeSregW] at h
  repeat' split at h
  all_goals cases h
  all_goals rfl

/-- A word that decodes names a thread that exists (spec/30_encoding.md R114). -/
theorem decode_tid_lt {n : Nat} {k : Command} {i : Instr} (h : decode n k = .ok i) : i.tid.val < n := by
  unfold decode at h
  dsimp only at h
  split at h
  · cases h
  next hn =>
  split at h
  · cases h
  · rw [decodeOp_tid h]
    exact Nat.lt_of_not_le hn

/-- RAISE_INT is the one command that `isInterrupt` marks (spec/30_encoding.md R122 step 3). -/
theorem Instr.isInterrupt_iff {i : Instr} : i.isInterrupt = true ↔ ∃ t n, i = .raiseInt t n := by
  cases i <;> simp [Instr.isInterrupt]

/-- COMMIT is the one command that `isCommit` marks (spec/30_encoding.md R122 step 5). -/
theorem Instr.isCommit_iff {i : Instr} : i.isCommit = true ↔ ∃ t c, i = .commit t c := by
  cases i <;> simp [Instr.isCommit]

namespace Machine

@[simp] theorem lockInstr_tid (l : LockId) (t : Tid) : (lockInstr l t).tid = t := by cases l <;> rfl
@[simp] theorem unlockInstr_tid (l : LockId) (t : Tid) : (unlockInstr l t).tid = t := by cases l <;> rfl

/-! ### What each shared operation leaves of each thread -/

/-- An acquire changes the lock state of its thread at most (spec/41_lock.md R181). -/
theorem acquire_thread_self (l : LockId) (t : Tid) (s : State) :
    (acquire l t s).1.thread t = s.thread t ∨ ∃ v, (acquire l t s).1.thread t = setLockState l v (s.thread t) := by
  rcases acquire_cases l t s with ⟨-, h⟩ | ⟨-, -, h⟩ | ⟨-, -, h⟩
  · exact .inr ⟨.owner, by simp [h]⟩
  · exact .inl (by rw [h])
  · exact .inr ⟨.waiting, by simp [h]⟩

theorem acquire_thread_ne {t u : Tid} (hu : u ≠ t) (l : LockId) (s : State) :
    (acquire l t s).1.thread u = s.thread u := by
  rcases acquire_cases l t s with ⟨-, h⟩ | ⟨-, -, h⟩ | ⟨-, -, h⟩ <;> simp [h, State.modThread_thread_ne _ hu]

@[simp] theorem acquire_fatal (l : LockId) (t : Tid) (s : State) : (acquire l t s).1.fatal = s.fatal :=
  (congrArg State.fatal (acquire_frame l t s) :)

@[simp] theorem acquire_tmode (l : LockId) (t : Tid) (s : State) :
    ((acquire l t s).1.thread t).tmode = (s.thread t).tmode := by
  rcases acquire_thread_self l t s with h | ⟨v, h⟩ <;> simp [h]

/-- A release makes one other thread that exists the owner, or leaves the others alone (spec/41_lock.md R182, R183). -/
theorem release_thread_ne {t u : Tid} {s : State} (ht : s.hasThread t) (hu : u ≠ t) (l : LockId) :
    (release l t s).thread u = s.thread u ∨
      (s.hasThread u ∧ (release l t s).thread u = setLockState l .owner (s.thread u)) := by
  rcases release_cases l t s with ⟨-, h⟩ | ⟨-, -, h⟩ | ⟨-, w, hw, h⟩
  · exact .inl (by rw [h])
  · exact .inl (by simp [h, State.modThread_thread_ne _ hu])
  · by_cases huw : u = w
    · subst huw
      have hex := (nextWaiter_some (s := (s.setLockBit l false).modThread t (setLockState l .unlocked)) ht hw).1
      exact .inr ⟨hex, by simp [h, State.modThread_thread_ne _ hu]⟩
    · exact .inl (by simp [h, State.modThread_thread_ne _ hu, State.modThread_thread_ne _ huw])

@[simp] theorem release_tmode (l : LockId) (t u : Tid) (s : State) :
    ((release l t s).thread u).tmode = (s.thread u).tmode := by
  rcases release_cases l t s with ⟨-, h⟩ | ⟨-, -, h⟩ | ⟨-, w, -, h⟩ <;> rw [h]
  · simp only [State.modThread_thread]
    split <;> simp
  · simp only [State.setLockBit_thread, State.modThread_thread]
    split <;> split <;> simp

/-- A registration keeps the thread mode. -/
@[simp] theorem raise_tmode (t u : Tid) (e : Event) (c : BitVec 8) (a : Addr) (s : State) :
    ((raise t e c a s).thread u).tmode = (s.thread u).tmode := by
  rw [raise_thread]
  split <;> rfl

/-- A registration leaves every other thread alone (spec/60_exceptions.md R243). -/
theorem raise_thread_ne {t u : Tid} (hu : u ≠ t) (e : Event) (c : BitVec 8) (a : Addr) (s : State) :
    (raise t e c a s).thread u = s.thread u := by rw [raise_thread, if_neg hu]

/-- The broadcast does nothing to a slot that stands for no thread (spec/60_exceptions.md R260). -/
theorem broadcastTo_absent {n : Nat} {u : Tid} (hu : ¬u.val < n) (evb : Word) (t : Tid) (c : BitVec 8) (th : Thread) :
    broadcastTo n evb t c u th = th := if_neg fun h => hu h.1

/-- A MODECTL write does nothing to a slot that stands for no thread (spec/43_sreg.md R234). -/
theorem modectlThread_absent {p : Params} {u : Tid} (hu : ¬u.val < p.numThreads) (evb : Word) (k : Nat) (t : Tid)
    (v : Word) (th : Thread) : modectlThread p evb k t v u th = th := if_pos (Nat.le_of_not_lt hu)

/-- A MODECTL write keeps the writer's own mode until its COMMIT (spec/43_sreg.md R234). -/
@[simp] theorem modectlThread_tmode_self (p : Params) (evb : Word) (k : Nat) (t : Tid) (v : Word) (th : Thread) :
    (modectlThread p evb k t v t th).tmode = th.tmode := by
  unfold modectlThread
  rw [if_pos rfl]
  split <;> rfl

@[simp] theorem sregWrite_fatal (t : Tid) (r : SReg) (v : Word) (s : State) : (sregWrite t r v s).fatal = s.fatal := by
  cases r <;> rfl

/-- Of the system registers MODECTL alone reaches the other threads (spec/43_sreg.md R230, R234). -/
theorem sregWrite_thread_ne {t u : Tid} (hu : u ≠ t) (r : SReg) (v : Word) (s : State) :
    (sregWrite t r v s).thread u = s.thread u ∨
      (sregWrite t r v s).thread u = modectlThread s.cfg s.evb s.draws t v u (s.thread u) := by
  cases r
  case modectl => exact .inr (modectlWrite_thread t v s u)
  all_goals exact .inl (by simp [sregWrite, State.modThread_thread_ne _ hu])

@[simp] theorem sregWrite_tmode (t : Tid) (r : SReg) (v : Word) (s : State) :
    ((sregWrite t r v s).thread t).tmode = (s.thread t).tmode := by
  cases r <;> simp [sregWrite]

/-- A dispatch reaches another thread by the broadcast of an IMPRECISE event only (spec/60_exceptions.md R260). -/
theorem dispatch_thread_ne {t u : Tid} {n : Word} {l : Latch} {s m : State} (hu : u ≠ t)
    (h : dispatch t n l s = .next m) :
    m.thread u = s.thread u ∨ ∃ c, m.thread u = broadcastTo s.cfg.numThreads s.evb t c u (s.thread u) := by
  rw [dispatch_eq] at h
  generalize overrideDouble (s.thread t) l = q at h
  obtain ⟨-, ⟨-, rfl⟩ | ⟨hm, -, rfl⟩ | ⟨-, -, rfl⟩⟩ := branchEvent_next h
  · rw [takeEvent_thread_ne hu, State.setThread_thread_ne _ hu]
    split
    · exact .inr ⟨_, rfl⟩
    · exact .inl rfl
  · have hi : q.2.event ≠ .imprecise := fun he => by rw [he] at hm; cases hm
    exact .inl (by rw [takeEvent_thread_ne hu, if_neg hi, acquire_thread_ne hu, State.setThread_thread_ne _ hu])
  · exact .inl (by rw [State.modThread_thread_ne _ hu, acquire_thread_ne hu, State.setThread_thread_ne _ hu])

/-- A dispatch empties the latch of its thread, or leaves the thread in miss_wait (spec/60_exceptions.md R253, R263). -/
theorem dispatch_latch {t : Tid} {n : Word} {l : Latch} {s m : State} (h : dispatch t n l s = .next m) :
    (m.thread t).missWait = true ∨ (m.thread t).latch = none := by
  rw [dispatch_eq] at h
  obtain ⟨-, ⟨-, rfl⟩ | ⟨-, -, rfl⟩ | ⟨-, -, rfl⟩⟩ := branchEvent_next h
  · exact .inr (by rw [takeEvent_thread_self])
  · exact .inr (by rw [takeEvent_thread_self])
  · exact .inl (by rw [State.modThread_thread_self])

@[simp] theorem endBundle_latch (c : Word) (th : Thread) : (endBundle c th).latch = th.latch := by
  unfold endBundle
  split
  · rfl
  · split <;> rfl

/-! ### What a command leaves of the block -/

/-- A command that gives a next state has not stopped the block (spec/60_exceptions.md R275). -/
theorem Effect.fatal {i : Instr} {s m : State} (h : Effect i s m) : m.fatal = s.fatal := by
  cases h with
  | dispatched t c s m l h hl hd => exact (congrArg State.fatal (dispatch_frame hd) :)
  | acquired => simp
  | retried => simp
  | released => simp
  | written => simp
  | _ => rfl

/-- What a command can do to a thread that is not its own: make it the owner of a lock, write its mode by MODECTL, or
redirect it by the broadcast (spec/41_lock.md R182, spec/43_sreg.md R234, spec/60_exceptions.md R260). -/
theorem Effect.thread_ne {i : Instr} {s m : State} {u : Tid} (h : Effect i s m) (ht : s.hasThread i.tid) (hu : u ≠ i.tid) :
    m.thread u = s.thread u ∨
    (∃ l, s.hasThread u ∧ m.thread u = setLockState l .owner (s.thread u)) ∨
    (∃ v, m.thread u = modectlThread s.cfg s.evb s.draws i.tid v u (s.thread u)) ∨
    ∃ c, m.thread u = broadcastTo s.cfg.numThreads s.evb i.tid c u (s.thread u) := by
  cases h with
  | keep => exact .inl rfl
  | faulted => exact .inl (raise_thread_ne hu ..)
  | store => exact .inl rfl
  | multiMatch => exact .inl (raise_thread_ne hu ..)
  | acquired l t =>
    rw [lockInstr_tid] at hu
    exact .inl (acquire_thread_ne hu l s)
  | retried l t =>
    rw [lockInstr_tid] at hu
    exact .inl (by rw [State.modThread_thread_ne _ hu, acquire_thread_ne hu])
  | released l t =>
    rw [unlockInstr_tid] at ht hu
    exact (release_thread_ne ht hu l).imp id fun h => .inl ⟨l, h⟩
  | missed => exact .inl (raise_thread_ne hu ..)
  | raised => exact .inl (raise_thread_ne hu ..)
  | interrupted t =>
    have hut : u ≠ t := hu
    exact .inl (by rw [enter, State.modThread_thread_ne _ hut, State.modThread_thread_ne _ hut])
  | returning t => exact .inl (State.modThread_thread_ne _ hu _)
  | cycles => exact .inl rfl
  | written t r v => exact (sregWrite_thread_ne hu r v s).imp id fun h => .inr (.inl ⟨v, h⟩)
  | ended t c =>
    have hut : u ≠ t := hu
    exact .inl (by rw [State.modThread_thread_ne _ hut, State.modThread_thread_ne _ hut])
  | dispatched t c s m l h hl hd =>
    have hut : u ≠ t := hu
    rw [State.modThread_thread_ne _ hut]
    exact (dispatch_thread_ne hu hd).imp id fun h => .inr (.inr h)

/-- The thread of an admitted command runs (spec/30_encoding.md R122 step 4). -/
theorem Admitted.running {i : Instr} {s : State} (h : Admitted i s) : (s.thread i.tid).tmode = .run := h.2.1

/-- A command other than COMMIT and RAISE_INT leaves the block as it was, or its thread runs after it: only a running
thread's command has an effect (spec/30_encoding.md R122 step 4). -/
theorem Effect.keeps_or_runs {i : Instr} {s m : State} (h : Effect i s m) (hc : i.isCommit = false)
    (hi : i.isInterrupt = false) : m = s ∨ (m.thread i.tid).tmode = .run := by
  cases h with
  | keep => exact .inl rfl
  | faulted _ _ _ _ _ ht => exact .inr (by rwa [raise_tmode])
  | store _ _ h => exact .inr h.running
  | multiMatch _ _ _ _ h => exact .inr (by rw [raise_tmode]; exact h.running)
  | acquired l t _ h => exact .inr (by simpa using h.running)
  | retried l t _ h => exact .inr (by simpa using h.running)
  | released l t _ h => exact .inr (by rw [release_tmode]; exact h.running)
  | missed _ _ _ _ _ h => exact .inr (by rw [raise_tmode]; exact h.running)
  | raised _ _ h => exact .inr (by rw [raise_tmode]; exact h.running)
  | interrupted => cases hi
  | returning t _ h => exact .inr (by simpa [Instr.tid] using h.running)
  | cycles _ _ _ h => exact .inr h.running
  | written t r v _ h => exact .inr (by simpa [Instr.tid] using h.running)
  | ended => cases hc
  | dispatched => cases hc

/-! ### The items that fit in a bundle -/

/-- The items that may fall inside the bundle of thread `t`: its commands, interrupts for other threads, and malformed words
(spec/00_scope.md R8). -/
theorem fitsInBundle_iff {n : Nat} {t : Tid} {x : Input} :
    fitsInBundle n t x = true ↔ ∃ k, x = .command k ∧
      ∀ j, decode n k = .ok j → (j.isInterrupt = true ∧ j.tid ≠ t) ∨ (j.isInterrupt = false ∧ j.tid = t) := by
  cases x with
  | command k =>
    cases hd : decode n k with
    | error e => simp [fitsInBundle, hd]
    | ok i => cases hi : i.isInterrupt <;> simp [fitsInBundle, hd, hi]
  | _ => simp [fitsInBundle]

/-- An item may come when it fits in the bundle that is open, if one is. -/
theorem mayCome_iff {n : Nat} {b : Option Tid} {x : Input} :
    mayCome n b x = true ↔ ∀ t, b = some t → fitsInBundle n t x = true := by
  cases b <;> simp [mayCome]

/-- A command that may come inside a bundle is an interrupt for another thread, or one of the bundle's thread. -/
theorem mayCome_command {n : Nat} {b : Option Tid} {k : Command} {i : Instr} {t : Tid}
    (h : mayCome n b (.command k) = true) (hd : decode n k = .ok i) (hb : b = some t) :
    (i.isInterrupt = true ∧ i.tid ≠ t) ∨ (i.isInterrupt = false ∧ i.tid = t) := by
  obtain ⟨k', hk, hall⟩ := fitsInBundle_iff.mp (mayCome_iff.mp h t hb)
  cases hk
  exact hall i hd

theorem bundleAfter_error {n : Nat} {k : Command} {e : DecodeError} (h : decode n k = .error e) (b : Option Tid) :
    bundleAfter n b (.command k) = b := by simp only [bundleAfter, h]

theorem bundleAfter_ok {n : Nat} {k : Command} {i : Instr} (h : decode n k = .ok i) (b : Option Tid) :
    bundleAfter n b (.command k) = if i.isInterrupt then b else if i.isCommit then none else some i.tid := by
  simp only [bundleAfter, h]

theorem ordered_cons {n : Nat} {b : Option Tid} {x : Input} {l : List Input} :
    ordered n b (x :: l) = true ↔ mayCome n b x = true ∧ ordered n (bundleAfter n b x) l = true := by
  simp [ordered]

/-! ### The slots that stand for no thread -/

/-- A command of a thread that exists leaves every slot that stands for none (spec/10_state.md R20). -/
theorem Effect.thread_absent {i : Instr} {s m : State} {u : Tid} (h : Effect i s m) (ht : s.hasThread i.tid)
    (hu : ¬s.hasThread u) : m.thread u = s.thread u := by
  have hne : u ≠ i.tid := fun he => hu (he ▸ ht)
  rcases h.thread_ne ht hne with h | ⟨l, hx, -⟩ | ⟨v, h⟩ | ⟨c, h⟩
  · exact h
  · exact absurd hx hu
  · rw [h, modectlThread_absent hu]
  · rw [h, broadcastTo_absent hu]

/-- An image has one register set for each thread, so its writing leaves the other slots (spec/20_memory.md R105). -/
theorem serveImageWrite_thread_absent {bytes : List (BitVec 8)} {g : RegImage} {s s' : State} {u : Tid}
    (h : serveImageWrite bytes g s = .next s') (hu : ¬s.hasThread u) : s'.thread u = s.thread u := by
  unfold serveImageWrite at h
  split at h
  · cases h
  split at h
  · cases h
  next hg =>
  have hlen : g.threads.length = s.cfg.numThreads := by
    by_contra hne
    exact hg (.inr hne)
  rw [← Host.Outcome.next.inj h]
  calc (s.mapThreads fun u th => g.threads.getD u.val th).thread u
      = g.threads.getD u.val (s.thread u) := State.mapThreads_thread s _ u
    _ = s.thread u := List.getD_eq_default _ _ (by omega)

/-- No item touches a slot that stands for no thread (spec/10_state.md R20). -/
theorem serve_thread_absent {x : Input} {s s' : State} {u : Tid} (h : serve x s = .next s') (hu : ¬s.hasThread u) :
    s'.thread u = s.thread u := by
  rcases serve_next h with ⟨k, i, -, hd, h⟩ | ⟨k, e, code, -, -, rfl⟩ | ⟨-, rfl⟩ |
    ⟨t, -, ht, ⟨-, rfl⟩ | ⟨-, rfl⟩⟩ | ⟨-, -, rfl⟩ | ⟨b, g, -, h⟩
  · obtain ⟨m, code, r, hm, rfl⟩ := effect_of_exec h
    exact hm.thread_absent (decode_tid_lt hd) hu
  · rfl
  · rw [State.thread_resp, coreReset_thread]
    exact if_neg hu
  · rfl
  · exact threadReset_thread_ne (fun he => hu (by rwa [he])) s
  · rfl
  · exact serveImageWrite_thread_absent h hu

/-- Settles O54: a step serves one item, which keeps the parameters and touches the threads that exist alone. -/
theorem stepKeepsParametersAndAbsentThreads : Obligations.StepKeepsParametersAndAbsentThreads := by
  intro s s' h
  obtain ⟨x, rest, -, hs⟩ := step_next h
  exact ⟨(serve_frame hs).1, fun u hu => (serve_thread_absent hs hu :)⟩

/-! ### Threads between their bundles -/

/-- What a thread holds between its bundles: a clear bundle, and an empty latch or the wait of a TLB miss
(spec/60_exceptions.md R242, spec/42_event_cmds.md R206). -/
def Thread.AtRest (th : Thread) : Prop := th.bundle = .clear ∧ (th.missWait = true ∨ th.latch = none)

/-- Every thread is at rest, but that thread `b` may be inside its bundle, and then runs. -/
def Resting (b : Option Tid) (s : State) : Prop :=
  ∀ t, s.hasThread t → (s.thread t).AtRest ∨ (b = some t ∧ (s.thread t).tmode = .run)

theorem bundleInv_iff (s : State) : BundleInv s ↔ (s.fatal = none → Resting s.inBundle s) := Iff.rfl

theorem Thread.AtRest.setLockState {th : Thread} (h : th.AtRest) (l : LockId) (v : LockState) :
    (setLockState l v th).AtRest := by simpa [Thread.AtRest] using h

theorem resetThread_atRest (p : Params) (evb : Word) (k : Nat) (th : Thread) : (resetThread p evb k th).AtRest :=
  ⟨rfl, .inr rfl⟩

theorem coreResetThread_atRest {p : Params} {u : Tid} (hu : u.val < p.numThreads) (k : Nat) (th : Thread) :
    (coreResetThread p k u th).AtRest := by
  unfold coreResetThread
  rw [if_pos hu]
  exact resetThread_atRest ..

/-- A MODECTL write resets another thread or sets its mode (spec/43_sreg.md R234). -/
theorem Thread.AtRest.modectlThread {th : Thread} {t u : Tid} (h : th.AtRest) (hu : u ≠ t) (p : Params) (evb : Word)
    (k : Nat) (v : Word) : (modectlThread p evb k t v u th).AtRest := by
  unfold Machine.modectlThread
  rw [if_neg hu]
  split
  · exact h
  split
  · exact ⟨rfl, .inr rfl⟩
  · exact h

/-- The broadcast discards the bundle and the latch of a thread it redirects (spec/60_exceptions.md R260). -/
theorem Thread.AtRest.broadcastTo {th : Thread} (h : th.AtRest) (n : Nat) (evb : Word) (t : Tid) (c : BitVec 8) (u : Tid) :
    (broadcastTo n evb t c u th).AtRest := by
  unfold Machine.broadcastTo
  split
  · exact ⟨rfl, .inr rfl⟩
  · exact h

/-- A command leaves the other threads at rest. -/
theorem Effect.atRest_ne {i : Instr} {s m : State} {u : Tid} (h : Effect i s m) (ht : s.hasThread i.tid) (hu : u ≠ i.tid)
    (hr : (s.thread u).AtRest) : (m.thread u).AtRest := by
  rcases h.thread_ne ht hu with h | ⟨l, -, h⟩ | ⟨v, h⟩ | ⟨c, h⟩ <;> rw [h]
  · exact hr
  · exact hr.setLockState l .owner
  · exact hr.modectlThread hu ..
  · exact hr.broadcastTo ..

/-- Where no thread but `t` is inside its bundle, the others are at rest. -/
theorem Resting.others {b : Option Tid} {s : State} {t u : Tid} (h : Resting b s) (hb : ∀ v, b = some v → t = v)
    (hx : s.hasThread u) (hu : u ≠ t) : (s.thread u).AtRest :=
  (h u hx).resolve_right fun hr => hu (hb u hr.1).symm

/-! ### What each command leaves at rest -/

/-- A command of a thread that does not run is turned away (spec/30_encoding.md R122 step 4). -/
theorem whenAdmitted_of_not_run {c : Admission} {t : Tid} {s : State} (hf : s.fatal = none)
    (ht : (s.thread t).tmode ≠ .run) (run : State → Out) : whenAdmitted c t s run = answer .rejected 0 s := by
  unfold whenAdmitted
  rw [if_neg (by simp [hf]), if_pos ht]

/-- COMMIT in a block that is not stopped: a thread that does not run is turned away; any other ends its bundle, a latched
event being dispatched (spec/42_event_cmds.md R206). -/
theorem commit_ends {t : Tid} {c : Word} {s s' : State} (h : exec (.commit t c) s = .next s') (hf : s.fatal = none) :
    ((s.thread t).tmode ≠ .run ∧ s' = s.respond .rejected 0) ∨
      ∃ (m : State) (r : BitVec 64), ((m.thread t).missWait = true ∨ (m.thread t).latch = none) ∧
        s' = (m.modThread t fun th => { th with bundle := .clear }).respond .ok r := by
  by_cases ht : (s.thread t).tmode = .run
  · right
    have ha : Admitted (.commit t c) s := ⟨hf, ht, .inl rfl, nofun, nofun⟩
    rw [exec_commit, ha.run] at h
    split at h
    next l hl =>
      obtain ⟨m, hd, hm⟩ := andThen_next.mp h
      rw [finishCommit_eq] at hm
      exact ⟨m, _, dispatch_latch hd, (Host.Outcome.next.inj hm).symm⟩
    next hl =>
      rw [finishCommit_eq] at h
      exact ⟨_, _, .inr (by simpa using hl), (Host.Outcome.next.inj h).symm⟩
  · rw [exec_commit, whenAdmitted_of_not_run hf ht] at h
    exact .inl ⟨ht, (answer_next.mp h).symm⟩

/-- COMMIT leaves its thread at rest (spec/42_event_cmds.md R206). -/
theorem commit_atRest {t : Tid} {c : Word} {s s' : State} (h : exec (.commit t c) s = .next s') (hf : s.fatal = none)
    (hr : (s.thread t).AtRest ∨ (s.thread t).tmode = .run) : (s'.thread t).AtRest := by
  rcases commit_ends h hf with ⟨ht, rfl⟩ | ⟨m, r, hl, rfl⟩
  · exact hr.resolve_right ht
  · rw [State.respond_thread, State.modThread_thread_self]
    exact ⟨rfl, hl⟩

/-- An interrupt leaves every thread alone but its own, which it may redirect (spec/60_exceptions.md R266). -/
theorem interrupt_thread {t : Tid} {n : Fin 16} {s s' : State} (h : exec (.raiseInt t n) s = .next s') (u : Tid) :
    s'.thread u = s.thread u ∨
      (u = t ∧ s'.thread u = enterThread s.evb (.int n) (0xC0#8 + BitVec.ofNat 8 n.val) (s.thread u).pc
        { s.thread u with tmode := .run }) := by
  rw [exec_raiseInt] at h
  unfold execRaiseInt at h
  split at h
  · exact .inl (by rw [← answer_next.mp h, State.respond_thread])
  split at h
  · by_cases hu : u = t
    · subst hu
      refine .inr ⟨rfl, ?_⟩
      rw [← answer_next.mp h, State.respond_thread, enter, State.modThread_thread_self, State.modThread_thread_self]
      rfl
    · left
      rw [← answer_next.mp h, State.respond_thread, enter, State.modThread_thread_ne _ hu, State.modThread_thread_ne _ hu]
  · exact .inl (by rw [← answer_next.mp h, State.respond_thread])

/-- An interrupt keeps the bundle, the latch and miss_wait of every thread. -/
theorem interrupt_atRest {t u : Tid} {n : Fin 16} {s s' : State} (h : exec (.raiseInt t n) s = .next s')
    (hr : (s.thread u).AtRest) : (s'.thread u).AtRest := by
  rcases interrupt_thread h u with h | ⟨-, h⟩ <;> rw [h] <;> exact hr

/-- A command that comes in an order of R8 keeps the threads at rest, but for the one inside its bundle after it. -/
theorem exec_keeps_resting {b : Option Tid} {k : Command} {i : Instr} {s s' : State}
    (hm : mayCome s.cfg.numThreads b (.command k) = true) (hd : decode s.cfg.numThreads k = .ok i)
    (he : exec i s = .next s') (hf : s.fatal = none) (h : Resting b s) :
    Resting (bundleAfter s.cfg.numThreads b (.command k)) s' := by
  obtain ⟨m, code, r, hE, rfl⟩ := effect_of_exec he
  have ht : s.hasThread i.tid := decode_tid_lt hd
  have hcfg : m.cfg = s.cfg := hE.frame.1
  have hb := fun v => mayCome_command (t := v) hm hd
  rw [bundleAfter_ok hd]
  intro u hu
  have hx : s.hasThread u := by rwa [State.hasThread, State.respond_cfg, hcfg] at hu
  cases hi : i.isInterrupt with
  | true =>
    obtain ⟨t, n, rfl⟩ := Instr.isInterrupt_iff.mp hi
    rcases h u hx with hr | ⟨rfl, hrun⟩
    · exact .inl (interrupt_atRest he hr)
    · have hut : u ≠ t := by simpa [hi, Instr.tid, eq_comm] using hb u rfl
      have hsame : m.thread u = s.thread u := (interrupt_thread he u).resolve_right fun hr => hut hr.1
      exact .inr ⟨rfl, by rwa [State.respond_thread, hsame]⟩
  | false =>
    have own : ∀ v, b = some v → i.tid = v := fun v hv => by simpa [hi] using hb v hv
    have self : (s.thread i.tid).AtRest ∨ (s.thread i.tid).tmode = .run := (h i.tid ht).imp id And.right
    by_cases hui : u = i.tid
    · subst hui
      cases hc : i.isCommit with
      | true =>
        obtain ⟨t, c, rfl⟩ := Instr.isCommit_iff.mp hc
        exact .inl (commit_atRest he hf self)
      | false =>
        rcases hE.keeps_or_runs hc hi with rfl | hrun
        · exact self.imp id fun hrun => ⟨rfl, hrun⟩
        · exact .inr ⟨rfl, hrun⟩
    · exact .inl (hE.atRest_ne ht hui (h.others own hx hui))

/-- An item that comes in an order of R8, an image write apart, keeps the threads at rest, but for the one inside its bundle
after it, unless the block is stopped. -/
theorem serve_keeps_resting {b : Option Tid} {x : Input} {s s' : State} (hs : serve x s = .next s')
    (hw : ∀ bytes g, x ≠ .imageWrite bytes g) (hm : mayCome s.cfg.numThreads b x = true) (h : s.fatal = none → Resting b s)
    (hf : s'.fatal = none) : Resting (bundleAfter s.cfg.numThreads b x) s' := by
  rcases serve_next hs with ⟨k, i, rfl, hd, he⟩ | ⟨k, e, code, rfl, hd, rfl⟩ | ⟨rfl, rfl⟩ |
    ⟨t, rfl, -, ⟨hstop, rfl⟩ | ⟨hrun, rfl⟩⟩ | ⟨rfl, -, rfl⟩ | ⟨bytes, g, rfl, -⟩
  · obtain ⟨m, code, r, hE, rfl⟩ := effect_of_exec he
    have hf' : s.fatal = none := hE.fatal ▸ hf
    exact exec_keeps_resting hm hd he hf' (h hf')
  · rw [bundleAfter_error hd]
    exact h hf
  · intro u hu
    rw [State.thread_resp, coreReset_thread]
    exact .inl (coreResetThread_atRest hu ..)
  · exact absurd hf hstop
  · have closed : b = none := by
      cases b with
      | none => rfl
      | some v => cases hm
    intro u hu
    rw [State.thread_resp]
    by_cases hut : u = t
    · subst hut
      rw [threadReset_thread_self]
      exact .inl (resetThread_atRest ..)
    · rw [threadReset_thread_ne hut]
      exact h hrun u hu
  · exact h hf
  · exact absurd rfl (hw bytes g)

/-- A step takes the first item off the port, and what is left to serve stays ordered. -/
theorem step_keeps_ordered {s s' : State} (ho : s.Ordered) (h : step s = .next s') : s'.Ordered := by
  obtain ⟨x, rest, hp, hs⟩ := step_next h
  obtain ⟨hcfg, hport, hin⟩ := serve_frame hs
  rw [State.Ordered, hp, ordered_cons] at ho
  rw [State.Ordered, hcfg, hport, hin]
  exact ho.2

/-- Settles O52: the item that a step serves may come, so it keeps the threads outside a bundle at rest. -/
theorem stepKeepsLatchesEmptyBetweenBundles : Obligations.StepKeepsLatchesEmptyBetweenBundles := by
  intro s s' ho h
  refine ⟨step_keeps_ordered ho h, fun hw hinv => ?_⟩
  obtain ⟨x, rest, hp, hs⟩ := step_next h
  rw [State.Ordered, hp, ordered_cons] at ho
  have hx : ∀ bytes g, x ≠ .imageWrite bytes g := fun bytes g he => hw bytes g rest (he ▸ hp)
  rw [bundleInv_iff, (serve_frame hs).2.2]
  exact (serve_keeps_resting (b := s.inBundle) hs hx ho.1 hinv :)

/-! ### Contiguous bundles

`ordered` recurses over the items; the rule of R8 speaks of positions among them. The two agree because what the rule asks of
`x :: l` splits into what it asks of `x` and of `l`. -/

/-- The item is a command of thread `t` that opens its bundle or goes on with it (spec/00_scope.md R8). -/
def Opens (n : Nat) (t : Tid) (x : Input) : Prop :=
  ∃ k i, x = .command k ∧ decode n k = .ok i ∧ i.isCommit = false ∧ i.isInterrupt = false ∧ i.tid = t

/-- The item is a COMMIT of thread `t`. -/
def Ends (n : Nat) (t : Tid) (x : Input) : Prop := ∃ k p, x = .command k ∧ decode n k = .ok (.commit t p)

/-- Every item up to the first COMMIT of thread `t`, and that COMMIT, fits in the bundle of `t`. -/
def FitsUntilCommit (n : Nat) (t : Tid) (l : List Input) : Prop :=
  ∀ (b : Nat) (x : Input), l[b]? = some x → (∀ (c : Nat) (z : Input), c < b → l[c]? = some z → ¬Ends n t z) →
    fitsInBundle n t x = true

/-- From each command that opens a bundle, the items fit in that bundle until its COMMIT. -/
def BundlesContiguous (n : Nat) (l : List Input) : Prop :=
  ∀ (a b : Nat) (t : Tid) (y x : Input), a < b → l[a]? = some y → Opens n t y → l[b]? = some x →
    (∀ (c : Nat) (z : Input), a < c → c < b → l[c]? = some z → ¬Ends n t z) → fitsInBundle n t x = true

theorem fitsUntilCommit_cons {n : Nat} {t : Tid} {x : Input} {l : List Input} :
    FitsUntilCommit n t (x :: l) ↔ fitsInBundle n t x = true ∧ (¬Ends n t x → FitsUntilCommit n t l) := by
  constructor
  · intro h
    refine ⟨h 0 x rfl (fun c _ hc _ => absurd hc (Nat.not_lt_zero c)), fun hx b y hy hno => h (b + 1) y hy ?_⟩
    intro c z hc hz
    cases c with
    | zero => cases hz; exact hx
    | succ c => exact hno c z (Nat.lt_of_succ_lt_succ hc) hz
  · rintro ⟨hx, h⟩ b y hy hno
    cases b with
    | zero => cases hy; exact hx
    | succ b => exact h (hno 0 x (Nat.succ_pos b) rfl) b y hy fun c z hc hz => hno (c + 1) z (Nat.succ_lt_succ hc) hz

theorem bundlesContiguous_cons {n : Nat} {x : Input} {l : List Input} :
    BundlesContiguous n (x :: l) ↔ (∀ t, Opens n t x → FitsUntilCommit n t l) ∧ BundlesContiguous n l := by
  constructor
  · intro h
    constructor
    · intro t ht b y hy hno
      refine h 0 (b + 1) t x y (Nat.succ_pos b) rfl ht hy fun c z hc hcb hz => ?_
      obtain ⟨c, rfl⟩ := Nat.exists_eq_add_of_lt hc
      rw [Nat.zero_add] at hcb hz
      exact hno c z (Nat.lt_of_succ_lt_succ hcb) hz
    · intro a b t y z hab hy ht hz hno
      refine h (a + 1) (b + 1) t y z (Nat.succ_lt_succ hab) hy ht hz fun c w hc hcb hw => ?_
      cases c with
      | zero => exact absurd hc (Nat.not_lt_zero _)
      | succ c => exact hno c w (Nat.lt_of_succ_lt_succ hc) (Nat.lt_of_succ_lt_succ hcb) hw
  · rintro ⟨hx, h⟩ a b t y z hab hy ht hz hno
    obtain ⟨b, rfl⟩ : ∃ b', b = b' + 1 := ⟨b - 1, by omega⟩
    cases a with
    | zero =>
      cases hy
      exact hx t ht b z hz fun c w hc hw => hno (c + 1) w (Nat.succ_pos c) (Nat.succ_lt_succ hc) hw
    | succ a =>
      exact h a b t y z (Nat.lt_of_succ_lt_succ hab) hy ht hz
        fun c w hc hcb hw => hno (c + 1) w (Nat.succ_lt_succ hc) (Nat.succ_lt_succ hcb) hw

/-- Thread `t` is inside its bundle after an item that may come when the item is its command, or when it was inside and the
item is not its COMMIT. -/
theorem bundleAfter_eq_some_iff {n : Nat} {b : Option Tid} {x : Input} {t : Tid} (h : mayCome n b x = true) :
    bundleAfter n b x = some t ↔ Opens n t x ∨ (b = some t ∧ ¬Ends n t x) := by
  have transfer : (∀ k, x ≠ .command k) → b ≠ some t := fun hx hb => by
    obtain ⟨k, hk, -⟩ := fitsInBundle_iff.mp (mayCome_iff.mp h t hb)
    exact hx k hk
  cases x with
  | command k =>
    cases hd : decode n k with
    | error e => simp [bundleAfter_error hd, Opens, Ends, hd]
    | ok i =>
      rw [bundleAfter_ok hd]
      cases hi : i.isInterrupt with
      | true =>
        obtain ⟨u, m, rfl⟩ := Instr.isInterrupt_iff.mp hi
        simp [Opens, Ends, hd, hi]
      | false =>
        have own : b = some t → i.tid = t := fun hb => by simpa [hi] using mayCome_command h hd hb
        cases hc : i.isCommit with
        | true =>
          obtain ⟨u, c, rfl⟩ := Instr.isCommit_iff.mp hc
          simpa [Opens, Ends, hd, hc, Instr.tid] using own
        | false =>
          simpa [Opens, Ends, hd, hc, hi] using fun hb _ => own hb
  | _ => simp [bundleAfter, Opens, transfer nofun]

/-- The items are ordered when they fit in the bundle that is open until its COMMIT, and in each bundle they open. -/
theorem ordered_iff {n : Nat} {l : List Input} {b : Option Tid} :
    ordered n b l = true ↔ (∀ t, b = some t → FitsUntilCommit n t l) ∧ BundlesContiguous n l := by
  induction l generalizing b with
  | nil => simp [ordered, FitsUntilCommit, BundlesContiguous]
  | cons x l ih =>
    rw [ordered_cons, ih, bundlesContiguous_cons]
    constructor
    · rintro ⟨hm, hopen, hl⟩
      refine ⟨fun t hb => fitsUntilCommit_cons.mpr ⟨mayCome_iff.mp hm t hb, fun hx => ?_⟩, fun t ht => ?_, hl⟩
      · exact hopen t ((bundleAfter_eq_some_iff hm).mpr (.inr ⟨hb, hx⟩))
      · exact hopen t ((bundleAfter_eq_some_iff hm).mpr (.inl ht))
    · rintro ⟨hopen, hx, hl⟩
      have hm : mayCome n b x = true := mayCome_iff.mpr fun t hb => (fitsUntilCommit_cons.mp (hopen t hb)).1
      refine ⟨hm, fun t ht => ?_, hl⟩
      rcases (bundleAfter_eq_some_iff hm).mp ht with ht | ⟨hb, hend⟩
      · exact hx t ht
      · exact (fitsUntilCommit_cons.mp (hopen t hb)).2 hend

/-- Settles O6, by induction on the items: with no bundle open, the order is that every bundle is contiguous. -/
theorem orderedItemsKeepBundlesContiguous : Obligations.OrderedItemsKeepBundlesContiguous := by
  intro n l
  rw [ordered_iff]
  constructor
  · rintro ⟨-, h⟩ a b k i x hab hk hd hc hi hx hno
    refine fitsInBundle_iff.mp (h a b i.tid _ x hab hk ⟨k, i, rfl, hd, hc, hi, rfl⟩ hx ?_)
    rintro c z hac hcb hz ⟨k', p, rfl, hend⟩
    exact hno c k' p hac hcb hz hend
  · intro h
    refine ⟨nofun, ?_⟩
    rintro a b t y x hab hy ⟨k, i, rfl, hd, hc, hi, rfl⟩ hx hno
    refine fitsInBundle_iff.mpr (h a b k i x hab hy hd hc hi hx fun c k' p hac hcb hz hend => ?_)
    exact hno c _ hac hcb hz ⟨k', p, rfl, hend⟩

end Machine

end Sys2Proof
end

section
/-! PROOFS. The family of spec/10_state.md: the status fields and the privilege mode (R23, R30, R36), the TLB store (R22), who
writes PC and SSR (R29, R43), the merged BADVA (R33), and the latch and miss_wait (R39, R41). -/

namespace Sys2Proof.Machine

/-! ### The status fields -/

/-- Writing SSR.CAUSE replaces the low byte (spec/10_state.md R30). -/
theorem ssrSetCause_toNat (v : Word) (c : BitVec 8) : (ssrSetCause v c).toNat = v.toNat / 256 * 256 + c.toNat := by
  have hlt : v.toNat / 256 < 2 ^ 24 := by have := v.isLt; omega
  calc (ssrSetCause v c).toNat
      = (v.toNat >>> 8 % 2 ^ 24) <<< 8 ||| c.toNat := by
        rw [ssrSetCause, BitVec.toNat_append, BitVec.extractLsb'_toNat]
    _ = (v.toNat / 256 % 2 ^ 24) <<< 8 + c.toNat := by
        rw [← Nat.shiftLeft_add_eq_or_of_lt c.isLt, Nat.shiftRight_eq_div_pow]
    _ = v.toNat / 256 * 256 + c.toNat := by rw [Nat.mod_eq_of_lt hlt, Nat.shiftLeft_eq]

/-- A bit of SYSCFG after a lock's bit is written (spec/10_state.md R23). -/
theorem syscfgSetLock_getLsbD (l : LockId) (v : Word) (b : Bool) (j : Nat) :
    (syscfgSetLock l v b).getLsbD j = if j = lockBitIndex l then b else v.getLsbD j :=
  putBit_getLsbD v _ b j (lockBitIndex_lt l)

/-- The privilege mode is read off EX, UM and GM (spec/10_state.md R36). -/
theorem privMode_iff (v : Word) :
    (privMode v = .kernel ↔ ssrEx v = true ∨ ssrUm v = false) ∧
      (privMode v = .guest ↔ ssrEx v = false ∧ ssrUm v = true ∧ ssrGm v = true) ∧
      (privMode v = .user ↔ ssrEx v = false ∧ ssrUm v = true ∧ ssrGm v = false) := by
  unfold privMode
  by_cases hk : ssrEx v = true ∨ ssrUm v = false
  · rw [if_pos (by simpa using hk)]
    rcases hk with hx | hu
    · simp [hx]
    · simp [hu]
  · obtain ⟨hx, hu⟩ : ssrEx v = false ∧ ssrUm v = true := by simpa using hk
    rw [if_neg (by simp [hx, hu])]
    cases hg : ssrGm v <;> simp [hx, hu]

/-- Settles O42: a field is a bit or a byte of the word's number, and the mode is read off EX, UM and GM. -/
theorem statusFieldsStandAtTheirBits : Obligations.StatusFieldsStandAtTheirBits := by
  refine ⟨fun v => ?_, fun v c b v0 v1 bvs => ⟨ssrSetCause_toNat v c, fun j _ => ?_⟩, fun s t => ?_⟩
  · refine ⟨by simp [ssrCause], by simp [ssrAsid, Nat.shiftRight_eq_div_pow], rfl, rfl, rfl, rfl, rfl, rfl, rfl, rfl, rfl,
      rfl, rfl⟩
  · refine ⟨ssrSetEx_getLsbD v b j, ?_, syscfgSetLock_getLsbD .tlb v b j, syscfgSetLock_getLsbD .k0 v b j⟩
    rw [ssrSetBadva_getLsbD]
    by_cases h20 : j = 20
    · simp [h20]
    · by_cases h21 : j = 21 <;> simp [h20, h21]
  · exact privMode_iff (s.thread t).ssr

/-! ### The TLB store -/

@[simp] theorem acquire_tlb (l : LockId) (t : Tid) (s : State) : (acquire l t s).1.tlb = s.tlb :=
  (congrArg State.tlb (acquire_frame l t s) :)

@[simp] theorem sregWrite_tlb (t : Tid) (r : SReg) (v : Word) (s : State) : (sregWrite t r v s).tlb = s.tlb := by
  cases r <;> rfl

/-- A command leaves the store as it was, or is a TLBW or a CTLBW that writes the slot its index names (spec/40_tlb.md R142,
R146). -/
theorem Effect.tlb {i : Instr} {s m : State} (h : Effect i s m) :
    m.tlb = s.tlb ∨
      ∃ t e b, (i = .tlbw t e b ∨ i = .ctlbw t e b) ∧ m.tlb = Memory.write s.tlb (wrapIndex b) e := by
  cases h with
  | store _ _ _ t e b hi => exact .inr ⟨t, e, b, hi.imp_right And.left, rfl⟩
  | dispatched _ _ _ _ _ _ _ hd => exact .inl (congrArg State.tlb (dispatch_frame hd) :)
  | acquired => exact .inl (acquire_tlb ..)
  | retried => exact .inl (acquire_tlb ..)
  | released => exact .inl (release_tlb ..)
  | written => exact .inl (sregWrite_tlb ..)
  | _ => exact .inl rfl

/-- Settles O55: a store that is written is written by `Memory.write`, which changes the one slot. -/
theorem onlyTlbWritesChangeTheStore : Obligations.OnlyTlbWritesChangeTheStore := by
  intro i s s' h
  obtain ⟨m, code, r, hm, rfl⟩ := effect_of_exec h
  rw [State.respond_tlb]
  rcases hm.tlb with hkept | ⟨t, e, b, hi, hw⟩
  · exact ⟨fun j hj => absurd (by rw [hkept]) hj, fun _ => hkept⟩
  · refine ⟨fun j hj => ⟨t, e, b, hi, ?_⟩, fun hno => absurd hi (not_or.mpr (hno t e b))⟩
    have hjb : j = wrapIndex b := by
      by_contra hne
      exact hj (by rw [hw, Memory.read_write_ne _ _ hne])
    exact ⟨hjb, by rw [hw, hjb, Memory.read_write_self]⟩

/-- The store an image holds is canonical: it is written slot by slot (spec/20_memory.md R104). -/
theorem imageTlb_wf (bytes : List (BitVec 8)) : Memory.wf (imageTlb bytes) = true :=
  List.foldlRecOn (motive := fun m : Memory => Memory.wf m = true) _ _ Memory.wf_nil
    fun m hm i hi => Memory.wf_write m i _ (List.mem_range.mp hi) hm

/-- An image write takes its store from the image (spec/20_memory.md R105). -/
theorem serveImageWrite_tlb {bytes : List (BitVec 8)} {g : RegImage} {s s' : State}
    (h : serveImageWrite bytes g s = .next s') : s'.tlb = imageTlb bytes := by
  unfold serveImageWrite at h
  split at h
  · cases h
  split at h
  · cases h
  · rw [← Host.Outcome.next.inj h]

/-- Every item keeps the store canonical: a command writes at most one slot that exists, core reset empties it, an image write
fills it anew. -/
theorem serve_keeps_wf {x : Input} {s s' : State} (h : serve x s = .next s') (hw : Memory.wf s.tlb = true) :
    Memory.wf s'.tlb = true := by
  rcases serve_next h with ⟨k, i, -, -, h⟩ | ⟨k, e, code, -, -, rfl⟩ | ⟨-, rfl⟩ | ⟨t, -, -, ⟨-, rfl⟩ | ⟨-, rfl⟩⟩ |
    ⟨-, -, rfl⟩ | ⟨b, g, -, h⟩
  · obtain ⟨m, code, r, hm, rfl⟩ := effect_of_exec h
    rw [State.respond_tlb]
    rcases hm.tlb with hkept | ⟨t, e, b, -, hwrite⟩
    · rwa [hkept]
    · rw [hwrite]
      exact Memory.wf_write _ _ _ (wrapIndex_lt b) hw
  · exact hw
  · exact Memory.wf_nil
  · exact hw
  · exact hw
  · exact hw
  · rw [serveImageWrite_tlb h]
    exact imageTlb_wf b

/-- Settles O49: a step serves one item. -/
theorem stepKeepsTheStoreCanonical : Obligations.StepKeepsTheStoreCanonical := by
  intro s s' hw h
  obtain ⟨x, rest, -, hs⟩ := step_next h
  exact serve_keeps_wf hs hw

/-! ### What each operation keeps of every thread -/

/-- What `g` keeps of a thread, a change of one thread by `g` keeps of all. -/
theorem State.modThread_keeps {α : Type} (f : Thread → α) (s : State) (t u : Tid) {g : Thread → Thread}
    (hg : ∀ th, f (g th) = f th := by intro; rfl) : f ((s.modThread t g).thread u) = f (s.thread u) := by
  rw [State.modThread_thread]
  split
  · exact hg _
  · rfl

/-- What a write of a lock state keeps of a thread, an acquire keeps of all (spec/41_lock.md R181). -/
theorem acquire_keeps {α : Type} (f : Thread → α) {l : LockId} (hf : ∀ v th, f (setLockState l v th) = f th) (s : State)
    (t u : Tid) : f ((acquire l t s).1.thread u) = f (s.thread u) := by
  rcases acquire_cases l t s with ⟨-, h⟩ | ⟨-, -, h⟩ | ⟨-, -, h⟩ <;> rw [h]
  · exact State.modThread_keeps f _ t u (hf _)
  · exact State.modThread_keeps f _ t u (hf _)

/-- What a write of a lock state keeps of a thread, a release keeps of all (spec/41_lock.md R182). -/
theorem release_keeps {α : Type} (f : Thread → α) {l : LockId} (hf : ∀ v th, f (setLockState l v th) = f th) (s : State)
    (t u : Tid) : f ((release l t s).thread u) = f (s.thread u) := by
  rcases release_cases l t s with ⟨-, h⟩ | ⟨-, -, h⟩ | ⟨-, w, -, h⟩ <;> rw [h]
  · exact State.modThread_keeps f _ t u (hf _)
  · exact (State.modThread_keeps f _ w u (hf _)).trans (State.modThread_keeps f _ t u (hf _))

/-! ### Who writes PC and SSR -/

/-- What the control commands alone write: PC and SSR (spec/10_state.md R29, R30). -/
def Thread.control (th : Thread) : Word × Word := (th.pc, th.ssr)

theorem Thread.control_eq {th th' : Thread} : th'.control = th.control ↔ th'.pc = th.pc ∧ th'.ssr = th.ssr := Prod.mk_inj

theorem setLockState_control (l : LockId) (v : LockState) (th : Thread) : (setLockState l v th).control = th.control := by
  simp [Thread.control]

theorem raise_control (t u : Tid) (e : Event) (c : BitVec 8) (a : Addr) (s : State) :
    ((raise t e c a s).thread u).control = (s.thread u).control := State.modThread_keeps Thread.control ..

/-- No command but COMMIT, RAISE_INT and SREG_W writes PC or SSR of any thread (spec/10_state.md R29, R43). -/
theorem Effect.control_kept {i : Instr} {s m : State} (h : Effect i s m) (hc : i.isCommit = false)
    (hi : i.isInterrupt = false) (u : Tid) :
    (m.thread u).control = (s.thread u).control ∨ ∃ t r v, i = .sregW t r v ∧ m = sregWrite t r v s := by
  cases h with
  | keep => exact .inl rfl
  | faulted => exact .inl (raise_control ..)
  | store => exact .inl rfl
  | multiMatch => exact .inl (raise_control ..)
  | acquired l t => exact .inl (acquire_keeps _ (setLockState_control l) ..)
  | retried l t =>
    exact .inl ((State.modThread_keeps Thread.control ..).trans (acquire_keeps _ (setLockState_control l) ..))
  | released l t => exact .inl (release_keeps _ (setLockState_control l) ..)
  | missed => exact .inl (raise_control ..)
  | raised => exact .inl (raise_control ..)
  | interrupted => cases hi
  | returning => exact .inl (State.modThread_keeps Thread.control ..)
  | cycles => exact .inl rfl
  | written t r v => exact .inr ⟨t, r, v, rfl, rfl⟩
  | ended => cases hc
  | dispatched => cases hc

/-- Of the system registers MODECTL alone reaches a PC, and it and SSR alone an SSR (spec/43_sreg.md R230, R234). -/
theorem sregWrite_control {r : SReg} (hr : r ≠ .modectl) (t u : Tid) (v : Word) (s : State) :
    ((sregWrite t r v s).thread u).pc = (s.thread u).pc ∧
      (r ≠ .ssr → ((sregWrite t r v s).thread u).ssr = (s.thread u).ssr) := by
  cases r
  case modectl => exact absurd rfl hr
  case ssr => exact ⟨State.modThread_keeps Thread.pc .., fun h => absurd rfl h⟩
  case elr | badva0 | badva1 | diag =>
    exact ⟨State.modThread_keeps Thread.pc .., fun _ => State.modThread_keeps Thread.ssr ..⟩
  all_goals exact ⟨rfl, fun _ => rfl⟩

/-- Settles O56: an SREG_W by its register, every other command by what it keeps of PC and SSR. -/
theorem onlyControlCommandsWritePcAndSsr : Obligations.OnlyControlCommandsWritePcAndSsr := by
  intro i s s' u h hc hi hm
  obtain ⟨m, code, r, hE, rfl⟩ := effect_of_exec h
  rw [State.respond_thread]
  rcases hE.control_kept hc hi u with hkept | ⟨t, r, v, rfl, rfl⟩
  · obtain ⟨hpc, hssr⟩ := Thread.control_eq.mp hkept
    exact ⟨hpc, fun _ => hssr⟩
  · have hr : r ≠ .modectl := fun he => hm v (by rw [he]; rfl)
    obtain ⟨hpc, hssr⟩ := sregWrite_control hr t u v s
    exact ⟨hpc, fun hne => hssr fun he => hne v (by rw [he]; rfl)⟩

/-! ### What a dispatch leaves of its thread -/

/-- The override keeps the latched addresses and vmask (spec/60_exceptions.md R251). -/
@[simp] theorem overrideDouble_vmask (th : Thread) (l : Latch) : (overrideDouble th l).2.vmask = l.vmask := by
  rcases overrideDouble_cases th l with ⟨-, h⟩ | ⟨-, -, h⟩ <;> rw [h]
@[simp] theorem overrideDouble_va0 (th : Thread) (l : Latch) : (overrideDouble th l).2.va0 = l.va0 := by
  rcases overrideDouble_cases th l with ⟨-, h⟩ | ⟨-, -, h⟩ <;> rw [h]
@[simp] theorem overrideDouble_va1 (th : Thread) (l : Latch) : (overrideDouble th l).2.va1 = l.va1 := by
  rcases overrideDouble_cases th l with ⟨-, h⟩ | ⟨-, -, h⟩ <;> rw [h]
@[simp] theorem overrideDouble_tmode (th : Thread) (l : Latch) : (overrideDouble th l).1.tmode = th.tmode := by
  rcases overrideDouble_cases th l with ⟨-, h⟩ | ⟨-, -, h⟩ <;> rw [h]

/-- A TLB miss is never the outcome of the override, which leaves a thread and its latch alone while SSR.EX is 0
(spec/60_exceptions.md R251). -/
theorem overrideDouble_of_miss {th : Thread} {l : Latch} (h : isTlbMiss (overrideDouble th l).2.event = true) :
    ssrEx th.ssr = false ∧ overrideDouble th l = (th, l) := by
  rcases overrideDouble_cases th l with ⟨hor, he⟩ | ⟨-, -, he⟩ <;> rw [he] at h
  · refine ⟨hor.resolve_left fun hr => ?_, he⟩
    rw [hr] at h
    cases h
  · cases h

@[simp] theorem acquire_evb (l : LockId) (t : Tid) (s : State) : (acquire l t s).1.evb = s.evb :=
  (congrArg State.evb (acquire_frame l t s) :)

/-- A thread that acquires the TLB lock is its owner, one that does not waits for it (spec/41_lock.md R181). -/
theorem acquire_tlbls_self (t : Tid) (s : State) :
    (acquire .tlb t s).1.thread t =
      { s.thread t with tlbls := if (acquire .tlb t s).2 then .owner else .waiting } := by
  rcases acquire_cases .tlb t s with ⟨-, h⟩ | ⟨-, ho, h⟩ | ⟨-, -, h⟩ <;> rw [h]
  · rw [State.modThread_thread_self]
    rfl
  · change _ = { s.thread t with tlbls := .owner }
    rw [← ho]
    rfl
  · rw [State.modThread_thread_self]
    rfl

/-- A dispatch enters the event, whatever the TLB lock's state for its thread is then; or a TLB miss waits for the lock, SSR.EX
being 0 (spec/60_exceptions.md R250, R253). -/
theorem dispatch_thread_self {t : Tid} {n : Word} {l : Latch} {s m : State} (h : dispatch t n l s = .next m) :
    (∃ (e : Event) (c : BitVec 8) (resume : Word) (v : LockState), m.thread t =
      { enterThread s.evb e c resume
          { recordBadva (overrideDouble (s.thread t) l).1 (overrideDouble (s.thread t) l).2 with tlbls := v } with
        latch := none, missWait := false }) ∨
    (isTlbMiss l.event = true ∧ ssrEx (s.thread t).ssr = false ∧
      m.thread t = { recordBadva (s.thread t) l with tlbls := .waiting, missWait := true }) := by
  rw [dispatch_eq] at h
  obtain ⟨-, ⟨-, rfl⟩ | ⟨-, -, rfl⟩ | ⟨hm, ha, rfl⟩⟩ := branchEvent_next h
  · left
    rw [takeEvent_thread_self, State.setThread_thread_self]
    exact ⟨_, _, _, _, rfl⟩
  · left
    rw [takeEvent_thread_self, acquire_tlbls_self, State.setThread_thread_self, acquire_evb]
    exact ⟨_, _, _, _, rfl⟩
  · right
    rw [State.modThread_thread_self, acquire_tlbls_self, State.setThread_thread_self, ha]
    obtain ⟨hx, ho⟩ := overrideDouble_of_miss hm
    rw [ho] at hm ⊢
    exact ⟨hm, hx, rfl⟩

/-! ### The merged BADVA -/

/-- Once the addresses are recorded, the merged BADVA reads the one of slot 1 if slot 1 alone reported one, else that of slot 0
(spec/10_state.md R33, spec/60_exceptions.md R255). -/
theorem mergedBadva_recordBadva {l : Latch} (hv : l.vmask ≠ 0) (th : Thread) :
    mergedBadva (recordBadva th l) = if l.vmask = 0b10 then l.va1 else l.va0 := by
  have hbit : ∀ v : BitVec 2, v ≠ 0 → v ≠ 0b10 → v.getLsbD 0 = true := by decide
  have hbvs : ssrBvs (recordBadva th l).ssr = (l.vmask == 0b10) := by
    rw [ssrBvs, recordBadva_ssr, if_neg hv, if_pos rfl]
  unfold mergedBadva
  rw [hbvs, recordBadva_badva0, recordBadva_badva1]
  by_cases h1 : l.vmask = 0b10
  · simp [h1]
  · rw [beq_eq_false_iff_ne.mpr h1, hbit l.vmask hv h1, if_neg h1]
    rfl

/-- Trap entry keeps what the merged BADVA reads (spec/60_exceptions.md R258). -/
theorem mergedBadva_enterThread (evb : Word) (e : Event) (c : BitVec 8) (resume : Word) (th : Thread) :
    mergedBadva (enterThread evb e c resume th) = mergedBadva th := by
  simp [mergedBadva, enterThread]

/-- The thread that has taken a data fault runs in KERNEL mode and holds the address its slot reported. -/
theorem dispatch_entered {t : Tid} {n : Word} {l : Latch} {s m : State} (h : dispatch t n l s = .next m)
    (hlatch : (m.thread t).latch = none) (hl : (s.thread t).latch = some l) (hv : l.vmask ≠ 0) :
    (m.thread t).tmode = (s.thread t).tmode ∧ (m.thread t).missWait = false ∧ privMode (m.thread t).ssr = .kernel ∧
      mergedBadva (m.thread t) = if l.vmask = 0b10 then l.va1 else l.va0 := by
  rcases dispatch_thread_self h with ⟨e, c, resume, v, hth⟩ | ⟨-, -, hth⟩
  · rw [hth]
    refine ⟨by simp [enterThread], rfl, privMode_of_ex (by simp [enterThread]), ?_⟩
    calc mergedBadva (enterThread s.evb e c resume
            (recordBadva (overrideDouble (s.thread t) l).1 (overrideDouble (s.thread t) l).2))
        = mergedBadva (recordBadva (overrideDouble (s.thread t) l).1 (overrideDouble (s.thread t) l).2) :=
          mergedBadva_enterThread ..
      _ = if l.vmask = 0b10 then l.va1 else l.va0 := by
          rw [mergedBadva_recordBadva (by simpa using hv)]
          simp
  · rw [hth] at hlatch
    simp [hl] at hlatch

/-- An admitted COMMIT dispatches the latched event and clears the bundle state (spec/42_event_cmds.md R206). -/
theorem commit_dispatches {t : Tid} {c : Word} {l : Latch} {s s' : State} (ha : Admitted (.commit t c) s)
    (hl : (s.thread t).latch = some l) (h : exec (.commit t c) s = .next s') :
    ∃ m, dispatch t c l s = .next m ∧ s'.fatal = s.fatal ∧ s'.thread t = { m.thread t with bundle := .clear } := by
  rw [exec_commit, ha.run, hl] at h
  obtain ⟨m, hd, hf⟩ := andThen_next.mp h
  rw [finishCommit_eq] at hf
  refine ⟨m, hd, ?_, ?_⟩ <;> rw [← Host.Outcome.next.inj hf]
  · exact (congrArg State.fatal (dispatch_frame hd) :)
  · rw [State.respond_thread, State.modThread_thread_self]

/-- Settles O40: the COMMIT dispatches the fault, and the read that follows is admitted in KERNEL mode. -/
theorem mergedBadvaReadsTheFaultAddress : Obligations.MergedBadvaReadsTheFaultAddress := by
  intro t c s s' l ha hl hv h hlatch
  obtain ⟨m, hd, hfatal, hth⟩ := commit_dispatches ha hl h
  rw [hth] at hlatch
  obtain ⟨hrun, hwait, hkernel, hbadva⟩ := dispatch_entered hd hlatch hl hv
  have hr : Admitted (.sregR t .badva) s' := by
    refine ⟨hfatal.trans ha.1, ?_, .inr ?_, nofun, fun _ => ?_⟩
    · exact (congrArg Thread.tmode hth).trans (hrun.trans ha.running)
    · exact (congrArg Thread.missWait hth).trans hwait
    · change privMode (s'.thread t).ssr = .kernel
      rw [hth]
      exact hkernel
  have hread : sregValue t .badva s' = if l.vmask = 0b10 then l.va1 else l.va0 := by
    rw [← hbadva, sregValue, hth]
    rfl
  exact ⟨_, by rw [exec_sregR, hr.run]; rfl, by rw [← hread]; rfl⟩

/-! ### The latch invariant -/

@[simp] theorem endBundle_missWait (c : Word) (th : Thread) : (endBundle c th).missWait = th.missWait := by
  unfold endBundle
  split
  · rfl
  · split <;> rfl

/-- An interrupt is accepted only outside miss_wait, and with an empty latch (spec/60_exceptions.md R265). -/
theorem acceptsInt_latch {t : Tid} {s : State} (h : acceptsInt t s = true) :
    (s.thread t).missWait = false ∧ (s.thread t).latch = none := by
  simp only [acceptsInt, Bool.and_eq_true] at h
  obtain ⟨⟨-, hw⟩, hl⟩ := h
  exact ⟨by simpa using hw, by simpa using hl⟩

/-- The events and causes that a command registers: no RESET and no interrupt, IMPRECISE with its one cause, a TLB miss with an
admitted cause (spec/60_exceptions.md R240, R241). -/
def Latchable (e : Event) (c : BitVec 8) : Prop :=
  e ≠ .reset ∧ (∀ n, e ≠ .int n) ∧ (e = .imprecise → c = 0x44) ∧ (isTlbMiss e = true → admittedPair e c = true)

/-- No address is held without its bit of `vmask` (spec/60_exceptions.md R243). -/
def AddrsSound (l : Latch) : Prop := (l.vmask.getLsbD 0 = false → l.va0 = 0) ∧ (l.vmask.getLsbD 1 = false → l.va1 = 0)

theorem latchSound_iff {l : Latch} : LatchSound l ↔ Latchable l.event l.cause ∧ AddrsSound l := by
  simp only [LatchSound, Latchable, AddrsSound, and_assoc]

/-- A TLB miss is registered with a cause of R245, which the dispatcher admits. -/
theorem latchable_miss (a : Acc) (pc va : Word) : Latchable (missEvent a) (missCause pc a va) := by
  cases a with
  | fetch =>
    refine ⟨nofun, nofun, nofun, fun _ => ?_⟩
    unfold missCause
    dsimp only
    split <;> rfl
  | load => exact ⟨nofun, nofun, nofun, fun _ => rfl⟩
  | store => exact ⟨nofun, nofun, nofun, fun _ => rfl⟩

theorem latchable_multiMatch : Latchable .imprecise 0x44 := ⟨nofun, nofun, fun _ => rfl, nofun⟩

/-- A precise fault, a trap, FPTRAP and DEBUG may have any cause (spec/42_event_cmds.md R201 to R203). -/
theorem latchable_raised {e : Event} (h : e = .precise ∨ e = .trap0 ∨ e = .trap1 ∨ e = .fptrap ∨ e = .debug)
    (c : BitVec 8) : Latchable e c := by
  rcases h with rfl | rfl | rfl | rfl | rfl <;> exact ⟨nofun, nofun, nofun, nofun⟩

theorem newLatch_addrs (e : Event) (c : BitVec 8) (a : Addr) : AddrsSound (newLatch e c a) := by
  unfold newLatch
  split <;> simp [AddrsSound]

/-- A merge records an address with its bit (spec/60_exceptions.md R243). -/
theorem mergeAddr_addrs {l : Latch} (h : AddrsSound l) (a : Addr) : AddrsSound (mergeAddr l a) := by
  obtain ⟨h0, h1⟩ := h
  unfold mergeAddr
  split
  · exact ⟨h0, h1⟩
  all_goals
    split
    · simp_all [AddrsSound]
    · exact ⟨h0, h1⟩

/-- A latch stays sound when an event that commands register is registered. -/
theorem register_sound {latch : Option Latch} {e : Event} {c : BitVec 8} (hn : Latchable e c)
    (h : ∀ l, latch = some l → LatchSound l) (a : Addr) : LatchSound (register latch e c a) := by
  rcases register_cases e c a latch with hr | ⟨l, hl, hr | ⟨-, -, hr⟩⟩ <;> rw [hr]
  · exact latchSound_iff.mpr ⟨by simpa using hn, newLatch_addrs e c a⟩
  · exact h l hl
  · obtain ⟨hs, ha⟩ := latchSound_iff.mp (h l hl)
    exact latchSound_iff.mpr ⟨by simpa using hs, mergeAddr_addrs ha a⟩

/-- What the latch invariant asks of one thread (spec/10_state.md R39, R41). -/
def Thread.LatchOk (th : Thread) : Prop := (∀ l, th.latch = some l → LatchSound l) ∧ WaitSound th

theorem latchInv_iff (s : State) : LatchInv s ↔ ∀ t, s.hasThread t → (s.thread t).LatchOk := Iff.rfl

/-- A thread with an empty latch that is not in miss_wait. -/
theorem Thread.LatchOk.of_empty {th : Thread} (hl : th.latch = none) (hw : th.missWait = false) : th.LatchOk :=
  ⟨fun _ h => absurd (hl.symm.trans h) nofun, fun h => absurd (hw.symm.trans h) nofun⟩

/-- A thread that is not in miss_wait and keeps its latch. -/
theorem Thread.LatchOk.of_latch {th th' : Thread} (h : th.LatchOk) (hl : th'.latch = th.latch)
    (hw : th'.missWait = false) : th'.LatchOk :=
  ⟨fun l hl' => h.1 l (hl ▸ hl'), fun h => absurd (hw.symm.trans h) nofun⟩

/-- A thread in miss_wait has an event latched, so an empty latch is not waited for. -/
theorem Thread.LatchOk.not_waiting {th : Thread} (h : th.LatchOk) (hl : th.latch = none) : th.missWait = false := by
  cases hw : th.missWait with
  | false => rfl
  | true =>
    obtain ⟨-, -, l, hsome, -⟩ := h.2 hw
    rw [hl] at hsome
    cases hsome

/-- The admission keeps a thread in miss_wait from every command but COMMIT (spec/30_encoding.md R122 step 5). -/
theorem Admitted.not_waiting {i : Instr} {s : State} (h : Admitted i s) (hc : i.isCommit = false) :
    (s.thread i.tid).missWait = false := h.2.2.1.resolve_left (by simp [hc])

/-- A thread that is handed a lock stays sound, in miss_wait too (spec/41_lock.md R182). -/
theorem Thread.LatchOk.owner {th : Thread} (h : th.LatchOk) (l : LockId) : (setLockState l .owner th).LatchOk := by
  refine ⟨fun la hl => h.1 la (by simpa using hl), fun hw => ?_⟩
  obtain ⟨hls, hx, hm⟩ := h.2 (by simpa using hw)
  cases l with
  | tlb => exact ⟨nofun, hx, hm⟩
  | k0 => exact ⟨hls, hx, hm⟩

theorem resetThread_latchOk (p : Params) (evb : Word) (k : Nat) (th : Thread) : (resetThread p evb k th).LatchOk :=
  .of_empty rfl rfl

/-- A MODECTL write sets a mode or resets the thread (spec/43_sreg.md R234). -/
theorem Thread.LatchOk.modectlThread {th : Thread} (h : th.LatchOk) (p : Params) (evb : Word) (k : Nat) (t u : Tid)
    (v : Word) : (modectlThread p evb k t v u th).LatchOk := by
  unfold Machine.modectlThread
  split
  · exact h
  split
  · exact h
  split
  · exact .of_empty rfl rfl
  · exact h

/-- The broadcast empties the latch of a thread it redirects, and ends its wait (spec/60_exceptions.md R260). -/
theorem Thread.LatchOk.broadcastTo {th : Thread} (h : th.LatchOk) (n : Nat) (evb : Word) (t : Tid) (c : BitVec 8) (u : Tid) :
    (broadcastTo n evb t c u th).LatchOk := by
  unfold Machine.broadcastTo
  split
  · exact .of_empty rfl rfl
  · exact h

/-- A registration for a thread that is not in miss_wait. -/
theorem Thread.LatchOk.raise {t : Tid} {e : Event} {c : BitVec 8} {s : State} (h : (s.thread t).LatchOk)
    (hw : (s.thread t).missWait = false) (hn : Latchable e c) (a : Addr) : ((raise t e c a s).thread t).LatchOk := by
  rw [raise_thread, if_pos rfl]
  refine ⟨fun l hl => ?_, fun h => absurd (hw.symm.trans h) nofun⟩
  cases hl
  exact register_sound hn h.1 a

/-- A dispatch empties the latch, or leaves a sound wait with the latch kept (spec/60_exceptions.md R253, R263). -/
theorem Thread.LatchOk.dispatch {t : Tid} {n : Word} {l : Latch} {s m : State} (h : (s.thread t).LatchOk)
    (hl : (s.thread t).latch = some l) (hd : dispatch t n l s = .next m) : (m.thread t).LatchOk := by
  rcases dispatch_thread_self hd with ⟨e, c, resume, v, hth⟩ | ⟨hm, hx, hth⟩ <;> rw [hth]
  · exact .of_empty rfl rfl
  · have hkept : (recordBadva (s.thread t) l).latch = some l := (recordBadva_latch ..).trans hl
    refine ⟨fun l' hl' => h.1 l' (by rwa [hl, ← hkept]), fun _ => ⟨nofun, ?_, l, hkept, hm⟩⟩
    exact (recordBadva_ex ..).trans hx

/-- SREG_W of a thread that is not in miss_wait (spec/43_sreg.md R232). -/
theorem Thread.LatchOk.sregWrite {t : Tid} {s : State} (h : (s.thread t).LatchOk) (hw : (s.thread t).missWait = false)
    (r : SReg) (v : Word) : ((sregWrite t r v s).thread t).LatchOk := by
  cases r
  case modectl =>
    rw [Machine.sregWrite, modectlWrite_thread]
    exact h.modectlThread ..
  case ssr | elr | badva0 | badva1 | diag =>
    rw [Machine.sregWrite, State.modThread_thread_self]
    exact h.of_latch rfl hw
  all_goals exact h

/-- A command leaves the latch and the wait of its own thread sound. -/
theorem Effect.latchOk_self {i : Instr} {s m : State} (h : Effect i s m) (hs : (s.thread i.tid).LatchOk) :
    (m.thread i.tid).LatchOk := by
  cases h with
  | keep => exact hs
  | faulted _ _ _ _ _ _ hw => exact hs.raise hw (latchable_raised (.inl rfl) _) _
  | store => exact hs
  | multiMatch t va asid _ h => exact hs.raise (h.not_waiting rfl) latchable_multiMatch _
  | acquired l t _ h =>
    have hw := h.not_waiting (by cases l <;> rfl)
    exact hs.of_latch (acquire_keeps Thread.latch (setLockState_latch l) ..)
      ((acquire_keeps Thread.missWait (setLockState_missWait l) ..).trans hw)
  | retried l t _ h =>
    have hw := h.not_waiting (by cases l <;> rfl)
    refine hs.of_latch ?_ ?_
    · exact (State.modThread_keeps Thread.latch ..).trans (acquire_keeps Thread.latch (setLockState_latch l) ..)
    · exact (State.modThread_keeps Thread.missWait ..).trans
        ((acquire_keeps Thread.missWait (setLockState_missWait l) ..).trans hw)
  | released l t _ h =>
    have hw := h.not_waiting (by cases l <;> rfl)
    exact hs.of_latch (release_keeps Thread.latch (setLockState_latch l) ..)
      ((release_keeps Thread.missWait (setLockState_missWait l) ..).trans hw)
  | missed t a k va _ h => exact hs.raise (h.not_waiting rfl) (latchable_miss ..) _
  | raised _ _ h hc e c a he => exact hs.raise (h.not_waiting hc) (latchable_raised he c) a
  | interrupted t n _ _ ha =>
    obtain ⟨hw, -⟩ := acceptsInt_latch ha
    rw [enter, Instr.tid, State.modThread_thread_self, State.modThread_thread_self]
    exact hs.of_latch rfl hw
  | returning t _ h =>
    rw [Instr.tid, State.modThread_thread_self]
    exact hs
  | cycles => exact hs
  | written t r v _ h => exact hs.sregWrite (h.not_waiting rfl) r v
  | ended t c _ _ hl =>
    rw [Instr.tid, State.modThread_thread_self, State.modThread_thread_self]
    exact .of_empty ((endBundle_latch ..).trans hl) ((endBundle_missWait ..).trans (hs.not_waiting hl))
  | dispatched t c _ m l _ hl hd =>
    rw [Instr.tid, State.modThread_thread_self]
    exact (hs.dispatch hl hd :)

/-- A command leaves the latches and the waits of the other threads sound. -/
theorem Effect.latchOk_ne {i : Instr} {s m : State} {u : Tid} (h : Effect i s m) (ht : s.hasThread i.tid) (hu : u ≠ i.tid)
    (hs : (s.thread u).LatchOk) : (m.thread u).LatchOk := by
  rcases h.thread_ne ht hu with h | ⟨l, -, h⟩ | ⟨v, h⟩ | ⟨c, h⟩ <;> rw [h]
  · exact hs
  · exact hs.owner l
  · exact hs.modectlThread ..
  · exact hs.broadcastTo ..

/-- Every item but an image write keeps the latch invariant: a command by what it leaves of its own thread and of the others, a
reset by emptying the latch. -/
theorem serve_keeps_latchInv {x : Input} {s s' : State} (hs : serve x s = .next s')
    (hw : ∀ bytes g, x ≠ .imageWrite bytes g) (h : LatchInv s) : LatchInv s' := by
  intro u hu
  have hx : s.hasThread u := by rwa [State.hasThread, (serve_frame hs).1] at hu
  rcases serve_next hs with ⟨k, i, -, hd, he⟩ | ⟨k, e, code, -, -, rfl⟩ | ⟨-, rfl⟩ | ⟨t, -, -, ⟨-, rfl⟩ | ⟨-, rfl⟩⟩ |
    ⟨-, -, rfl⟩ | ⟨bytes, g, rfl, -⟩
  · obtain ⟨m, code, r, hE, rfl⟩ := effect_of_exec he
    by_cases hui : u = i.tid
    · rw [hui] at hx ⊢
      exact hE.latchOk_self (h _ hx)
    · exact hE.latchOk_ne (decode_tid_lt hd) hui (h u hx)
  · exact h u hx
  · rw [State.thread_resp, coreReset_thread, coreResetThread, if_pos hx]
    exact resetThread_latchOk ..
  · exact h u hx
  · rw [State.thread_resp]
    by_cases hut : u = t
    · rw [hut, threadReset_thread_self]
      exact resetThread_latchOk ..
    · rw [threadReset_thread_ne hut]
      exact h u hx
  · exact h u hx
  · exact absurd rfl (hw bytes g)

/-- Settles O51: a step serves one item. -/
theorem stepKeepsTheLatchInvariant : Obligations.StepKeepsTheLatchInvariant := by
  intro s s' hw h hs
  obtain ⟨x, rest, hp, hserve⟩ := step_next hs
  exact serve_keeps_latchInv hserve (fun bytes g he => hw bytes g rest (he ▸ hp)) h

end Sys2Proof.Machine
end

section
/-! PROOFS. The family of spec/20_memory.md: the size class and the page of an entry (R73, R75, R76), match and overlap (R77,
R78), the range evaluation that stops the block (R74), translation and permissions (R80 to R85), and the persistence image
(R104, R105). -/

namespace Sys2Proof.Machine

/-! ### The size class and the page of an entry -/

theorem sizeClass_eq_find (e : Entry) : sizeClass e = (List.range 10).find? (fun k => e.getLsbD k) := rfl

/-- The size class is the position of the lowest set bit of `E[9:0]` (spec/20_memory.md R73). -/
theorem sizeClass_eq_some {e : Entry} {k : Nat} :
    sizeClass e = some k ↔ k < 10 ∧ e.getLsbD k = true ∧ ∀ j, j < k → e.getLsbD j = false := by
  simp only [sizeClass_eq_find, List.find?_range_eq_some, List.mem_range, Bool.not_eq_true', and_left_comm]

/-- An entry has no size class when `E[9:0]` is 0 (spec/20_memory.md R73, R74). -/
theorem sizeClass_eq_none {e : Entry} : sizeClass e = none ↔ e.extractLsb' 0 10 = 0 := by
  rw [sizeClass_eq_find, List.find?_range_eq_none]
  constructor
  · intro hz
    apply BitVec.eq_of_getLsbD_eq
    intro j hj
    simpa [hj] using hz j hj
  · intro hz j hj
    simpa [hj] using congrArg (·.getLsbD j) hz

theorem pageSize_pos (k : Nat) : 0 < pageSize k := Nat.two_pow_pos _

/-- The page of every size class, 4K to 1G, divides the address space. -/
theorem pageSize_dvd {k : Nat} (hk : k < 10) : pageSize k ∣ 2 ^ 32 :=
  Nat.pow_dvd_pow 2 (show 12 + 2 * k ≤ 32 by omega)

/-- The page starts at the VPN rounded down to the page size (spec/20_memory.md R75). -/
theorem pageStart_toNat (e : Entry) (k : Nat) :
    (pageStart e k).toNat = (entryVpn e).toNat * 4096 / pageSize k * pageSize k := by
  have hv : (((entryVpn e).setWidth 32 <<< 12 : Word)).toNat = (entryVpn e).toNat * 4096 := by
    have := (entryVpn e).isLt
    simp only [BitVec.toNat_shiftLeft, BitVec.toNat_setWidth, Nat.shiftLeft_eq]
    omega
  rw [pageStart, clearLow_toNat, hv, pageSize]

/-- No page reaches past the end of the address space (spec/20_memory.md R75). -/
theorem pageEnd_le {k : Nat} (hk : k < 10) (e : Entry) : pageEnd e k ≤ 2 ^ 32 := by
  obtain ⟨n, hn⟩ := pageSize_dvd hk
  have hlt := (pageStart e k).isLt
  rw [pageEnd, pageStart_toNat]
  rw [pageStart_toNat, hn, Nat.mul_comm (pageSize k)] at hlt
  have hq : (entryVpn e).toNat * 4096 / pageSize k + 1 ≤ n := Nat.lt_of_mul_lt_mul_right hlt
  calc (entryVpn e).toNat * 4096 / pageSize k * pageSize k + pageSize k
      = ((entryVpn e).toNat * 4096 / pageSize k + 1) * pageSize k := (Nat.succ_mul ..).symm
    _ ≤ n * pageSize k := Nat.mul_le_mul_right _ hq
    _ = 2 ^ 32 := by rw [hn, Nat.mul_comm]

/-- An address is in the range of an entry when it has the entry's page number at that size (spec/20_memory.md R75). -/
theorem mem_page_iff (e : Entry) (k : Nat) (va : Word) :
    ((pageStart e k).toNat ≤ va.toNat ∧ va.toNat < pageEnd e k) ↔
      va.toNat / pageSize k = (entryVpn e).toNat * 4096 / pageSize k := by
  have hp := pageSize_pos k
  rw [Nat.div_eq_iff hp, pageEnd, pageStart_toNat]
  omega

/-- Settles O13: the size class is the first position a scan of the ten bits finds, and every page size divides two to the
32. -/
theorem sizeClassSetsThePageRange : Obligations.SizeClassSetsThePageRange :=
  ⟨fun _ _ => sizeClass_eq_some, fun _ => sizeClass_eq_none, fun _ => rfl, fun e k hk =>
    ⟨pageStart_toNat e k, rfl, pageEnd_le (sizeClass_eq_some.mp hk).1 e⟩⟩

/-! ### Match and overlap -/

/-- The lookup match as R77 lists its conditions. -/
theorem lookupMatch_iff {asid : BitVec 8} {va : Word} {e : Entry} :
    lookupMatch asid va e = true ↔
      entryV e = true ∧ (entryG e = true ∨ entryAsid e = asid) ∧
        ∃ k, sizeClass e = some k ∧ (pageStart e k).toNat ≤ va.toNat ∧ va.toNat < pageEnd e k := by
  unfold lookupMatch
  cases sizeClass e with
  | none => simp
  | some k => simp [and_assoc]

/-- The overlap as R78 lists its conditions: the two ranges intersect. -/
theorem overlaps_iff {c e : Entry} :
    overlaps c e = true ↔
      entryV c = true ∧ entryV e = true ∧ (entryG e = true ∨ entryAsid e = entryAsid c) ∧
        ∃ kc ke, sizeClass c = some kc ∧ sizeClass e = some ke ∧ (pageStart c kc).toNat < pageEnd e ke ∧
          (pageStart e ke).toNat < pageEnd c kc := by
  unfold overlaps
  cases sizeClass c with
  | none => simp
  | some kc =>
    cases sizeClass e with
    | none => simp
    | some ke => simp [and_assoc]

/-- Settles O14: the range of R75 and the page number say the same of an address. -/
theorem matchMeansTheSamePage : Obligations.MatchMeansTheSamePage := by
  intro e asid va
  refine ⟨lookupMatch_iff, ?_⟩
  simp only [lookupMatch_iff, mem_page_iff]

/-- Settles O15: the higher of the two page starts is an address of both pages, if there is one. -/
theorem overlapMeansASharedAddress : Obligations.OverlapMeansASharedAddress := by
  intro c e
  rw [overlaps_iff]
  constructor
  · rintro ⟨hvc, hve, ha, kc, ke, hkc, hke, hce, hec⟩
    have hc : (pageStart c kc).toNat < pageEnd c kc := Nat.lt_add_of_pos_right (pageSize_pos kc)
    have he : (pageStart e ke).toNat < pageEnd e ke := Nat.lt_add_of_pos_right (pageSize_pos ke)
    obtain ⟨va, hva⟩ : ∃ va : Word, va.toNat = max (pageStart c kc).toNat (pageStart e ke).toNat := by
      rcases le_total (pageStart c kc).toNat (pageStart e ke).toNat with h | h
      · exact ⟨pageStart e ke, (max_eq_right h).symm⟩
      · exact ⟨pageStart c kc, (max_eq_left h).symm⟩
    exact ⟨hvc, hve, ha, va, lookupMatch_iff.mpr ⟨hvc, .inr rfl, kc, hkc, by omega, by omega⟩,
      lookupMatch_iff.mpr ⟨hve, ha, ke, hke, by omega, by omega⟩⟩
  · rintro ⟨hvc, hve, ha, va, hc, he⟩
    obtain ⟨-, -, kc, hkc, hc⟩ := lookupMatch_iff.mp hc
    obtain ⟨-, -, ke, hke, he⟩ := lookupMatch_iff.mp he
    exact ⟨hvc, hve, ha, kc, ke, hkc, hke, by omega, by omega⟩

/-! ### Stores in which no query matches two slots -/

/-- An entry that is not global and overlaps no slot shares no query with a slot (spec/20_memory.md R78). -/
theorem not_lookupMatch_of_not_overlaps {c e : Entry} {asid : BitVec 8} {va : Word} (hg : entryG c = false)
    (hno : overlaps c e = false) (hc : lookupMatch asid va c = true) : lookupMatch asid va e = false := by
  obtain ⟨hv, ha, -⟩ := lookupMatch_iff.mp hc
  obtain rfl : entryAsid c = asid := ha.resolve_left (by simp [hg])
  by_contra he
  have he : lookupMatch (entryAsid c) va e = true := by simpa using he
  obtain ⟨hve, hae, -⟩ := lookupMatch_iff.mp he
  exact Bool.eq_false_iff.mp hno ((overlapMeansASharedAddress c e).mpr ⟨hv, hve, hae, va, hc, he⟩)

/-- Writing such an entry, whatever the slot, leaves every query with one match at most. -/
theorem SingleMatch.write {m : Memory} {e : Entry} (h : SingleMatch m) (hg : entryG e = false)
    (hno : ∀ j, j < tlbEntries → overlaps e (Memory.read m j) = false) (n : Nat) : SingleMatch (Memory.write m n e) := by
  intro asid va i j hi hj hmi hmj
  have apart : ∀ {a}, a < tlbEntries → lookupMatch asid va e = true → ¬lookupMatch asid va (Memory.read m a) = true :=
    fun ha he => Bool.eq_false_iff.mp (not_lookupMatch_of_not_overlaps hg (hno _ ha) he)
  rw [Memory.read_write] at hmi hmj
  split_ifs at hmi hmj with hin hjn hjn
  · exact hin.trans hjn.symm
  · exact absurd hmj (apart hj hmi)
  · exact absurd hmi (apart hi hmj)
  · exact h asid va i j hi hj hmi hmj

/-- The slots a core reset leaves match no query (spec/70_reset_and_hazards.md R302). -/
theorem singleMatch_nil : SingleMatch [] := by
  intro asid va i j _ _ h _
  rw [Memory.read_nil] at h
  exact absurd (lookupMatch_iff.mp h).1 (by decide)

/-- The overlap check answers -2 when no slot overlaps (spec/40_tlb.md R145). -/
theorem overlapValue_eq_neg_two {l : List Nat} : overlapValue l = -2 ↔ l = [] := by
  match l with
  | [] => simp [overlapValue]
  | [i] => simp only [overlapValue, List.cons_ne_nil, iff_false]; omega
  | _ :: _ :: _ => simp [overlapValue]

/-- A CTLBW leaves the store as it was, or finds no overlap and writes the slot its index names (spec/40_tlb.md R146). -/
theorem ctlbw_tlb {t : Tid} {e : Entry} {b : Word} {s s' : State} (h : exec (.ctlbw t e b) s = .next s') :
    s'.tlb = s.tlb ∨
      ((∀ j, j < tlbEntries → overlaps e (Memory.read s.tlb j) = false) ∧
        s'.tlb = Memory.write s.tlb (wrapIndex b) e) := by
  rw [exec_ctlbw] at h
  rcases whenAdmitted_next h with ⟨code, -, rfl⟩ | ⟨rfl, -⟩ | ⟨-, h⟩
  · exact .inl rfl
  · exact .inl rfl
  · obtain ⟨-, -, h⟩ := overlapCheck_next _ _ h
    rw [← answer_next.mp h, State.respond_tlb]
    split
    next hv => exact .inr ⟨slotsWhere_eq_nil.mp (overlapValue_eq_neg_two.mp hv), rfl⟩
    · exact .inl rfl

/-- A CTLBW of an entry that is not global keeps every lookup unambiguous. -/
theorem ctlbw_keeps_singleMatch {t : Tid} {e : Entry} {b : Word} {s s' : State} (hg : entryG e = false)
    (hs : SingleMatch s.tlb) (h : exec (.ctlbw t e b) s = .next s') : SingleMatch s'.tlb := by
  rcases ctlbw_tlb h with hkept | ⟨hno, hw⟩
  · rwa [hkept]
  · rw [hw]
    exact hs.write hg hno _

/-- Every item but a TLBW, a CTLBW of a global entry and an image write keeps every lookup unambiguous: no other command
writes the store, and core reset empties it. -/
theorem serve_keeps_singleMatch {x : Input} {s s' : State} (h : serve x s = .next s')
    (hw : ∀ bytes g, x ≠ .imageWrite bytes g)
    (hi : ∀ k, x = .command k → ∀ t e b, decode s.cfg.numThreads k ≠ .ok (.tlbw t e b) ∧
      (decode s.cfg.numThreads k = .ok (.ctlbw t e b) → entryG e = false))
    (hs : SingleMatch s.tlb) : SingleMatch s'.tlb := by
  rcases serve_next h with ⟨k, i, rfl, hd, h⟩ | ⟨k, e, code, -, -, rfl⟩ | ⟨-, rfl⟩ | ⟨t, -, -, ⟨-, rfl⟩ | ⟨-, rfl⟩⟩ |
    ⟨-, -, rfl⟩ | ⟨bytes, g, rfl, -⟩
  · obtain ⟨m, code, r, hm, rfl⟩ := effect_of_exec h
    rcases hm.tlb with hkept | ⟨t, e, b, rfl | rfl, -⟩
    · rwa [State.respond_tlb, hkept]
    · exact absurd hd (hi k rfl t e b).1
    · exact ctlbw_keeps_singleMatch ((hi k rfl t e b).2 hd) hs h
  · exact hs
  · exact singleMatch_nil
  · exact hs
  · exact hs
  · exact hs
  · exact absurd rfl (hw bytes g)

/-- Settles O19: a step serves one item. -/
theorem ctlbwKeepsLookupsUnambiguous : Obligations.CtlbwKeepsLookupsUnambiguous := by
  refine ⟨fun t e b s s' hg hs _ h => ctlbw_keeps_singleMatch hg hs h, fun s s' hw hs hi h => ?_⟩
  obtain ⟨x, rest, hp, hserve⟩ := step_next h
  exact serve_keeps_singleMatch hserve (fun bytes g he => hw bytes g rest (he ▸ hp))
    (fun k he => hi k rest (he ▸ hp)) hs

/-! ### The evaluations that stop the block -/

/-- Each of these commands, once admitted, begins with a range evaluation of the store (spec/40_tlb.md R148); an XLATE does so
when translation is enabled. -/
theorem Admitted.evaluates {i : Instr} {s : State} (h : Admitted i s)
    (hi : (∃ va asid, i = .tlbp i.tid va asid) ∨ (∃ c, i = .tlboc i.tid c) ∨ (∃ e b, i = .ctlbw i.tid e b) ∨
      ((∃ m a va, i = .xlate i.tid m a va) ∧ syscfgMmuen s.syscfg = true)) :
    ∃ k, exec i s = withValidSizes i.tid s k := by
  cases i with
  | tlbp t va asid => exact ⟨_, by rw [exec_tlbp, h.run]; rfl⟩
  | tlboc t c => exact ⟨_, by rw [exec_tlboc, h.run]; rfl⟩
  | ctlbw t e b => exact ⟨_, by rw [exec_ctlbw, h.run]; rfl⟩
  | xlate t m a va =>
    have hm : syscfgMmuen s.syscfg = true := by simpa [Instr.tid] using hi
    exact ⟨_, by rw [exec_xlate, h.run, if_neg (by simp [hm])]; rfl⟩
  | _ => simp at hi

/-- With every stored size valid, a size-invalid candidate stops the overlap check (spec/20_memory.md R74). -/
theorem overlapCheck_stop {t : Tid} {c : Entry} {s : State} (hs : SizesValid s.tlb) (hc : sizeInvalid c = true)
    (k : Int → State → Out) : overlapCheck t c s k = stop .sizeInvalidCandidate t 0 0 s := by
  unfold overlapCheck
  rw [withValidSizes_of hs, if_pos hc]

/-- What a fatal stop with event and cause 0 leaves: the record, the response and the dump, and all else as it was
(spec/60_exceptions.md R275, R276). -/
theorem stop_leaves (reason : FatalReason) (t : Tid) (s : State) :
    ∃ st info, stop reason t 0 0 s = .fault (.fatalStop st) ∧
      info = ⟨reason, t, 0, 0, (s.thread t).pc, (s.thread t).badva0, (s.thread t).badva1⟩ ∧
      st.fatal = some info ∧ st.resp = some ⟨.fatal, 0⟩ ∧ st.sent = s.sent ++ [.fatalDump info] ∧
      { st with fatal := s.fatal, resp := s.resp, sent := s.sent } = s :=
  ⟨_, _, rfl, rfl, rfl, rfl, rfl, rfl⟩

/-- Settles O20: the evaluation stops for a slot before the candidate is looked at. -/
theorem sizeInvalidEntriesStopTheBlock : Obligations.SizeInvalidEntriesStopTheBlock := by
  intro i s h
  constructor
  · intro hi hex
    obtain ⟨k, hk⟩ := h.evaluates hi
    obtain ⟨j, hj, hv, hstop⟩ := withValidSizes_stop (t := i.tid) hex k
    obtain ⟨st, info, hst, hinfo, hfatal, hresp, hsent, hrest⟩ :=
      stop_leaves (.sizeInvalidSlot j) i.tid { s with draws := s.draws + 1 }
    exact ⟨st, info, j, by rw [hk, hstop, hst], hj, hv, hinfo, hfatal, hresp, hsent,
      congrArg (fun x : State => { x with draws := s.draws }) hrest⟩
  · intro hs c hc hi
    have hex : exec i s = stop .sizeInvalidCandidate i.tid 0 0 s := by
      rcases hi with hi | ⟨b, hi⟩
      · rw [hi] at h ⊢
        rw [exec_tlboc, h.run, overlapCheck_stop hs hc]
        rfl
      · rw [hi] at h ⊢
        rw [exec_ctlbw, h.run, overlapCheck_stop hs hc]
        rfl
    rw [hex]
    exact stop_leaves .sizeInvalidCandidate i.tid s

/-! ### The result of a translation -/

/-- Two words put together, as a number. -/
theorem append_toNat {m n : Nat} (x : BitVec m) (y : BitVec n) : (x ++ y).toNat = x.toNat * 2 ^ n + y.toNat := by
  rw [BitVec.toNat_append, ← Nat.shiftLeft_add_eq_or_of_lt y.isLt, Nat.shiftLeft_eq]

/-- The result of a translation that succeeds, as a number (spec/40_tlb.md R147). -/
theorem xlateOk_toNat (pa : BitVec 36) (p : Perms) (k : Nat) :
    (xlateOk pa p k).toNat =
      p.x.toNat * 2 ^ 42 + p.w.toNat * 2 ^ 41 + p.r.toNat * 2 ^ 40 + k % 16 * 2 ^ 36 + pa.toNat := by
  refine (append_toNat (0#21 ++ BitVec.ofBool p.x ++ BitVec.ofBool p.w ++ BitVec.ofBool p.r ++ BitVec.ofNat 4 k)
    pa).trans ?_
  simp only [append_toNat, BitVec.toNat_ofBool, BitVec.toNat_ofNat]
  omega

/-- The result of a translation that faults, as a number (spec/40_tlb.md R147). -/
theorem xlateFault_toNat (e : Event) (c : BitVec 8) :
    (xlateFault e c).toNat = 2 ^ 63 + c.toNat * 2 ^ 48 + (ordinal e).toNat * 2 ^ 40 := by
  have he := (ordinal e).isLt
  refine (append_toNat (1#1 ++ 0#7 ++ c ++ (ordinal e).setWidth 8) 0#40).trans ?_
  simp only [append_toNat, BitVec.toNat_setWidth, BitVec.toNat_ofNat]
  omega

/-- A digit that is a Boolean's number reads as that Boolean. -/
theorem decide_bit {n : Nat} {b : Bool} (h : n % 2 = b.toNat) : decide (n % 2 = 1) = b := by
  cases b <;> simp [h]

/-- The fields of the result of a translation that succeeds (spec/40_tlb.md R147). -/
theorem xlateOk_fields (pa : BitVec 36) (p : Perms) {k : Nat} (hk : k < 16) :
    (xlateOk pa p k).extractLsb' 43 21 = 0 ∧ (xlateOk pa p k).getLsbD 42 = p.x ∧ (xlateOk pa p k).getLsbD 41 = p.w ∧
      (xlateOk pa p k).getLsbD 40 = p.r ∧ ((xlateOk pa p k).extractLsb' 36 4).toNat = k ∧
      (xlateOk pa p k).extractLsb' 0 36 = pa := by
  have hpa := pa.isLt
  have hx := p.x.toNat_le
  have hw := p.w.toNat_le
  have hr := p.r.toNat_le
  simp only [← BitVec.toNat_inj, BitVec.extractLsb'_toNat, BitVec.getLsbD, Nat.testBit_eq_decide_div_mod_eq,
    Nat.shiftRight_eq_div_pow, xlateOk_toNat, BitVec.ofNat_eq_ofNat, BitVec.toNat_ofNat]
  exact ⟨by omega, decide_bit (by omega), decide_bit (by omega), decide_bit (by omega), by omega, by omega⟩

/-- The fields of the result of a translation that faults (spec/40_tlb.md R147). -/
theorem xlateFault_fields (e : Event) (c : BitVec 8) :
    (xlateFault e c).getLsbD 63 = true ∧ (xlateFault e c).extractLsb' 56 7 = 0 ∧ (xlateFault e c).extractLsb' 48 8 = c ∧
      (xlateFault e c).extractLsb' 40 8 = (ordinal e).setWidth 8 ∧ (xlateFault e c).extractLsb' 0 40 = 0 := by
  have hc := c.isLt
  have he := (ordinal e).isLt
  simp only [← BitVec.toNat_inj, BitVec.extractLsb'_toNat, BitVec.getLsbD, Nat.testBit_eq_decide_div_mod_eq,
    Nat.shiftRight_eq_div_pow, xlateFault_toNat, BitVec.toNat_setWidth, decide_eq_true_eq, BitVec.ofNat_eq_ofNat,
    BitVec.toNat_ofNat]
  refine ⟨?_, ?_, ?_, ?_, ?_⟩ <;> omega

/-! ### The physical address -/

/-- The physical base is PA_EXT and PPD without the size marker, rounded down to the page size (spec/20_memory.md R76). -/
theorem paBase_toNat (e : Entry) (k : Nat) :
    (paBase e k).toNat =
      ((entryPaExt e).toNat * 2 ^ 23 + (entryPpd e).toNat / 2) * 4096 / pageSize k * pageSize k := by
  have hx := (entryPaExt e).isLt
  have hp := (entryPpd e).isLt
  have hf : ((entryPaExt e ++ (entryPpd e).extractLsb' 1 23 : BitVec 24)).toNat =
      (entryPaExt e).toNat * 2 ^ 23 + (entryPpd e).toNat / 2 := by
    refine (append_toNat (entryPaExt e) _).trans ?_
    rw [BitVec.extractLsb'_toNat, Nat.shiftRight_eq_div_pow]
    omega
  rw [paBase, clearLow_toNat, BitVec.toNat_shiftLeft, BitVec.toNat_setWidth, hf, Nat.shiftLeft_eq, pageSize]
  congr 2
  omega

/-- The offset in the page is what the address leaves over the page size (spec/20_memory.md R84). -/
theorem pageOffset_toNat {k : Nat} (hk : k < 10) (va : Word) :
    ((va &&& BitVec.ofNat 32 (pageSize k - 1)).setWidth 36).toNat = va.toNat % pageSize k := by
  have hle : pageSize k ≤ 2 ^ 32 := Nat.le_of_dvd (Nat.two_pow_pos 32) (pageSize_dvd hk)
  have hp := pageSize_pos k
  have hv := va.isLt
  have hm := Nat.mod_le va.toNat (pageSize k)
  rw [BitVec.toNat_setWidth, BitVec.toNat_and, BitVec.toNat_ofNat, Nat.mod_eq_of_lt (b := 2 ^ 32) (by omega), pageSize,
    Nat.and_two_pow_sub_one_eq_mod, ← pageSize]
  omega

/-- Settles O25: the base is a multiple of the page size and the offset below it, so their bits do not meet. -/
theorem physicalAddressIsBasePlusOffset : Obligations.PhysicalAddressIsBasePlusOffset := by
  intro e k va hk
  have hlt : va.toNat % pageSize k < 2 ^ pageBits k := Nat.mod_lt _ (pageSize_pos k)
  rw [physAddr, BitVec.toNat_or, paBase_toNat, pageOffset_toNat (sizeClass_eq_some.mp hk).1,
    Nat.mul_comm _ (pageSize k)]
  exact (Nat.two_pow_add_eq_or_of_lt hlt _).symm

/-! ### Translation -/

/-- Settles O24: the check branches on the mode, on U, then on the bit the access needs. -/
theorem permissionCheckOrder : Obligations.PermissionCheckOrder := by
  intro e a
  refine ⟨rfl, fun hu => ?_, fun m hm => ?_⟩
  · simp [permission, hu, ucause]
  · rcases hm with rfl | ⟨rfl, hu⟩
    · exact ⟨rfl, rfl, rfl⟩
    · simp only [permission, hu, if_true]
      exact ⟨rfl, rfl, rfl⟩

/-- The identity translation, with all permissions and size class 0 (spec/20_memory.md R80, spec/40_tlb.md R147). -/
theorem xlateOk_identity (va : Word) : xlateOk (va.setWidth 36) allPerms 0 = 0x70000000000#64 + va.setWidth 64 := by
  have hva := va.isLt
  apply BitVec.eq_of_toNat_eq
  simp only [xlateOk_toNat, allPerms, BitVec.toNat_add, BitVec.toNat_setWidth, BitVec.toNat_ofNat, Bool.toNat_true]
  omega

/-- Settles O21: with MMUEN 0 the store is not looked at. -/
theorem disabledTranslationIsTheIdentity : Obligations.DisabledTranslationIsTheIdentity := by
  intro t m a va s h hm
  rw [exec_xlate, h.run, if_pos hm, xlateOk_identity]
  rfl

/-- With translation enabled and every size valid XLATE answers with the result of the lookup and changes nothing
(spec/20_memory.md R81, R85). -/
theorem exec_xlate_enabled {t : Tid} {m : Mode} {a : Acc} {va : Word} {s : State} (h : Admitted (.xlate t m a va) s)
    (hm : syscfgMmuen s.syscfg = true) (hs : SizesValid s.tlb) :
    exec (.xlate t m a va) s = .next { s with resp := some ⟨.ok, xlateResult t m a va s⟩ } := by
  rw [exec_xlate, h.run, if_neg (by simp [hm]), withValidSizes_of hs]
  rfl

/-- The lookup answers for the lowest matching slot (spec/20_memory.md R81). -/
theorem xlateResult_hit {t : Tid} {m : Mode} {a : Acc} {va : Word} {s : State} {i : Nat} (hi : i < tlbEntries)
    (hit : lookupMatch (ssrAsid (s.thread t).ssr) va (Memory.read s.tlb i) = true)
    (hlow : ∀ j, j < i → lookupMatch (ssrAsid (s.thread t).ssr) va (Memory.read s.tlb j) = false) :
    xlateResult t m a va s = xlateHit (Memory.read s.tlb i) m a va := by
  obtain ⟨rest, hl⟩ := slotsWhere_head hi hit hlow
  rw [xlateResult, hl]

/-- Without a match the lookup reports a miss (spec/20_memory.md R82). -/
theorem xlateResult_miss {t : Tid} {m : Mode} {a : Acc} {va : Word} {s : State}
    (h : ∀ j, j < tlbEntries → lookupMatch (ssrAsid (s.thread t).ssr) va (Memory.read s.tlb j) = false) :
    xlateResult t m a va s = xlateFault (missEvent a) (missCause (s.thread t).pc a va) := by
  rw [xlateResult, slotsWhere_eq_nil.mpr h]

/-- Settles O22: the lookup answers for the lowest match, and its result has the fields of R147. -/
theorem xlateAnswersForTheLowestMatch : Obligations.XlateAnswersForTheLowestMatch := by
  intro t m a va s i k h hm hs hi hit hlow hk
  refine ⟨_, exec_xlate_enabled h hm hs, ?_⟩
  rw [xlateResult_hit hi hit hlow, xlateHit, hk]
  have hk16 : k < 16 := (sizeClass_eq_some.mp hk).1.trans (by decide)
  cases permission (Memory.read s.tlb i) m a with
  | ok p => exact xlateOk_fields _ p hk16
  | error c => exact xlateFault_fields .precise c

/-- Two addresses share their page frame bits when their 4K page numbers are the same. -/
theorem ushiftRight_page_eq_iff (v w : Word) : v >>> 12 = w >>> 12 ↔ v.toNat / 4096 = w.toNat / 4096 := by
  simp only [← BitVec.toNat_inj, BitVec.toNat_ushiftRight, Nat.shiftRight_eq_div_pow]

/-- Settles O23: the cause of a fetch miss tells the page of PC from the others. -/
theorem xlateReportsAMiss : Obligations.XlateReportsAMiss := by
  intro t m a va s h hm hs hno
  rw [exec_xlate_enabled h hm hs, xlateResult_miss hno]
  cases a with
  | fetch =>
    simp only [missEvent, missCause, ne_eq, ushiftRight_page_eq_iff, ite_not]
    split <;> rfl
  | load =>
    simp only [missEvent, missCause]
    rfl
  | store =>
    simp only [missEvent, missCause]
    rfl

/-! ### The bytes of the TLB image -/

/-- Byte `j` of a slot value put together from bytes is the byte at `j` (spec/20_memory.md R104). -/
theorem bytesEntry_byte (l : List (BitVec 8)) (j : Nat) (hj : j < 8) (hl : j < l.length) :
    (bytesEntry l).extractLsb' (8 * j) 8 = l[j] := by
  induction l generalizing j with
  | nil => simp at hl
  | cons b l ih =>
    have hcons : bytesEntry (b :: l) = (bytesEntry l <<< 8) ||| b.setWidth 64 := rfl
    apply BitVec.eq_of_getLsbD_eq
    intro i hi
    have hin : 8 * j + i < 64 := by omega
    cases j with
    | zero => simp [hcons, hi, show i < 64 by omega]
    | succ j =>
      have hbyte := congrArg (·.getLsbD i) (ih j (by omega) (by simpa using hl))
      simp only [BitVec.getLsbD_extractLsb', hi, decide_true, Bool.true_and,
        BitVec.getLsbD_eq_getElem (show 8 * j + i < 64 by omega)] at hbyte
      have hge : b.getLsbD (8 * (j + 1) + i) = false := BitVec.getLsbD_of_ge _ _ (by omega)
      simpa [hcons, hi, hin, hge, show ¬8 * (j + 1) + i < 8 by omega, show 8 * (j + 1) + i - 8 = 8 * j + i by omega]
        using hbyte

/-- A slot value is known by its eight bytes. -/
theorem entry_ext_bytes {e e' : Entry} (h : ∀ j, j < 8 → e.extractLsb' (8 * j) 8 = e'.extractLsb' (8 * j) 8) : e = e' := by
  apply BitVec.eq_of_getLsbD_eq
  intro i hi
  have hbyte := congrArg (·.getLsbD (i % 8)) (h (i / 8) (by omega))
  simpa [Nat.mod_lt i (show 0 < 8 by decide), Nat.div_add_mod] using hbyte

theorem flatMap_range_length {α : Type} {f : Nat → List α} (hf : ∀ i, (f i).length = 8) (n : Nat) :
    ((List.range n).flatMap f).length = 8 * n := by
  simp [List.length_flatMap, hf, Nat.mul_comm]

/-- Where a list of blocks of eight is read at `8i + j`, block `i` is read at `j`. -/
theorem flatMap_range_getElem? {α : Type} {f : Nat → List α} (hf : ∀ i, (f i).length = 8) {n i j : Nat} (hi : i < n)
    (hj : j < 8) : ((List.range n).flatMap f)[8 * i + j]? = (f i)[j]? := by
  induction n with
  | zero => omega
  | succ n ih =>
    rw [List.range_succ, List.flatMap_append, List.flatMap_singleton]
    rcases Nat.lt_succ_iff_lt_or_eq.mp hi with hlt | rfl
    · rw [List.getElem?_append_left (by rw [flatMap_range_length hf]; omega), ih hlt]
    · rw [List.getElem?_append_right (by rw [flatMap_range_length hf]; omega), flatMap_range_length hf,
        Nat.add_sub_cancel_left]

theorem entryBytes_length (e : Entry) : (entryBytes e).length = 8 := by simp [entryBytes]

/-- The TLB image is 1536 bytes (spec/20_memory.md R104). -/
theorem tlbImage_length (m : Memory) : (tlbImage m).length = 1536 :=
  flatMap_range_length (fun _ => entryBytes_length _) tlbEntries

/-- Byte `8i + j` of the image is byte `j` of slot `i` (spec/20_memory.md R104). -/
theorem tlbImage_getElem? (m : Memory) {i j : Nat} (hi : i < tlbEntries) (hj : j < 8) :
    (tlbImage m)[8 * i + j]? = some ((Memory.read m i).extractLsb' (8 * j) 8) := by
  rw [tlbImage, flatMap_range_getElem? (fun i => entryBytes_length _) hi hj]
  simp [entryBytes, hj]

/-- Slots written one after the other read as they were written. -/
theorem read_foldl_write (f : Nat → Entry) (n j : Nat) :
    Memory.read ((List.range n).foldl (fun m i => Memory.write m i (f i)) []) j = if j < n then f j else 0 := by
  induction n with
  | zero => rfl
  | succ n ih =>
    rw [List.range_succ, List.foldl_append, List.foldl_cons, List.foldl_nil, Memory.read_write, ih]
    by_cases h : j = n
    · simp [h]
    · simp only [if_neg h, show j < n + 1 ↔ j < n by omega]

/-- Byte `8i + j` of an image that is written is byte `j` of slot `i` after it (spec/20_memory.md R104). -/
theorem imageTlb_byte {bytes : List (BitVec 8)} (hb : bytes.length = 1536) {i j : Nat} (hi : i < tlbEntries) (hj : j < 8) :
    bytes[8 * i + j]? = some ((Memory.read (imageTlb bytes) i).extractLsb' (8 * j) 8) := by
  have hi' : i < 192 := hi
  rw [imageTlb, read_foldl_write, if_pos hi, bytesEntry_byte _ j hj (by simp; omega)]
  simp [show 8 * i + j < bytes.length by omega]

/-- The store that the image of a store holds reads like it (spec/20_memory.md R104). -/
theorem read_imageTlb_tlbImage (m : Memory) {i : Nat} (hi : i < tlbEntries) :
    Memory.read (imageTlb (tlbImage m)) i = Memory.read m i :=
  entry_ext_bytes fun _ hj => Option.some.inj
    ((imageTlb_byte (tlbImage_length m) hi hj).symm.trans (tlbImage_getElem? m hi hj))

/-- A canonical store lists no slot from 192 on. -/
theorem Memory.read_of_ge {m : Memory} (h : Memory.wf m = true) {i : Nat} (hi : tlbEntries ≤ i) :
    Memory.read m i = Memory.unlisted :=
  Memory.read_unlisted fun c hc => by
    have := (((Memory.wf_iff m).mp h).1 c hc).1
    omega

/-- A canonical store is the one its image holds. -/
theorem imageTlb_tlbImage {m : Memory} (h : Memory.wf m = true) : imageTlb (tlbImage m) = m := by
  refine Memory.ext_of_wf (imageTlb_wf _) h fun i => ?_
  rcases Nat.lt_or_ge i tlbEntries with hi | hi
  · exact read_imageTlb_tlbImage m hi
  · rw [Memory.read_of_ge (imageTlb_wf _) hi, Memory.read_of_ge h hi]

/-! ### The transfers of the image -/

/-- The threads that exist are listed in their order (spec/10_state.md R20). -/
theorem tids_eq (p : Params) :
    (tids p.numThreads).length = p.numThreads ∧ ∀ u : Tid, u.val < p.numThreads → (tids p.numThreads)[u.val]? = some u := by
  have h : ∀ l : Tid, (tids (l.val + 1)).length = l.val + 1 ∧
      ∀ u : Tid, u.val < l.val + 1 → (tids (l.val + 1))[u.val]? = some u := by decide
  exact h p.lastTid

theorem mem_tids {n : Nat} {t : Tid} : t ∈ tids n ↔ t.val < n := by
  have hall : t ∈ ([0, 1, 2, 3, 4, 5, 6, 7] : List Tid) := by revert t; decide
  simp [tids, hall]

/-- A block is quiescent when every thread that exists has a clear bundle (spec/20_memory.md R105). -/
theorem quiescent_iff {s : State} : quiescent s = true ↔ ∀ t, s.hasThread t → (s.thread t).bundle = .clear := by
  simp [quiescent, mem_tids]

/-- A step that serves an image read only takes it off the port. -/
theorem step_imageRead {s : State} {rest : List Input} (h : s.port = .imageRead :: rest) :
    step s = serveImageRead { s with port := rest } := by
  rw [step, h]
  rfl

/-- A step that serves an image write only takes it off the port. -/
theorem step_imageWrite {s : State} {bytes : List (BitVec 8)} {g : RegImage} {rest : List Input}
    (h : s.port = .imageWrite bytes g :: rest) : step s = serveImageWrite bytes g { s with port := rest } := by
  rw [step, h]
  rfl

/-- A quiescent block answers an image read with its image (spec/20_memory.md R104, R105). -/
theorem serveImageRead_of {s : State} (hq : quiescent s = true) :
    serveImageRead s = .next { s with resp := none, sent := s.sent ++ [.image (tlbImage s.tlb) (regImage s)] } := by
  rw [serveImageRead, if_pos hq]
  rfl

/-- The state after an image is written: the store and the registers are the image's (spec/20_memory.md R105). -/
def State.withImage (s : State) (bytes : List (BitVec 8)) (g : RegImage) : State :=
  { s.mapThreads (fun u th => g.threads.getD u.val th) with
    tlb := imageTlb bytes
    syscfg := g.syscfg
    evb := g.evb
    cfgbase := g.cfgbase
    rev := g.rev
    pcycle := g.pcycle
    fatal := g.fatal
    resp := none }

@[simp] theorem State.withImage_thread (s : State) (bytes : List (BitVec 8)) (g : RegImage) (u : Tid) :
    (s.withImage bytes g).thread u = g.threads.getD u.val (s.thread u) :=
  State.mapThreads_thread s (fun u th => g.threads.getD u.val th) u

/-- A quiescent block takes an image of the right size (spec/20_memory.md R105; log entry 13). -/
theorem serveImageWrite_of {bytes : List (BitVec 8)} {g : RegImage} {s : State} (hq : quiescent s = true)
    (hb : bytes.length = 8 * tlbEntries) (hg : g.threads.length = s.cfg.numThreads) :
    serveImageWrite bytes g s = .next (s.withImage bytes g) := by
  rw [serveImageWrite, if_neg (by simp [hq]), if_neg (by simp [hb, hg])]
  rfl

/-- A quiescent block refuses an image of a wrong size (log entry 13). -/
theorem serveImageWrite_malformed {bytes : List (BitVec 8)} {g : RegImage} {s : State} (hq : quiescent s = true)
    (h : bytes.length ≠ 8 * tlbEntries ∨ g.threads.length ≠ s.cfg.numThreads) :
    serveImageWrite bytes g s = .refused .imageMalformed := by
  rw [serveImageWrite, if_neg (by simp [hq]), if_pos h]

/-- An image transfer while a bundle is not clear is refused (spec/20_memory.md R105). -/
theorem transfer_refused {s : State} (hq : quiescent s = false) :
    serveImageRead s = .refused .imageNotQuiescent ∧
      ∀ bytes g, serveImageWrite bytes g s = .refused .imageNotQuiescent :=
  ⟨by rw [serveImageRead, if_neg (by simp [hq])], fun bytes g => by rw [serveImageWrite, if_pos hq]⟩

/-- The register image read after a write is the one written (spec/20_memory.md R105). -/
theorem regImage_withImage {bytes : List (BitVec 8)} {g : RegImage} {s : State} (hg : g.threads.length = s.cfg.numThreads) :
    regImage (s.withImage bytes g) = g := by
  obtain ⟨hlen, hget⟩ := tids_eq s.cfg
  have ht : (tids s.cfg.numThreads).map (s.withImage bytes g).thread = g.threads := by
    apply List.ext_getElem?
    intro i
    rcases Nat.lt_or_ge i s.cfg.numThreads with hi | hi
    · have hi8 : i < 8 := hi.trans_le (numThreads_le s.cfg)
      have hig : i < g.threads.length := by omega
      rw [List.getElem?_map, hget ⟨i, hi8⟩ hi]
      simp [hig]
    · rw [List.getElem?_eq_none (by simp; omega), List.getElem?_eq_none (by omega)]
  calc regImage (s.withImage bytes g)
      = { g with threads := (tids s.cfg.numThreads).map (s.withImage bytes g).thread } := rfl
    _ = g := by rw [ht]

/-- Writing back the image that was read restores the state (spec/20_memory.md R105). -/
theorem withImage_self {s : State} (hw : Memory.wf s.tlb = true) :
    s.withImage (tlbImage s.tlb) (regImage s) = { s with resp := none } := by
  obtain ⟨hlen, hget⟩ := tids_eq s.cfg
  apply State.eq_of_threads
  · simp only [State.withImage, imageTlb_tlbImage hw]
    rfl
  · intro u
    rw [State.withImage_thread, State.thread_resp]
    change ((tids s.cfg.numThreads).map s.thread).getD u.val (s.thread u) = s.thread u
    rcases Nat.lt_or_ge u.val s.cfg.numThreads with hu | hu
    · simp [List.getD_eq_getElem?_getD, hget u hu]
    · exact List.getD_eq_default _ _ (by simp; omega)

/-- Settles O60: the layout byte by byte, then each transfer by the block's being quiescent and the image's size. -/
theorem theImageHoldsEverySlot : Obligations.TheImageHoldsEverySlot := by
  refine ⟨fun m => ⟨tlbImage_length m, fun i j hi hj => tlbImage_getElem? m hi hj, fun i hi => read_imageTlb_tlbImage m hi⟩,
    fun s rest => ⟨fun hclear => ?_, fun t ht hb hp => ?_⟩⟩
  · have hq : quiescent { s with port := rest } = true := quiescent_iff.mpr hclear
    refine ⟨fun hp => ?_, fun bytes g hp hb hg => ?_, fun hp hw => ?_, fun bytes g hp hbad => ?_⟩
    · rw [step_imageRead hp, serveImageRead_of hq]
      rfl
    · refine ⟨State.withImage { s with port := rest } bytes g, ?_, fun i j hi hj => imageTlb_byte hb hi hj,
        regImage_withImage hg, fun u hu => ?_, rfl, rfl, rfl, rfl, rfl, rfl⟩
      · rw [step_imageWrite hp, serveImageWrite_of hq hb hg]
      · rw [State.withImage_thread, List.getD_eq_default _ _ (by omega), State.thread_port]
    · rw [step_imageWrite hp, serveImageWrite_of hq (tlbImage_length _) (by simp [regImage, (tids_eq s.cfg).1])]
      exact congrArg Host.Outcome.next (withImage_self (s := { s with port := rest }) hw)
    · rw [step_imageWrite hp, serveImageWrite_malformed hq hbad]
  · have hq : quiescent { s with port := rest } = false :=
      Bool.eq_false_iff.mpr fun h => hb (quiescent_iff.mp h t ht)
    obtain ⟨hread, hwrite⟩ := transfer_refused hq
    rcases hp with hp | ⟨bytes, g, hp⟩
    · rw [step_imageRead hp, hread]
    · rw [step_imageWrite hp, hwrite]

end Sys2Proof.Machine
end

section
/-! PROOFS. The family of spec/30_encoding.md: the command words the decoder accepts and what each means (R111, R114 to R116),
the step that serves one (R119), the admission and the response of every command (R110, R113, R122 to R124), and what a command
leaves of the other threads. -/

namespace Sys2Proof

/-! ### The values of the fields -/

/-- The PRIV values that name a mode are those the encoder writes (spec/30_encoding.md R117). -/
theorem Mode.ofPriv_eq_some {v : BitVec 2} {m : Mode} : Mode.ofPriv v = some m ↔ v = m.toPriv := by
  cases m <;> revert v <;> decide

/-- The ACC values that name an access type are those the encoder writes (spec/30_encoding.md R118). -/
theorem Acc.ofField_eq_some {v : BitVec 2} {a : Acc} : Acc.ofField v = some a ↔ v = a.toField := by
  cases a <;> revert v <;> decide

/-- A SLOT value names one slot (spec/30_encoding.md R111). -/
theorem Slot.ofField_eq {v : BitVec 1} {k : Slot} : Slot.ofField v = k ↔ v = k.toField := by
  cases k <;> revert v <;> decide

/-- The SUB values that name a trap (spec/42_event_cmds.md R202). -/
theorem TrapNumber.ofSub_eq_some {v : BitVec 8} {k : TrapNumber} : TrapNumber.ofSub v = some k ↔ v = k.toSub := by
  cases k <;> revert v <;> decide

/-- The SUB values that name an event (spec/42_event_cmds.md R203). -/
theorem RaisedEvent.ofSub_eq_some {v : BitVec 8} {e : RaisedEvent} : RaisedEvent.ofSub v = some e ↔ v = e.toSub := by
  cases e <;> revert v <;> decide

/-- The SUB values that name an interrupt (spec/42_event_cmds.md R204). -/
theorem interruptOfSub_eq_some {v : BitVec 8} {n : Fin 16} : interruptOfSub v = some n ↔ v = BitVec.ofNat 8 n.val := by
  constructor
  · intro h
    unfold interruptOfSub at h
    split at h
    · cases h
      simp
    · cases h
  · rintro rfl
    exact interruptOfSub_ofNat n

/-- The SUB values that name a register (spec/43_sreg.md R230). -/
theorem SReg.ofSub_eq_some {v : BitVec 8} {r : SReg} : SReg.ofSub v = some r ↔ v = r.toSub := by
  constructor
  · intro h
    unfold SReg.ofSub at h
    split at h <;> cases h
    all_goals exact BitVec.eq_of_toNat_eq ‹_›
  · rintro rfl
    cases r <;> rfl

/-! ### What each row of the field-use table accepts -/

theorem Fields.unusedZero_iff {f : Fields} {p a k i u : Bool} :
    f.unusedZero p a k i u = true ↔ (p = true ∨ f.priv = 0) ∧ (a = true ∨ f.acc = 0) ∧ (k = true ∨ f.slot = 0) ∧
      (i = true ∨ f.imm8 = 0) ∧ (u = true ∨ f.sub = 0) := by
  simp [Fields.unusedZero, and_assoc]

section
variable {f : Fields} {t : Tid} {va v : Word} {i j : Instr}

theorem decodePlain_ok : decodePlain f j = .ok i ↔ f.unusedZero false false false false false = true ∧ j = i := by
  unfold decodePlain
  split <;> simp [*]

theorem decodeXlate_ok : decodeXlate f t va = .ok i ↔ f.unusedZero true true false false false = true ∧
    ∃ m a, f.priv = m.toPriv ∧ f.acc = a.toField ∧ .xlate t m a va = i := by
  simp only [← Mode.ofPriv_eq_some, ← Acc.ofField_eq_some]
  unfold decodeXlate
  split
  · split <;> simp [*]
  · simp [*]

theorem decodeRaiseTlbmiss_ok : decodeRaiseTlbmiss f t va = .ok i ↔ f.unusedZero false true true false false = true ∧
    ∃ a k, f.acc = a.toField ∧ f.slot = k.toField ∧ .raiseTlbmiss t a k va = i := by
  simp only [← Acc.ofField_eq_some, ← Slot.ofField_eq]
  unfold decodeRaiseTlbmiss
  split
  · split <;> simp [*]
  · simp [*]

/-- A fetch fault names slot 0 (spec/42_event_cmds.md R201). -/
theorem decodeRaisePrecise_ok : decodeRaisePrecise f t va = .ok i ↔ f.unusedZero false true true true false = true ∧
    ∃ a k, f.acc = a.toField ∧ f.slot = k.toField ∧ ¬(a = .fetch ∧ k = .slot1) ∧ .raisePrecise t a k f.imm8 va = i := by
  simp only [← Acc.ofField_eq_some, ← Slot.ofField_eq]
  unfold decodeRaisePrecise
  split
  · split
    · simp [*]
    · simp [*]
    next a ha hslot =>
      have hk : a = .fetch → Slot.ofField f.slot ≠ .slot1 := fun hf hk => hslot hk hf
      simpa [*] using fun _ => hk
  · simp [*]

theorem decodeRaiseTrap_ok : decodeRaiseTrap f t = .ok i ↔ f.unusedZero false false false true true = true ∧
    ∃ k, f.sub = TrapNumber.toSub k ∧ .raiseTrap t k f.imm8 = i := by
  simp only [← TrapNumber.ofSub_eq_some]
  unfold decodeRaiseTrap
  split
  · split <;> simp [*]
  · simp [*]

theorem decodeRaiseEvent_ok : decodeRaiseEvent f t = .ok i ↔ f.unusedZero false false false true true = true ∧
    ∃ e, f.sub = RaisedEvent.toSub e ∧ .raiseEvent t e f.imm8 = i := by
  simp only [← RaisedEvent.ofSub_eq_some]
  unfold decodeRaiseEvent
  split
  · split <;> simp [*]
  · simp [*]

theorem decodeRaiseInt_ok : decodeRaiseInt f t = .ok i ↔ f.unusedZero false false false false true = true ∧
    ∃ n : Fin 16, f.sub = BitVec.ofNat 8 n.val ∧ .raiseInt t n = i := by
  simp only [← interruptOfSub_eq_some]
  unfold decodeRaiseInt
  split
  · split <;> simp [*]
  · simp [*]

theorem decodeSregR_ok : decodeSregR f t = .ok i ↔ f.unusedZero false false false false true = true ∧
    ∃ r, f.sub = SReg.toSub r ∧ .sregR t r = i := by
  simp only [← SReg.ofSub_eq_some]
  unfold decodeSregR
  split
  · split <;> simp [*]
  · simp [*]

theorem decodeSregW_ok : decodeSregW f t v = .ok i ↔ f.unusedZero false false false false true = true ∧
    ∃ r, f.sub = SReg.toSub r ∧ .sregW t r v = i := by
  simp only [← SReg.ofSub_eq_some]
  unfold decodeSregW
  split
  · split <;> simp [*]
  · simp [*]

end

/-- A word decodes when its TID names a thread, its Z is zero, and the row of its OP accepts it (spec/30_encoding.md R114). -/
theorem decode_ok {n : Nat} {k : Command} {i : Instr} :
    decode n k = .ok i ↔ (Fields.ofWord k.cmd).tid.toNat < n ∧ (Fields.ofWord k.cmd).z = 0 ∧
      decodeOp (Fields.ofWord k.cmd) (tidOfField (Fields.ofWord k.cmd).tid) k = .ok i := by
  unfold decode
  dsimp only
  split
  · simp only [reduceCtorEq, false_iff]; omega
  · split <;> simp_all

/-! ### Decode of encode -/

/-- A command is well formed when its thread exists and it reports no fetch fault of slot 1 (spec/30_encoding.md R114,
R116). -/
theorem Instr.wf_iff {n : Nat} {i : Instr} :
    i.wf n = true ↔ i.tid.val < n ∧ ∀ t c va, i ≠ .raisePrecise t .fetch .slot1 c va := by
  cases i with
  | raisePrecise t a k c va => cases a <;> cases k <;> simp [Instr.wf]
  | _ => simp [Instr.wf]

/-- The row of a command's OP reads the command back from its fields and its buses (spec/30_encoding.md R112, R115, R116). -/
theorem decodeOp_fields {i : Instr} (h : ∀ t c va, i ≠ .raisePrecise t .fetch .slot1 c va) :
    decodeOp i.fields i.tid (encode i) = .ok i := by
  cases i with
  | tlbp t va asid => exact decodePlain_ok.mpr ⟨rfl, congrArg₂ (Instr.tlbp t) (busA_low32 va) (busB_low8 asid)⟩
  | xlate t m a va => exact decodeXlate_ok.mpr ⟨rfl, m, a, rfl, rfl, congrArg (Instr.xlate t m a) (busA_low32 va)⟩
  | raiseTlbmiss t a k va =>
    exact decodeRaiseTlbmiss_ok.mpr ⟨rfl, a, k, rfl, rfl, congrArg (Instr.raiseTlbmiss t a k) (busA_low32 va)⟩
  | raisePrecise t a k c va =>
    refine decodeRaisePrecise_ok.mpr ⟨rfl, a, k, rfl, rfl, ?_, congrArg (Instr.raisePrecise t a k c) (busA_low32 va)⟩
    rintro ⟨rfl, rfl⟩
    exact h t c va rfl
  | raiseTrap t k imm => exact decodeRaiseTrap_ok.mpr ⟨rfl, k, rfl, rfl⟩
  | raiseEvent t e c => exact decodeRaiseEvent_ok.mpr ⟨rfl, e, rfl, rfl⟩
  | raiseInt t n => exact decodeRaiseInt_ok.mpr ⟨rfl, n, rfl, rfl⟩
  | sregR t r => exact decodeSregR_ok.mpr ⟨rfl, r, rfl, rfl⟩
  | sregW t r v => exact decodeSregW_ok.mpr ⟨rfl, r, rfl, congrArg (Instr.sregW t r) (busA_low32 v)⟩
  | _ => exact decodePlain_ok.mpr ⟨rfl, rfl⟩

/-- Settles O2: the fields of the encoded word are the command's, and the row of its OP reads it back. -/
theorem encodedCommandsDecode : Obligations.EncodedCommandsDecode := by
  intro n i h
  obtain ⟨ht, hslot⟩ := Instr.wf_iff.mp h
  have hf : Fields.ofWord (encode i).cmd = i.fields := Fields.ofWord_toWord i.fields
  rw [decode_ok, hf, Instr.fields_tid, tidOfField_ofNat]
  exact ⟨by simpa using ht, i.fields_z, decodeOp_fields hslot⟩

/-! ### Encode of decode -/

theorem Fields.eq_of_fields {f g : Fields} (hop : f.op = g.op) (htid : f.tid = g.tid) (hpriv : f.priv = g.priv)
    (hacc : f.acc = g.acc) (hslot : f.slot = g.slot) (hz : f.z = g.z) (himm : f.imm8 = g.imm8) (hsub : f.sub = g.sub) :
    f = g := by
  cases f
  simp_all

/-- The fields of a command are those of a word that agrees with them on TID, OP and the used fields, when the other fields
of both are zero (spec/30_encoding.md R111, R116). -/
theorem Instr.fields_eq {i : Instr} {f : Fields} {p a k m u : Bool} (ht : i.tid = tidOfField f.tid) (hz : f.z = 0)
    (hop : f.op.toNat = i.fields.op.toNat) (hf : f.unusedZero p a k m u = true) (hi : i.fields.unusedZero p a k m u = true)
    (hpriv : p = true → f.priv = i.fields.priv := by nofun) (hacc : a = true → f.acc = i.fields.acc := by nofun)
    (hslot : k = true → f.slot = i.fields.slot := by nofun) (himm : m = true → f.imm8 = i.fields.imm8 := by nofun)
    (hsub : u = true → f.sub = i.fields.sub := by nofun) : i.fields = f := by
  have used : ∀ {w : Nat} {b : Bool} {x y : BitVec w}, (b = true ∨ x = 0) → (b = true ∨ y = 0) → (b = true → x = y) →
      y = x := by
    intro w b x y hx hy h
    cases b with
    | true => exact (h rfl).symm
    | false => rw [hx.resolve_left nofun, hy.resolve_left nofun]
  obtain ⟨fp, fa, fk, fm, fu⟩ := Fields.unusedZero_iff.mp hf
  obtain ⟨ip, ia, ik, im, iu⟩ := Fields.unusedZero_iff.mp hi
  have htid : i.fields.tid = f.tid := by rw [Instr.fields_tid, ht, ofNat_tidOfField]
  exact Fields.eq_of_fields (BitVec.eq_of_toNat_eq hop.symm) htid (used fp ip hpriv) (used fa ia hacc) (used fk ik hslot)
    (i.fields_z.trans hz.symm) (used fm im himm) (used fu iu hsub)

/-- Every row accepts a word only for the command whose fields it holds, and no fetch fault of slot 1
(spec/30_encoding.md R115, R116). -/
theorem fields_of_decodeOp {f : Fields} {k : Command} {i : Instr} (hz : f.z = 0)
    (h : decodeOp f (tidOfField f.tid) k = .ok i) : i.fields = f ∧ ∀ t c va, i ≠ .raisePrecise t .fetch .slot1 c va := by
  unfold decodeOp at h
  split at h
  case h_6 _ hop =>
    obtain ⟨hu, m, a, hp, ha, rfl⟩ := decodeXlate_ok.mp h
    exact ⟨Instr.fields_eq rfl hz hop hu rfl (hpriv := fun _ => hp) (hacc := fun _ => ha), nofun⟩
  case h_11 _ hop =>
    obtain ⟨hu, a, s, ha, hs, rfl⟩ := decodeRaiseTlbmiss_ok.mp h
    exact ⟨Instr.fields_eq rfl hz hop hu rfl (hacc := fun _ => ha) (hslot := fun _ => hs), nofun⟩
  case h_12 _ hop =>
    obtain ⟨hu, a, s, ha, hs, hn, rfl⟩ := decodeRaisePrecise_ok.mp h
    refine ⟨Instr.fields_eq rfl hz hop hu rfl (hacc := fun _ => ha) (hslot := fun _ => hs) (himm := fun _ => rfl), ?_⟩
    rintro t c va ⟨⟩
    exact hn ⟨rfl, rfl⟩
  case h_13 _ hop =>
    obtain ⟨hu, n, hn, rfl⟩ := decodeRaiseTrap_ok.mp h
    exact ⟨Instr.fields_eq rfl hz hop hu rfl (himm := fun _ => rfl) (hsub := fun _ => hn), nofun⟩
  case h_14 _ hop =>
    obtain ⟨hu, e, he, rfl⟩ := decodeRaiseEvent_ok.mp h
    exact ⟨Instr.fields_eq rfl hz hop hu rfl (himm := fun _ => rfl) (hsub := fun _ => he), nofun⟩
  case h_15 _ hop =>
    obtain ⟨hu, n, hn, rfl⟩ := decodeRaiseInt_ok.mp h
    exact ⟨Instr.fields_eq rfl hz hop hu rfl (hsub := fun _ => hn), nofun⟩
  case h_17 _ hop =>
    obtain ⟨hu, r, hr, rfl⟩ := decodeSregR_ok.mp h
    exact ⟨Instr.fields_eq rfl hz hop hu rfl (hsub := fun _ => hr), nofun⟩
  case h_18 _ hop =>
    obtain ⟨hu, r, hr, rfl⟩ := decodeSregW_ok.mp h
    exact ⟨Instr.fields_eq rfl hz hop hu rfl (hsub := fun _ => hr), nofun⟩
  case h_20 => cases h
  all_goals
    obtain ⟨hu, rfl⟩ := decodePlain_ok.mp h
    exact ⟨Instr.fields_eq rfl hz ‹f.op.toNat = _› hu rfl, nofun⟩

/-- Settles O3: the row that accepts the word holds every field of it. -/
theorem decodedWordsAreEncodings : Obligations.DecodedWordsAreEncodings := by
  intro n k i h
  obtain ⟨ht, hz, hop⟩ := decode_ok.mp h
  obtain ⟨hf, hslot⟩ := fields_of_decodeOp hz hop
  refine ⟨Instr.wf_iff.mpr ⟨decode_tid_lt h, hslot⟩, ?_⟩
  change i.fields.toWord = k.cmd
  rw [hf, Fields.toWord_ofWord]

/-! ### The malformed words -/

/-- A field holds the code of some value when it is in the list of codes. -/
theorem exists_code_iff {α : Type} {w : Nat} (code : α → BitVec w) (l : List α) (hl : ∀ a, a ∈ l) {v : BitVec w} :
    (∃ a, v = code a) ↔ v.toNat ∈ l.map fun a => (code a).toNat := by
  simp [hl, ← BitVec.toNat_inj, eq_comm]

theorem Mode.exists_toPriv {v : BitVec 2} : (∃ m : Mode, v = m.toPriv) ↔ v.toNat ∈ [0, 1, 2] :=
  exists_code_iff Mode.toPriv [.user, .guest, .kernel] fun m => by cases m <;> simp

theorem Acc.exists_toField {v : BitVec 2} : (∃ a : Acc, v = a.toField) ↔ v.toNat ∈ [0, 1, 2] :=
  exists_code_iff Acc.toField [.fetch, .load, .store] fun a => by cases a <;> simp

theorem Slot.exists_toField {v : BitVec 1} : (∃ k : Slot, v = k.toField) ↔ v.toNat ∈ [0, 1] :=
  exists_code_iff Slot.toField [.slot0, .slot1] fun k => by cases k <;> simp

theorem TrapNumber.exists_toSub {v : BitVec 8} : (∃ k : TrapNumber, v = k.toSub) ↔ v.toNat ∈ [0, 1] :=
  exists_code_iff TrapNumber.toSub [.trap0, .trap1] fun k => by cases k <;> simp

theorem RaisedEvent.exists_toSub {v : BitVec 8} : (∃ e : RaisedEvent, v = e.toSub) ↔ v.toNat ∈ [0x0B, 0x0C] :=
  exists_code_iff RaisedEvent.toSub [.fptrap, .debug] fun e => by cases e <;> simp

theorem exists_interrupt {v : BitVec 8} : (∃ n : Fin 16, v = BitVec.ofNat 8 n.val) ↔ v.toNat ∈ List.range 16 :=
  exists_code_iff (fun n : Fin 16 => BitVec.ofNat 8 n.val) (List.finRange 16) List.mem_finRange

theorem SReg.exists_toSub {v : BitVec 8} : (∃ r : SReg, v = r.toSub) ↔ v.toNat ∈ registerNumbers :=
  exists_code_iff SReg.toSub [.ssr, .elr, .badva0, .badva1, .badva, .diag, .evb, .syscfg, .modectl, .cfgbase, .rev, .pcycleLo,
    .pcycleHi] fun r => by cases r <;> simp

theorem toNat_mem_zero {w : Nat} {v : BitVec w} : v.toNat ∈ [0] ↔ v = 0 := by simp [← BitVec.toNat_inj]

/-- A row of the field-use table admits the fields of a word, TID and Z apart (spec/30_encoding.md R116). -/
def FieldUse.Admits (u : FieldUse) (f : Fields) : Prop :=
  f.priv.toNat ∈ u.priv ∧ f.acc.toNat ∈ u.acc ∧
    f.slot.toNat ∈ (if f.acc.toNat = 0 then u.slotAtFetch else u.slot) ∧ (u.imm8Used = true ∨ f.imm8 = 0) ∧
    f.sub.toNat ∈ u.sub

section
variable {f : Fields} {t : Tid} {va v : Word} {j : Instr}

theorem decodePlain_accepts : (∃ i, decodePlain f j = .ok i) ↔ FieldUse.Admits {} f := by
  simp only [decodePlain_ok, Fields.unusedZero_iff, FieldUse.Admits, toNat_mem_zero, ite_self]
  grind

theorem decodeXlate_accepts :
    (∃ i, decodeXlate f t va = .ok i) ↔ FieldUse.Admits { priv := [0, 1, 2], acc := [0, 1, 2] } f := by
  simp only [decodeXlate_ok, Fields.unusedZero_iff, FieldUse.Admits, toNat_mem_zero, ite_self,
    ← Mode.exists_toPriv (v := f.priv), ← Acc.exists_toField (v := f.acc)]
  grind

theorem decodeRaiseTlbmiss_accepts : (∃ i, decodeRaiseTlbmiss f t va = .ok i) ↔
    FieldUse.Admits { acc := [0, 1, 2], slot := [0, 1], slotAtFetch := [0, 1] } f := by
  simp only [decodeRaiseTlbmiss_ok, Fields.unusedZero_iff, FieldUse.Admits, toNat_mem_zero, ite_self,
    ← Acc.exists_toField, ← Slot.exists_toField]
  grind

/-- The SLOT values admitted of a precise fault depend on its ACC (spec/30_encoding.md R116). -/
theorem slot_mem_of_acc {a : Acc} {w : BitVec 1} :
    w.toNat ∈ (if a.toField.toNat = 0 then [0] else [0, 1]) ↔ ∃ k : Slot, w = k.toField ∧ ¬(a = .fetch ∧ k = .slot1) := by
  cases a with
  | fetch => exact toNat_mem_zero.trans ⟨fun h => ⟨.slot0, h, nofun⟩, fun ⟨k, h, hk⟩ => by cases k <;> simp_all [Slot.toField]⟩
  | load => exact Slot.exists_toField.symm.trans (by simp)
  | store => exact Slot.exists_toField.symm.trans (by simp)

theorem decodeRaisePrecise_accepts : (∃ i, decodeRaisePrecise f t va = .ok i) ↔
    FieldUse.Admits { acc := [0, 1, 2], slot := [0, 1], imm8Used := true } f := by
  simp only [decodeRaisePrecise_ok, Fields.unusedZero_iff, FieldUse.Admits, toNat_mem_zero, ← Acc.exists_toField]
  constructor
  · rintro ⟨_, ⟨hp, -, -, -, hu⟩, a, k, ha, hk, hn, -⟩
    exact ⟨hp.resolve_left nofun, ⟨a, ha⟩, by rw [ha]; exact slot_mem_of_acc.mpr ⟨k, hk, hn⟩, .inl trivial,
      hu.resolve_left nofun⟩
  · rintro ⟨hp, ⟨a, ha⟩, hs, -, hu⟩
    rw [ha] at hs
    obtain ⟨k, hk, hn⟩ := slot_mem_of_acc.mp hs
    exact ⟨_, ⟨.inr hp, .inl trivial, .inl trivial, .inl trivial, .inr hu⟩, a, k, ha, hk, hn, rfl⟩

theorem decodeRaiseTrap_accepts :
    (∃ i, decodeRaiseTrap f t = .ok i) ↔ FieldUse.Admits { imm8Used := true, sub := [0, 1] } f := by
  simp only [decodeRaiseTrap_ok, Fields.unusedZero_iff, FieldUse.Admits, toNat_mem_zero, ite_self,
    ← TrapNumber.exists_toSub]
  grind

theorem decodeRaiseEvent_accepts :
    (∃ i, decodeRaiseEvent f t = .ok i) ↔ FieldUse.Admits { imm8Used := true, sub := [0x0B, 0x0C] } f := by
  simp only [decodeRaiseEvent_ok, Fields.unusedZero_iff, FieldUse.Admits, toNat_mem_zero, ite_self,
    ← RaisedEvent.exists_toSub]
  grind

theorem decodeRaiseInt_accepts :
    (∃ i, decodeRaiseInt f t = .ok i) ↔ FieldUse.Admits { sub := List.range 16 } f := by
  simp only [decodeRaiseInt_ok, Fields.unusedZero_iff, FieldUse.Admits, toNat_mem_zero, ite_self, ← exists_interrupt]
  grind

theorem decodeSregR_accepts : (∃ i, decodeSregR f t = .ok i) ↔ FieldUse.Admits { sub := registerNumbers } f := by
  simp only [decodeSregR_ok, Fields.unusedZero_iff, FieldUse.Admits, toNat_mem_zero, ite_self, ← SReg.exists_toSub]
  grind

theorem decodeSregW_accepts : (∃ i, decodeSregW f t v = .ok i) ↔ FieldUse.Admits { sub := registerNumbers } f := by
  simp only [decodeSregW_ok, Fields.unusedZero_iff, FieldUse.Admits, toNat_mem_zero, ite_self, ← SReg.exists_toSub]
  grind

end

/-- The row of an OP accepts the words that the row of the field-use table admits (spec/30_encoding.md R115, R116). -/
theorem decodeOp_accepts {f : Fields} {t : Tid} {k : Command} :
    (∃ i, decodeOp f t k = .ok i) ↔ ∃ u, fieldUse f.op.toNat = some u ∧ u.Admits f := by
  have row : ∀ {o : Except DecodeError Instr} {u : FieldUse}, ((∃ i, o = .ok i) ↔ u.Admits f) → fieldUse f.op.toNat = some u →
      ((∃ i, o = .ok i) ↔ ∃ u, fieldUse f.op.toNat = some u ∧ u.Admits f) := by
    intro o u h hu
    simp [h, hu]
  unfold decodeOp
  split
  case h_6 _ hop => exact row decodeXlate_accepts (by rw [hop]; rfl)
  case h_11 _ hop => exact row decodeRaiseTlbmiss_accepts (by rw [hop]; rfl)
  case h_12 _ hop => exact row decodeRaisePrecise_accepts (by rw [hop]; rfl)
  case h_13 _ hop => exact row decodeRaiseTrap_accepts (by rw [hop]; rfl)
  case h_14 _ hop => exact row decodeRaiseEvent_accepts (by rw [hop]; rfl)
  case h_15 _ hop => exact row decodeRaiseInt_accepts (by rw [hop]; rfl)
  case h_17 _ hop => exact row decodeSregR_accepts (by rw [hop]; rfl)
  case h_18 _ hop => exact row decodeSregW_accepts (by rw [hop]; rfl)
  case h_20 =>
    have hop : f.op.toNat = 0 ∨ 0x14 ≤ f.op.toNat := by grind
    have hnone : fieldUse f.op.toNat = none := if_pos hop
    simp [hnone]
  all_goals exact row decodePlain_accepts (by rw [‹f.op.toNat = _›]; rfl)

/-- A word decodes when its TID names a thread, its Z is zero, and its OP has a row that admits it (spec/30_encoding.md
R114). -/
theorem decode_accepts {n : Nat} {k : Command} :
    (∃ i, decode n k = .ok i) ↔ (Fields.ofWord k.cmd).tid.toNat < n ∧ (Fields.ofWord k.cmd).z = 0 ∧
      ∃ u, fieldUse (Fields.ofWord k.cmd).op.toNat = some u ∧ u.Admits (Fields.ofWord k.cmd) := by
  simp only [decode_ok, ← decodeOp_accepts (t := tidOfField (Fields.ofWord k.cmd).tid) (k := k), exists_and_left]

/-- The bit positions that `malformed` writes out are those of the fields (spec/30_encoding.md R111). -/
theorem malformed_iff {n : Nat} {w : Word} :
    malformed n w = true ↔ ¬((Fields.ofWord w).tid.toNat < n ∧ (Fields.ofWord w).z = 0 ∧
      ∃ u, fieldUse (Fields.ofWord w).op.toNat = some u ∧ u.Admits (Fields.ofWord w)) := by
  have field : ∀ lo len, (w.extractLsb' lo len).toNat = w.toNat / 2 ^ lo % 2 ^ len := fun lo len => by
    simp [Nat.shiftRight_eq_div_pow]
  have hop : (Fields.ofWord w).op.toNat = w.toNat / 2 ^ 27 := by
    have := w.isLt
    simp only [Fields.ofWord, field]
    omega
  unfold malformed
  rw [← hop]
  cases fieldUse (Fields.ofWord w).op.toNat with
  | none => simp
  | some u =>
    simp only [FieldUse.Admits, Fields.ofWord, field, ← BitVec.toNat_inj]
    grind

/-- Settles O4: the decoder accepts the words that the field-use table admits. -/
theorem decoderRejectsExactlyMalformedWords : Obligations.DecoderRejectsExactlyMalformedWords := by
  intro n k
  rw [malformed_iff, ← decode_accepts]
  cases decode n k <;> simp

/-! ### The words of the test vectors -/

theorem decode_of_encode {n : Nat} {k : Command} {i : Instr} (hw : i.wf n = true) (hk : encode i = k) :
    decode n k = .ok i := hk ▸ encodedCommandsDecode n i hw

/-- Settles O1: nine of the words are encodings of the commands, and the last names a thread that does not exist. -/
theorem specWordsDecode : Obligations.SpecWordsDecode :=
  ⟨decode_of_encode rfl rfl, decode_of_encode rfl rfl, decode_of_encode rfl rfl, decode_of_encode rfl rfl,
    decode_of_encode rfl rfl, decode_of_encode rfl rfl, decode_of_encode rfl rfl, decode_of_encode rfl rfl,
    decode_of_encode rfl rfl, rfl⟩

namespace Machine

/-! ### The step that serves a command -/

theorem step_command {s : State} {k : Command} {rest : List Input} (hp : s.port = .command k :: rest) :
    step s = serveCommand k
      { s with port := rest, inBundle := bundleAfter s.cfg.numThreads s.inBundle (.command k) } := by
  unfold step
  rw [hp]
  rfl

/-- A command that decodes is executed (spec/30_encoding.md R110). -/
theorem step_ok {s : State} {k : Command} {rest : List Input} {i : Instr} (hp : s.port = .command k :: rest)
    (hd : decode s.cfg.numThreads k = .ok i) :
    step s = exec i { s with
      port := rest, inBundle := if i.isInterrupt then s.inBundle else if i.isCommit then none else some i.tid } := by
  rw [step_command hp, bundleAfter_ok hd]
  unfold serveCommand
  simp only [hd]

/-- A malformed word is answered and belongs to no bundle (spec/30_encoding.md R119). -/
theorem step_error {s : State} {k : Command} {rest : List Input} {e : DecodeError} (hp : s.port = .command k :: rest)
    (hd : decode s.cfg.numThreads k = .error e) : step s = answerMalformed { s with port := rest } := by
  rw [step_command hp, bundleAfter_error hd]
  unfold serveCommand
  simp only [hd]

/-- Settles O5, from the decoder's three facts: what decodes is well formed, what is malformed does not decode, and a word put
first is the one served. -/
theorem stepExecutesTheDecodedCommand : Obligations.StepExecutesTheDecodedCommand := by
  unfold Obligations.StepExecutesTheDecodedCommand
  intro opens
  refine ⟨fun s k rest hp => ⟨fun i hd => ⟨(decodedWordsAreEncodings _ _ _ hd).1, step_ok hp hd⟩, fun hm hf => ?_⟩,
    fun s nbits w i hd => step_ok rfl hd⟩
  obtain ⟨e, he⟩ := (decoderRejectsExactlyMalformedWords _ k).mpr hm
  rw [step_error hp he]
  exact if_neg (by simp [hf])

/-! ### What an admitted command answers -/

/-- The outcome of a command's rule: the answer OK, or the fatal stop (spec/30_encoding.md R113, spec/60_exceptions.md
R275). -/
def OkOrStops (o : Out) : Prop :=
  (∃ s' r, o = .next s' ∧ s'.resp = some ⟨.ok, r⟩) ∨
    ∃ st, o = .fault (.fatalStop st) ∧ st.fatal ≠ none ∧ st.resp = some ⟨.fatal, 0⟩

theorem OkOrStops.answer (r : BitVec 64) (s : State) : OkOrStops (answer .ok r s) := .inl ⟨_, r, rfl, rfl⟩

theorem OkOrStops.stop (reason : FatalReason) (t : Tid) (e : BitVec 5) (c : BitVec 8) (s : State) :
    OkOrStops (stop reason t e c s) := .inr ⟨_, rfl, by simp [State.stopped], rfl⟩

theorem OkOrStops.withValidSizes {t : Tid} {s : State} {k : State → Out} (h : OkOrStops (k s)) :
    OkOrStops (withValidSizes t s k) := by
  unfold Machine.withValidSizes
  split
  · exact .stop ..
  · exact h

theorem OkOrStops.overlapCheck {t : Tid} {c : Entry} {s : State} {k : Int → State → Out} (h : ∀ r, OkOrStops (k r s)) :
    OkOrStops (overlapCheck t c s k) := by
  refine .withValidSizes ?_
  split
  · exact .stop ..
  · exact h _

theorem OkOrStops.acquireCommand (l : LockId) (t : Tid) (s : State) : OkOrStops (acquireCommand l t s) := by
  unfold Machine.acquireCommand
  split <;> exact .answer ..

theorem OkOrStops.finishCommit (t : Tid) (s : State) : OkOrStops (finishCommit t s) := .answer ..

/-- A dispatch that does not stop the block ends its COMMIT (spec/60_exceptions.md R252). -/
theorem OkOrStops.dispatch (t : Tid) (c : Word) (l : Latch) (s : State) :
    OkOrStops (andThen (Machine.dispatch t c l s) (Machine.finishCommit t)) := by
  rw [dispatch_eq]
  unfold branchEvent
  split
  · exact .stop ..
  split
  · split <;> exact .finishCommit ..
  · exact .finishCommit ..

/-- Every command but RAISE_INT has one rule, which runs under the admission of the lists of R123 and R124
(spec/30_encoding.md R122). -/
theorem exec_eq_whenAdmitted {i : Instr} (h : i.isInterrupt = false) (s : State) :
    ∃ run, exec i s = whenAdmitted ⟨i.privileged, i.suppressible, i.isCommit⟩ i.tid s run ∧ OkOrStops (run s) := by
  cases i with
  | tlbw t e b => exact ⟨_, exec_tlbw t s e b, .answer ..⟩
  | tlbr t b => exact ⟨_, exec_tlbr t s b, .answer ..⟩
  | tlbp t va asid => exact ⟨_, exec_tlbp t s va asid, .withValidSizes (.answer ..)⟩
  | tlboc t c => exact ⟨_, exec_tlboc t s c, .overlapCheck fun _ => .answer ..⟩
  | ctlbw t e b => exact ⟨_, exec_ctlbw t s e b, .overlapCheck fun _ => .answer ..⟩
  | xlate t m a va =>
    refine ⟨_, exec_xlate t s m a va, ?_⟩
    split
    · exact .answer ..
    · exact .withValidSizes (.answer ..)
  | tlblock t => exact ⟨_, exec_lock t s .tlb, .acquireCommand ..⟩
  | tlbunlock t => exact ⟨_, exec_unlock t s .tlb, .answer ..⟩
  | k0lock t => exact ⟨_, exec_lock t s .k0, .acquireCommand ..⟩
  | k0unlock t => exact ⟨_, exec_unlock t s .k0, .answer ..⟩
  | raiseTlbmiss t a k va => exact ⟨_, exec_raiseTlbmiss t s a k va, .answer ..⟩
  | raisePrecise t a k c va => exact ⟨_, exec_raisePrecise t s a k c va, .answer ..⟩
  | raiseTrap t n imm => exact ⟨_, exec_raiseTrap t s n imm, .answer ..⟩
  | raiseEvent t e c => exact ⟨_, exec_raiseEvent t s e c, .answer ..⟩
  | raiseInt t n => cases h
  | rte t => exact ⟨_, exec_rte t s, .answer ..⟩
  | sregR t r => exact ⟨_, exec_sregR t s r, .answer ..⟩
  | sregW t r v => exact ⟨_, exec_sregW t s r v, .answer ..⟩
  | commit t c =>
    refine ⟨_, exec_commit t s c, ?_⟩
    split
    · exact .dispatch ..
    · exact .finishCommit ..

/-- A stopped block answers FATAL and changes nothing (spec/30_encoding.md R122 step 1). -/
theorem exec_of_fatal {i : Instr} {s : State} (h : s.fatal ≠ none) : exec i s = answer .fatal 0 s := by
  have hf : s.fatal.isSome = true := Option.isSome_iff_ne_none.mpr h
  cases hi : i.isInterrupt with
  | false =>
    obtain ⟨run, he, -⟩ := exec_eq_whenAdmitted hi s
    rw [he]
    exact if_pos hf
  | true =>
    obtain ⟨t, n, rfl⟩ := Instr.isInterrupt_iff.mp hi
    exact if_pos hf

section
variable {c : Admission} {t : Tid} {s : State} {run : State → Out}

/-- Steps 5 and 6 of the admission (spec/30_encoding.md R122). -/
def Suppressed (c : Admission) (th : Thread) : Prop :=
  (th.missWait = true ∧ c.isCommit = false) ∨ (c.suppressible = true ∧ th.latch ≠ none)

/-- A command that step 5 or 6 drops changes nothing (spec/30_encoding.md R122). -/
theorem whenAdmitted_of_suppressed (hf : s.fatal = none) (ht : (s.thread t).tmode = .run) (h : Suppressed c (s.thread t)) :
    whenAdmitted c t s run = answer .suppressed 0 s := by
  unfold whenAdmitted
  rw [if_neg (by simp [hf]), if_neg (by simp [ht])]
  by_cases hw : (s.thread t).missWait = true ∧ c.isCommit = false
  · exact if_pos hw
  · obtain ⟨hs, hl⟩ := h.resolve_left hw
    rw [if_neg hw, if_pos ⟨hs, Option.isSome_iff_ne_none.mpr hl⟩]

/-- A privileged command outside KERNEL mode that reaches step 7 registers PRECISE/0x1B (spec/30_encoding.md R122). -/
theorem whenAdmitted_of_unprivileged (hf : s.fatal = none) (ht : (s.thread t).tmode = .run)
    (hs : ¬Suppressed c (s.thread t)) (hp : c.privileged = true ∧ s.mode t ≠ .kernel) :
    whenAdmitted c t s run = answer .faulted 0 (raise t .precise 0x1B none s) := by
  obtain ⟨hw, hl⟩ := not_or.mp hs
  unfold whenAdmitted
  rw [if_neg (by simp [hf]), if_neg (by simp [ht]), if_neg hw, if_neg (by simpa [Option.isSome_iff_ne_none] using hl),
    if_pos hp]

/-- A command that no step turns away runs its rule (spec/30_encoding.md R122 step 8). -/
theorem runs_of_not_suppressed (hf : s.fatal = none) (ht : (s.thread t).tmode = .run) (hs : ¬Suppressed c (s.thread t))
    (hp : ¬(c.privileged = true ∧ s.mode t ≠ .kernel)) : Runs c t s := by
  obtain ⟨hw, hl⟩ := not_or.mp hs
  refine ⟨hf, ht, ?_, fun h => not_not.mp fun hn => hl ⟨h, hn⟩, fun h => not_not.mp fun hn => hp ⟨h, hn⟩⟩
  cases hc : c.isCommit with
  | true => exact .inl rfl
  | false => exact .inr (Bool.eq_false_iff.mpr fun h => hw ⟨h, hc⟩)

end

/-- Settles O7: the steps in their order, and the rule of the command at the end of them. -/
theorem admissionStepsDecideTheResponse : Obligations.AdmissionStepsDecideTheResponse := by
  refine fun i s => ⟨exec_of_fatal, fun hf hi => ?_⟩
  obtain ⟨run, he, hrun⟩ := exec_eq_whenAdmitted hi s
  rw [he]
  split
  next ht => exact whenAdmitted_of_not_run hf ht run
  next ht =>
  have ht := not_not.mp ht
  split
  next hs => exact whenAdmitted_of_suppressed hf ht hs
  next hs =>
  split
  next hp => exact whenAdmitted_of_unprivileged hf ht hs hp
  next hp =>
  rw [whenAdmitted_of_runs (runs_of_not_suppressed (c := ⟨i.privileged, i.suppressible, i.isCommit⟩) hf ht hs hp)]
  exact hrun

/-- What an accepted or rejected interrupt answers (spec/42_event_cmds.md R204). -/
theorem interrupt_answers {t : Tid} {n : Fin 16} {s s' : State} (h : exec (.raiseInt t n) s = .next s') :
    (∃ code, code ≠ .ok ∧ s' = s.respond code 0) ∨ s'.resp = some ⟨.ok, 0⟩ := by
  rw [exec_raiseInt] at h
  unfold execRaiseInt at h
  split at h
  · exact .inl ⟨.fatal, by decide, (answer_next.mp h).symm⟩
  split at h
  · exact .inr (by rw [← answer_next.mp h]; rfl)
  · exact .inl ⟨.rejected, by decide, (answer_next.mp h).symm⟩

/-- A command is turned away with nothing else changed, faulted, or answered OK (spec/30_encoding.md R113, R122). -/
theorem exec_answers {i : Instr} {s s' : State} (h : exec i s = .next s') :
    (∃ code, code ≠ .ok ∧ s' = s.respond code 0) ∨ s'.resp = some ⟨.faulted, 0⟩ ∨ ∃ r, s'.resp = some ⟨.ok, r⟩ := by
  cases hi : i.isInterrupt with
  | true =>
    obtain ⟨t, n, rfl⟩ := Instr.isInterrupt_iff.mp hi
    exact (interrupt_answers h).imp id fun hr => .inr ⟨0, hr⟩
  | false =>
    obtain ⟨run, he, hrun⟩ := exec_eq_whenAdmitted hi s
    rw [he] at h
    rcases whenAdmitted_next h with ⟨code, hc, rfl⟩ | ⟨rfl, -⟩ | ⟨-, h⟩
    · exact .inl ⟨code, by rcases hc with rfl | rfl | rfl <;> decide, rfl⟩
    · exact .inr (.inl rfl)
    · rcases hrun with ⟨m, r, hm, hr⟩ | ⟨st, hst, -⟩
      · cases hm.symm.trans h
        exact .inr (.inr ⟨r, hr⟩)
      · cases hst.symm.trans h

/-- Settles O8, by the ways a command can be answered. -/
theorem everyCommandReturnsOneResponse : Obligations.EveryCommandReturnsOneResponse := by
  refine ⟨fun i s s' h => ?_, rfl, rfl, rfl, rfl, rfl, rfl, fun code => by cases code <;> decide⟩
  rcases exec_answers h with ⟨code, -, rfl⟩ | hr | ⟨r, hr⟩
  · exact ⟨code, 0, rfl, fun _ => rfl, fun _ _ => rfl⟩
  · exact ⟨.faulted, 0, hr, fun _ => rfl, fun _ hn => absurd rfl hn⟩
  · exact ⟨.ok, r, hr, fun hn => absurd rfl hn, fun hn => absurd rfl hn⟩

/-! ### What a command leaves of the other threads -/

/-- A release makes one waiting thread the owner, or leaves the other threads alone (spec/41_lock.md R182). -/
theorem release_wakes_waiter {t u : Tid} (hu : u ≠ t) (l : LockId) (s : State) :
    (release l t s).thread u = s.thread u ∨
      (lockState l (s.thread u) = .waiting ∧ (release l t s).thread u = setLockState l .owner (s.thread u)) := by
  rcases release_cases l t s with ⟨-, h⟩ | ⟨-, -, h⟩ | ⟨-, w, hw, h⟩
  · exact .inl (by rw [h])
  · exact .inl (by simp [h, State.modThread_thread_ne _ hu])
  · by_cases huw : u = w
    · subst huw
      have hwait := List.find?_some hw
      exact .inr ⟨by simpa [State.modThread_thread_ne _ hu] using hwait, by simp [h, State.modThread_thread_ne _ hu]⟩
    · exact .inl (by simp [h, State.modThread_thread_ne _ hu, State.modThread_thread_ne _ huw])

/-- The double-exception override never makes an event IMPRECISE (spec/60_exceptions.md R251). -/
theorem overrideDouble_imprecise {th : Thread} {l : Latch} (h : (overrideDouble th l).2.event = .imprecise) :
    l.event = .imprecise := by
  rcases overrideDouble_cases th l with ⟨-, he⟩ | ⟨-, -, he⟩ <;> rw [he] at h
  · exact h
  · cases h

/-- A dispatch of any event but IMPRECISE leaves the other threads alone (spec/60_exceptions.md R260). -/
theorem dispatch_other_thread {t u : Tid} {n : Word} {l : Latch} {s m : State} (hu : u ≠ t)
    (h : dispatch t n l s = .next m) : m.thread u = s.thread u ∨ l.event = .imprecise := by
  by_cases hl : l.event = .imprecise
  · exact .inr hl
  have hq : (overrideDouble (s.thread t) l).2.event ≠ .imprecise := mt overrideDouble_imprecise hl
  rw [dispatch_eq] at h
  generalize overrideDouble (s.thread t) l = q at h hq
  obtain ⟨-, ⟨-, rfl⟩ | ⟨-, -, rfl⟩ | ⟨-, -, rfl⟩⟩ := branchEvent_next h
  · exact .inl (by rw [takeEvent_thread_ne hu, if_neg hq, State.setThread_thread_ne _ hu])
  · exact .inl (by rw [takeEvent_thread_ne hu, if_neg hq, acquire_thread_ne hu, State.setThread_thread_ne _ hu])
  · exact .inl (by rw [State.modThread_thread_ne _ hu, acquire_thread_ne hu, State.setThread_thread_ne _ hu])

/-- Of the system registers MODECTL alone reaches the other threads (spec/43_sreg.md R230, R234). -/
theorem sregWrite_other_thread {t u : Tid} (hu : u ≠ t) (r : SReg) (v : Word) (s : State) :
    (sregWrite t r v s).thread u = s.thread u ∨ r = .modectl := by
  cases r
  case modectl => exact .inr rfl
  all_goals exact .inl (by simp [sregWrite, State.modThread_thread_ne _ hu])

/-- Settles O57, command by command. -/
theorem commandsLeaveOtherThreadsAlone : Obligations.CommandsLeaveOtherThreadsAlone := by
  intro i s s' u h hu
  obtain ⟨m, code, r, hE, rfl⟩ := effect_of_exec h
  rw [State.respond_thread]
  cases hE with
  | keep | store | cycles => exact .inl rfl
  | faulted | multiMatch | missed | raised => exact .inl (raise_thread_ne hu ..)
  | acquired l t =>
    rw [lockInstr_tid] at hu
    exact .inl (acquire_thread_ne hu l s)
  | retried l t =>
    rw [lockInstr_tid] at hu
    exact .inl (by rw [State.modThread_thread_ne _ hu, acquire_thread_ne hu])
  | released l t =>
    rw [unlockInstr_tid] at hu ⊢
    exact (release_wakes_waiter hu l s).imp id fun h => .inl ⟨l, rfl, h⟩
  | interrupted t =>
    have hut : u ≠ t := hu
    exact .inl (by rw [enter, State.modThread_thread_ne _ hut, State.modThread_thread_ne _ hut])
  | returning t => exact .inl (State.modThread_thread_ne _ hu _)
  | written t r v =>
    exact (sregWrite_other_thread hu r v s).imp id fun h => .inr (.inr ⟨v, by rw [h]; rfl⟩)
  | ended t c =>
    have hut : u ≠ t := hu
    exact .inl (by rw [State.modThread_thread_ne _ hut, State.modThread_thread_ne _ hut])
  | dispatched t c s m l h hl hd =>
    have hut : u ≠ t := hu
    rw [State.modThread_thread_ne _ hut]
    exact (dispatch_other_thread hut hd).imp id fun h => .inr (.inl ⟨c, l, rfl, hl, h⟩)

end Machine

end Sys2Proof
end

section
/-! PROOFS. The family of spec/40_tlb.md: the index wrap (R141), the read and the write of a slot (R142, R143), the probe
(R144), and the overlap check with the conditional write that rests on it (R145, R146). -/

namespace Sys2Proof.Machine

/-! ### The index wrap -/

/-- The mask of the index wrap is the remainder by 256, TLB_ENTRIES rounded up to a power of two (spec/40_tlb.md R141). -/
theorem wrapIndex_eq (b : Word) :
    wrapIndex b = if 192 ≤ b.toNat % 256 then b.toNat % 256 - 192 else b.toNat % 256 := by
  have hmask : (b &&& 0xFF#32).toNat = b.toNat % 256 := by
    rw [BitVec.toNat_and]
    exact Nat.and_two_pow_sub_one_eq_mod b.toNat 8
  simp only [wrapIndex, tlbEntries, hmask]

/-- Settles O10: a number below 256 is below twice 192, so one subtraction is the remainder. -/
theorem indexWrapsIntoTheStore : Obligations.IndexWrapsIntoTheStore := by
  intro b
  refine ⟨wrapIndex_eq b, ?_, wrapIndex_lt b⟩
  rw [wrapIndex_eq]
  split <;> omega

/-! ### Reading and writing a slot -/

/-- What an admitted TLBW does (spec/40_tlb.md R142). -/
theorem Admitted.exec_tlbw {t : Tid} {e : Entry} {b : Word} {s : State} (h : Admitted (.tlbw t e b) s) :
    exec (.tlbw t e b) s = .next ({ s with tlb := Memory.write s.tlb (wrapIndex b) e }.respond .ok 0) := by
  rw [Machine.exec_tlbw, h.run]
  rfl

/-- What an admitted TLBR does (spec/40_tlb.md R143). -/
theorem Admitted.exec_tlbr {t : Tid} {b : Word} {s : State} (h : Admitted (.tlbr t b) s) :
    exec (.tlbr t b) s = .next (s.respond .ok (Memory.read s.tlb (wrapIndex b))) := by
  rw [Machine.exec_tlbr, h.run]
  rfl

/-- Settles O11: a store after a write, slot by slot. -/
theorem tlbwWritesOneSlot : Obligations.TlbwWritesOneSlot := fun _ e b s h =>
  ⟨_, h.exec_tlbw, fun j => Memory.read_write s.tlb (wrapIndex b) j e, rfl, rfl⟩

/-- Settles O12: a TLBW changes nothing the admission of the TLBR looks at, and the slot read is the slot written. -/
theorem tlbrReturnsTheSlot : Obligations.TlbrReturnsTheSlot := by
  refine ⟨fun t b s h => h.exec_tlbr, fun t u e b b' s hw hr hbb' => ?_⟩
  have hr' : Admitted (.tlbr u b') ({ s with tlb := Memory.write s.tlb (wrapIndex b) e }.respond .ok 0) := hr
  refine ⟨_, _, hw.exec_tlbw, hr'.exec_tlbr, ?_⟩
  simp [State.respond, hbb']

/-! ### The probe -/

/-- What an admitted TLBP does when no slot stops it (spec/40_tlb.md R144). -/
theorem Admitted.exec_tlbp {t : Tid} {va : Word} {asid : BitVec 8} {s : State} (h : Admitted (.tlbp t va asid) s)
    (hs : SizesValid s.tlb) :
    exec (.tlbp t va asid) s =
      .next ((if 2 ≤ (slotsWhere s.tlb (lookupMatch asid va)).length then raise t .imprecise 0x44 none s else s).respond .ok
        (probeResult (slotsWhere s.tlb (lookupMatch asid va)))) := by
  rw [Machine.exec_tlbp, h.run, withValidSizes_of hs]
  rfl

/-- Into an empty latch an event is registered as it is (spec/60_exceptions.md R243). -/
theorem raise_of_empty {t : Tid} {s : State} (hl : (s.thread t).latch = none) (e : Event) (c : BitVec 8) (a : Addr) :
    raise t e c a s = s.modThread t (fun th => { th with latch := some (newLatch e c a) }) := by
  simp only [raise, State.modThread, hl, register]

/-- Settles O16, by the number of matching slots. The latch that takes the multi-match is empty, since TLBP is suppressible. -/
theorem tlbpReportsTheUniqueMatch : Obligations.TlbpReportsTheUniqueMatch := by
  intro t va asid s h hs
  rw [h.exec_tlbp hs]
  refine ⟨fun i hi hone => ?_, fun hnone => ?_, fun i j hij hj hmi hmj => ?_⟩
  · rw [slotsWhere_eq_singleton hi hone]
    rfl
  · rw [slotsWhere_eq_nil.mpr hnone]
    rfl
  · obtain ⟨a, b, rest, hl⟩ := slotsWhere_two hij hj hmi hmj
    obtain ⟨-, -, -, hsuppressible, -⟩ := h
    have hempty : (s.thread t).latch = none := hsuppressible rfl
    rw [hl, if_pos (by simp), raise_of_empty hempty]
    rfl

/-! ### The overlap check -/

/-- What an admitted TLBOC does when no entry stops it (spec/40_tlb.md R145). -/
theorem Admitted.exec_tlboc {t : Tid} {c : Entry} {s : State} (h : Admitted (.tlboc t c) s) (hs : SizesValid s.tlb)
    (hc : sizeInvalid c = false) :
    exec (.tlboc t c) s = .next (s.respond .ok (sext64 (overlapValue (slotsWhere s.tlb (overlaps c))))) := by
  rw [Machine.exec_tlboc, h.run, overlapCheck_of t s hs hc]
  rfl

/-- What an admitted CTLBW does when no entry stops it (spec/40_tlb.md R146). -/
theorem Admitted.exec_ctlbw {t : Tid} {e : Entry} {b : Word} {s : State} (h : Admitted (.ctlbw t e b) s)
    (hs : SizesValid s.tlb) (he : sizeInvalid e = false) :
    exec (.ctlbw t e b) s =
      .next ((if overlapValue (slotsWhere s.tlb (overlaps e)) = -2 then
        { s with tlb := Memory.write s.tlb (wrapIndex b) e } else s).respond .ok
          (sext64 (overlapValue (slotsWhere s.tlb (overlaps e))))) := by
  rw [Machine.exec_ctlbw, h.run, overlapCheck_of t s hs he]
  rfl

section
variable {c : Entry} {m : Memory}

/-- The value of the check when no slot overlaps (spec/40_tlb.md R145). -/
theorem overlapValue_of_none (hnone : ∀ j, j < tlbEntries → overlaps c (Memory.read m j) = false) :
    overlapValue (slotsWhere m (overlaps c)) = -2 :=
  overlapValue_eq_neg_two.mpr (slotsWhere_eq_nil.mpr hnone)

/-- The value of the check when one slot overlaps. -/
theorem overlapValue_of_one {i : Nat} (hi : i < tlbEntries)
    (hone : ∀ j, j < tlbEntries → (overlaps c (Memory.read m j) = true ↔ j = i)) :
    overlapValue (slotsWhere m (overlaps c)) = i := by
  rw [slotsWhere_eq_singleton hi hone]
  rfl

/-- The value of the check when two slots overlap, or more. -/
theorem overlapValue_of_two {i j : Nat} (hij : i < j) (hj : j < tlbEntries)
    (hoi : overlaps c (Memory.read m i) = true) (hoj : overlaps c (Memory.read m j) = true) :
    overlapValue (slotsWhere m (overlaps c)) = -1 := by
  obtain ⟨a, b, rest, hl⟩ := slotsWhere_two hij hj hoi hoj
  rw [hl]
  rfl

end

/-- A slot's number is answered as it is (spec/40_tlb.md R145). -/
theorem sext64_natCast (i : Nat) : sext64 i = BitVec.ofNat 64 i := BitVec.ofInt_natCast ..

/-- Settles O17, by the number of overlapping slots. -/
theorem tlbocAnswersTheTrichotomy : Obligations.TlbocAnswersTheTrichotomy := by
  intro t c s h hs hc
  rw [h.exec_tlboc hs hc]
  refine ⟨fun hnone => ?_, fun i hi hone => ?_, fun i j hij hj hoi hoj => ?_⟩
  · rw [overlapValue_of_none hnone]
    rfl
  · rw [overlapValue_of_one hi hone, sext64_natCast]
    rfl
  · rw [overlapValue_of_two hij hj hoi hoj]
    rfl

/-- Settles O18, by the number of overlapping slots: with none the value is -2 and the slot is written, and no other value is
-2. -/
theorem ctlbwWritesOnlyWithoutOverlap : Obligations.CtlbwWritesOnlyWithoutOverlap := by
  intro t e b s h hs he
  rw [h.exec_ctlbw hs he]
  refine ⟨fun hnone => ?_, fun i hi hone => ?_, fun i j hij hj hoi hoj => ?_⟩
  · rw [overlapValue_of_none hnone, if_pos rfl]
    exact ⟨_, rfl, fun j => Memory.read_write s.tlb (wrapIndex b) j e, rfl, rfl⟩
  · rw [overlapValue_of_one hi hone, if_neg (by omega), sext64_natCast]
    rfl
  · rw [overlapValue_of_two hij hj hoi hoj, if_neg (by decide)]
    rfl

end Sys2Proof.Machine
end

section
/-! PROOFS. The family of spec/41_lock.md: acquiring (R181, R184, R187), releasing in the round-robin order (R182, R183, R185,
R188), the wait for a held lock (R186), and the lock invariants that every step keeps (R45, R189). -/

namespace Sys2Proof.Machine

/-! ### Writing a thread or a lock twice -/

/-- Two changes of one thread are one change. -/
theorem State.modThread_modThread (s : State) (t : Tid) (f g : Thread → Thread) :
    (s.modThread t f).modThread t g = s.modThread t (fun th => g (f th)) := by
  refine State.eq_of_threads rfl fun u => ?_
  simp only [State.modThread_thread]
  split <;> rfl

/-- A change that leaves its thread as it was leaves the block as it was. -/
theorem State.modThread_eq_self {s : State} {t : Tid} {f : Thread → Thread} (h : f (s.thread t) = s.thread t) :
    s.modThread t f = s := by
  refine State.eq_of_threads rfl fun u => ?_
  rw [State.modThread_thread]
  split
  next hu => rw [hu, h]
  · rfl

/-- The last write of a lock's bit counts. -/
theorem syscfgSetLock_setLock (l : LockId) (v : Word) (a b : Bool) :
    syscfgSetLock l (syscfgSetLock l v a) b = syscfgSetLock l v b := by
  apply BitVec.eq_of_getLsbD_eq
  intro j _
  simp only [syscfgSetLock_getLsbD]
  split <;> rfl

/-- Writing the lock state that a thread has changes nothing. -/
theorem setLockState_eq_self {l : LockId} {v : LockState} {th : Thread} (h : lockState l th = v) :
    setLockState l v th = th := by
  subst h
  cases l <;> rfl

theorem lockState_setLockState_ne {k l : LockId} (hk : k ≠ l) (v : LockState) (th : Thread) :
    lockState k (setLockState l v th) = lockState k th := by rw [lockState_set, if_neg hk]

/-! ### Acquiring -/

/-- What an admitted lock command does (spec/41_lock.md R184, R187). -/
theorem Admitted.exec_lock {l : LockId} {t : Tid} {s : State} (h : Admitted (lockInstr l t) s) :
    exec (lockInstr l t) s = acquireCommand l t s := by
  rw [Machine.exec_lock]
  exact h.run _ (by cases l <;> rfl) (lockInstr_tid l t).symm

/-- What a lock command answers when its acquire advances (spec/41_lock.md R184, R187). -/
theorem acquireCommand_of_advance {l : LockId} {t : Tid} {s m : State} (h : acquire l t s = (m, true)) :
    acquireCommand l t s = .next (m.respond .ok 1) := by rw [acquireCommand, h]; rfl

/-- A thread whose bundle is asked for again (spec/10_state.md R40). -/
def Thread.askAgain (th : Thread) : Thread := { th with bundle := { th.bundle with retry := true } }

/-- What a lock command does when its acquire retries: the thread waits, and its bundle is asked for again
(spec/41_lock.md R181, R184, R187). -/
theorem acquireCommand_of_retry {l : LockId} {t : Tid} {s : State} (hb : syscfgLock l s.syscfg = true)
    (ho : lockState l (s.thread t) ≠ .owner) :
    acquireCommand l t s =
      .next (((s.modThread t (setLockState l .waiting)).modThread t Thread.askAgain).respond .ok 0) := by
  rw [acquireCommand, acquire, if_neg (by simp [hb]), if_neg ho]
  rfl

/-- Settles O26, by the three outcomes of an acquire. -/
theorem acquireTakesAFreeLock : Obligations.AcquireTakesAFreeLock := by
  intro l t s h
  rw [h.exec_lock]
  rcases acquire_cases l t s with ⟨hb, hq⟩ | ⟨hb, ho, hq⟩ | ⟨hb, ho, -⟩
  · rw [acquireCommand_of_advance hq, if_pos hb]
    rfl
  · rw [acquireCommand_of_advance hq, if_neg (by simp [hb]), if_pos ho]
    rfl
  · rw [acquireCommand_of_retry hb ho, if_neg (by simp [hb]), if_neg ho, State.modThread_modThread]
    simp only [Thread.askAgain, setLockState_bundle]
    rfl

/-! ### Waiting -/

/-- The end of a bundle that is asked for again, and that wrote no thread mode, leaves the thread alone
(spec/42_event_cmds.md R206). -/
theorem endBundle_of_retry {th : Thread} (hr : th.bundle.retry = true) (hm : th.bundle.selfmode = none) (c : Word) :
    endBundle c th = th := by
  unfold endBundle
  rw [if_pos hr, hm]
  rfl

/-- A COMMIT of a bundle that is asked for again clears the bundle state and does nothing else (spec/42_event_cmds.md R206). -/
theorem commit_of_retry {t : Tid} {s : State} (c : Word) (h : Admitted (.commit t c) s) (hl : (s.thread t).latch = none)
    (hr : (s.thread t).bundle.retry = true) (hm : (s.thread t).bundle.selfmode = none) :
    exec (.commit t c) s =
      .next ((s.modThread t (fun th => { th with bundle := .clear })).respond .ok ((s.thread t).pc.setWidth 64)) := by
  rw [exec_commit, h.run, hl]
  exact (congrArg (finishCommit t) (State.modThread_eq_self (endBundle_of_retry hr hm c))).trans (finishCommit_eq t s)

/-- Settles O28: the lock command sets the retry flag alone, which keeps the COMMIT from moving the thread, and the COMMIT clears
it. -/
theorem waitingForALockIsAStutter : Obligations.WaitingForALockIsAStutter := by
  intro l t c s h hbundle hb hw
  have hlock : exec (lockInstr l t) s = .next ((s.modThread t Thread.askAgain).respond .ok 0) := by
    rw [h.exec_lock, acquireCommand_of_retry hb (by simp [hw]), State.modThread_eq_self (setLockState_eq_self hw)]
  generalize hs' : (s.modThread t Thread.askAgain).respond .ok 0 = s' at hlock
  have hth : s'.thread t = (s.thread t).askAgain := by rw [← hs', State.respond_thread, State.modThread_thread_self]
  obtain ⟨hfatal, hrun, -, hlatch, -⟩ := h
  rw [lockInstr_tid] at hrun hlatch
  have hadm : Admitted (.commit t c) s' :=
    ⟨by rw [← hs']; exact hfatal, by rw [Instr.tid, hth]; exact hrun, .inl rfl, nofun, nofun⟩
  have hcommit := commit_of_retry c hadm (by rw [hth]; exact hlatch (by cases l <;> rfl)) (by rw [hth]; rfl)
    (by rw [hth, Thread.askAgain, hbundle]; rfl)
  refine ⟨s', _, hlock, hcommit, ?_⟩
  subst hs'
  calc (s.modThread t Thread.askAgain).modThread t (fun th => { th with bundle := .clear })
      = s.modThread t (fun th => { th with bundle := .clear }) := State.modThread_modThread ..
    _ = s := State.modThread_eq_self (by rw [← hbundle])

/-! ### Releasing -/

/-- What an admitted unlock command does (spec/41_lock.md R185, R188). -/
theorem Admitted.exec_unlock {l : LockId} {t : Tid} {s : State} (h : Admitted (unlockInstr l t) s) :
    exec (unlockInstr l t) s = .next ((release l t s).respond .ok 0) := by
  rw [Machine.exec_unlock, h.run _ (by cases l <;> rfl) (unlockInstr_tid l t).symm]
  rfl

/-- The place of a thread in the ring after thread `t`, without the wrap (spec/41_lock.md R183). -/
theorem ringDistance_eq {n : Nat} {u : Tid} (t : Tid) (hu : u.val < n) :
    ringDistance n t u = if t.val ≤ u.val then u.val - t.val else u.val + n - t.val := by
  unfold ringDistance
  split
  · rw [show u.val + n - t.val = u.val - t.val + n by omega, Nat.add_mod_right, Nat.mod_eq_of_lt (by omega)]
  · exact Nat.mod_eq_of_lt (by omega)

/-- Two threads at the same distance are the same thread. -/
theorem eq_of_ringDistance {n : Nat} {t u w : Tid} (ht : t.val < n) (hu : u.val < n) (hw : w.val < n)
    (h : ringDistance n t u = ringDistance n t w) : u = w := by
  rw [ringDistance_eq t hu, ringDistance_eq t hw] at h
  apply Fin.ext
  split at h <;> split at h <;> omega

/-- The `k`th thread of the round-robin sequence stands at the distance `k + 1`. -/
theorem ringDistance_afterThread {n k : Nat} {t : Tid} (hn : n ≤ 8) (ht : t.val < n) (hk : k < n - 1) :
    ringDistance n t (Fin.ofNat 8 ((t.val + 1 + k) % n)) = k + 1 := by
  have hlt : (t.val + 1 + k) % n < n := Nat.mod_lt _ (by omega)
  have hval : (Fin.ofNat 8 ((t.val + 1 + k) % n)).val = (t.val + 1 + k) % n := Nat.mod_eq_of_lt (by omega)
  rw [ringDistance_eq t (by omega), hval]
  rcases Nat.lt_or_ge (t.val + 1 + k) n with h | h
  · rw [Nat.mod_eq_of_lt h, if_pos (by omega)]
    omega
  · rw [Nat.mod_eq_sub_mod h, Nat.mod_eq_of_lt (by omega), if_neg (by omega)]
    omega

/-- The round-robin sequence names the threads in the order of their distance (spec/41_lock.md R183). -/
theorem afterThread_pairwise {n : Nat} {t : Tid} (hn : n ≤ 8) (ht : t.val < n) :
    (afterThread n t).Pairwise (fun u v => ringDistance n t u < ringDistance n t v) := by
  rw [afterThread, List.pairwise_map]
  refine List.pairwise_lt_range.imp_of_mem fun ha hb hab => ?_
  rw [ringDistance_afterThread hn ht (List.mem_range.mp ha), ringDistance_afterThread hn ht (List.mem_range.mp hb)]
  omega

/-- The selected waiter is the nearest one (spec/41_lock.md R183). -/
theorem nextWaiter_nearest {l : LockId} {t w u : Tid} {s : State} (ht : s.hasThread t) (h : nextWaiter l t s = some w)
    (hu : s.hasThread u) (hut : u ≠ t) (hwait : lockState l (s.thread u) = .waiting) :
    ringDistance s.cfg.numThreads t w ≤ ringDistance s.cfg.numThreads t u := by
  obtain ⟨-, before, after, hl, hbefore⟩ := List.find?_eq_some_iff_append.mp h
  have hmem : u ∈ before ++ w :: after := by
    rw [← hl]
    exact (mem_afterThread (numThreads_le s.cfg) ht).mpr ⟨hu, hut⟩
  have hord := afterThread_pairwise (numThreads_le s.cfg) ht
  rw [hl, List.pairwise_append, List.pairwise_cons] at hord
  obtain ⟨-, ⟨hafter, -⟩, -⟩ := hord
  rcases List.mem_append.mp hmem with hm | hm
  · simpa [hwait] using hbefore u hm
  rcases List.mem_cons.mp hm with rfl | hm
  · exact Nat.le_refl _
  · exact Nat.le_of_lt (hafter u hm)

/-- The block once thread `t` has left the lock and before a waiting thread gets it (spec/41_lock.md R182). -/
def freed (l : LockId) (t : Tid) (s : State) : State := (s.setLockBit l false).modThread t (setLockState l .unlocked)

@[simp] theorem freed_lockState_self (l : LockId) (t : Tid) (s : State) : lockState l ((freed l t s).thread t) = .unlocked := by
  simp [freed]

theorem freed_lockState_ne {t u : Tid} (hut : u ≠ t) (l : LockId) (s : State) :
    lockState l ((freed l t s).thread u) = lockState l (s.thread u) := by
  rw [freed, State.modThread_thread_ne _ hut, State.setLockBit_thread]

section
variable {l : LockId} {t w : Tid} {s : State}

/-- A release by a thread that does not own the lock is a no-op (spec/41_lock.md R182). -/
theorem release_of_not_owner (ho : lockState l (s.thread t) ≠ .owner) : release l t s = s := if_pos ho

/-- A release by the owner, by whether a waiter is selected (spec/41_lock.md R182). -/
theorem release_of_owner (ho : lockState l (s.thread t) = .owner) :
    (nextWaiter l t (freed l t s) = none ∧ release l t s = freed l t s) ∨
      ∃ w, nextWaiter l t (freed l t s) = some w ∧
        release l t s = ((freed l t s).modThread w (setLockState l .owner)).setLockBit l true :=
  ((release_cases l t s).resolve_left fun h => h.1 ho).imp And.right And.right

/-- No waiter is selected at a release only when no other thread waits. -/
theorem nextWaiter_freed_none (ht : s.hasThread t) (h : nextWaiter l t (freed l t s) = none) {u : Tid} (hu : s.hasThread u)
    (hut : u ≠ t) : lockState l (s.thread u) ≠ .waiting := by
  rw [← freed_lockState_ne hut]
  exact (nextWaiter_none (s := freed l t s) ht).mp h u hu hut

/-- The waiter selected at a release is the nearest of the other threads that wait (spec/41_lock.md R183). -/
theorem nextWaiter_freed_some (ht : s.hasThread t) (h : nextWaiter l t (freed l t s) = some w) :
    s.hasThread w ∧ lockState l (s.thread w) = .waiting ∧
      ∀ u, s.hasThread u → u ≠ t → lockState l (s.thread u) = .waiting →
        ringDistance s.cfg.numThreads t w ≤ ringDistance s.cfg.numThreads t u := by
  obtain ⟨hw, hwt, hwait⟩ := nextWaiter_some (s := freed l t s) ht h
  refine ⟨hw, (freed_lockState_ne hwt l s).symm.trans hwait, fun u hu hut hwait' => ?_⟩
  exact nextWaiter_nearest (s := freed l t s) ht h hu hut ((freed_lockState_ne hut l s).trans hwait')

/-- A release with no thread waiting frees the lock (spec/41_lock.md R182). -/
theorem release_of_no_waiter (ht : s.hasThread t) (ho : lockState l (s.thread t) = .owner)
    (hnone : ∀ u, s.hasThread u → lockState l (s.thread u) ≠ .waiting) : release l t s = freed l t s := by
  rcases release_of_owner ho with ⟨-, hr⟩ | ⟨w, hn, -⟩
  · exact hr
  · obtain ⟨hw, hwait, -⟩ := nextWaiter_freed_some ht hn
    exact absurd hwait (hnone w hw)

/-- A release hands the lock to the nearest waiting thread: the one selected is as near, so it is that one (spec/41_lock.md
R182, R183). -/
theorem release_of_nearest (ht : s.hasThread t) (ho : lockState l (s.thread t) = .owner) (hw : s.hasThread w)
    (hwait : lockState l (s.thread w) = .waiting)
    (hnear : ∀ u, s.hasThread u → lockState l (s.thread u) = .waiting →
      ringDistance s.cfg.numThreads t w ≤ ringDistance s.cfg.numThreads t u) :
    release l t s = ((freed l t s).modThread w (setLockState l .owner)).setLockBit l true := by
  have hwt : w ≠ t := by
    rintro rfl
    simp [ho] at hwait
  rcases release_of_owner ho with ⟨hn, -⟩ | ⟨v, hn, hr⟩
  · exact absurd hwait (nextWaiter_freed_none ht hn hw hwt)
  · obtain ⟨hv, hvwait, hvnear⟩ := nextWaiter_freed_some ht hn
    rw [hr, eq_of_ringDistance ht hv hw (Nat.le_antisymm (hvnear w hw hwt hwait) (hnear v hv hvwait))]

end

/-- Settles O27, by who owns the lock and who waits for it. -/
theorem releaseHandsTheLockToTheNextWaiter : Obligations.ReleaseHandsTheLockToTheNextWaiter := by
  intro l t s h ht
  rw [h.exec_unlock]
  refine ⟨fun ho => ?_, fun ho hnone => ?_, fun ho w hw hwait hnear => ?_⟩
  · rw [release_of_not_owner ho]
    rfl
  · rw [release_of_no_waiter ht ho hnone]
    rfl
  · rw [release_of_nearest ht ho hw hwait hnear, ← syscfgSetLock_setLock l s.syscfg false true]
    rfl

/-! ### When the lock invariants hold -/

/-- The change from `s` to `s'` leaves lock `l` alone but for resets of threads: the parameters and the lock's bit are the same,
and each thread's state for the lock is the same or Unlocked (spec/70_reset_and_hazards.md R305, R318). -/
structure LockSteady (l : LockId) (s s' : State) : Prop where
  cfg : s'.cfg = s.cfg
  bit : syscfgLock l s'.syscfg = syscfgLock l s.syscfg
  states : ∀ u, lockState l (s'.thread u) = lockState l (s.thread u) ∨ lockState l (s'.thread u) = .unlocked

section
variable {l : LockId} {s s' : State}

/-- The invariants hold of a lock whose bit is 1 and that no thread but `t` owns. -/
theorem LockHolds.of_sole_owner {t : Tid} (hbit : syscfgLock l s.syscfg = true)
    (ht : ∀ u, s.hasThread u → lockState l (s.thread u) = .owner → u = t) : LockHolds l s :=
  ⟨fun u v hu hv hou hov => (ht u hu hou).trans (ht v hv hov).symm, fun _ _ _ => hbit, fun hf => by simp [hbit] at hf⟩

/-- The invariants hold of a lock that no thread owns or waits for, whatever its bit. -/
theorem LockHolds.of_unlocked (h : ∀ u, s.hasThread u → lockState l (s.thread u) = .unlocked) : LockHolds l s :=
  ⟨fun u _ hu _ ho => by simp [h u hu] at ho, fun u hu ho => by simp [h u hu] at ho, fun _ => h⟩

/-- The invariants stay while the lock's bit is 1 and no thread becomes its owner. -/
theorem LockHolds.of_held (h : LockHolds l s) (hcfg : s'.cfg = s.cfg) (hbit : syscfgLock l s'.syscfg = true)
    (ho : ∀ u, lockState l (s'.thread u) = .owner → lockState l (s.thread u) = .owner) : LockHolds l s' := by
  obtain ⟨hone, -, -⟩ := h
  refine ⟨fun u v hu hv hou hov => ?_, fun _ _ _ => hbit, fun hf => by simp [hbit] at hf⟩
  rw [State.hasThread, hcfg] at hu hv
  exact hone u v hu hv (ho u hou) (ho v hov)

/-- A change that leaves a lock alone but for resets of threads keeps its invariants (spec/10_state.md R45). -/
theorem LockHolds.of_steady (h : LockHolds l s) (hs : LockSteady l s s') : LockHolds l s' := by
  have ⟨_, _, hfree⟩ := h
  cases hb : syscfgLock l s.syscfg with
  | true =>
    refine h.of_held hs.cfg (hs.bit.trans hb) fun u ho => ?_
    rcases hs.states u with he | he
    · exact he.symm.trans ho
    · simp [he] at ho
  | false =>
    refine .of_unlocked fun u hu => ?_
    rw [State.hasThread, hs.cfg] at hu
    exact (hs.states u).elim (fun he => he.trans (hfree hb u hu)) id

theorem LockSteady.trans {s'' : State} (h : LockSteady l s s') (h' : LockSteady l s' s'') : LockSteady l s s'' where
  cfg := h'.cfg.trans h.cfg
  bit := h'.bit.trans h.bit
  states u := by
    rcases h'.states u with he | he
    · rw [he]
      exact h.states u
    · exact .inr he

/-- A change of one thread that leaves its lock states alone. -/
theorem LockSteady.modThread (s : State) (t : Tid) {g : Thread → Thread}
    (hg : ∀ th, lockState l (g th) = lockState l th := by intro; rfl) : LockSteady l s (s.modThread t g) :=
  ⟨rfl, rfl, fun u => .inl (State.modThread_keeps (lockState l) s t u hg)⟩

end

/-! ### What acquiring and releasing keep of the lock invariants -/

/-- An acquire leaves the other lock alone (spec/41_lock.md R180, R181). -/
theorem acquire_steady_other {k l : LockId} (hk : k ≠ l) (t : Tid) (s : State) : LockSteady k s (acquire l t s).1 where
  cfg := (congrArg State.cfg (acquire_frame l t s) :)
  bit := by
    rcases acquire_cases l t s with ⟨-, h⟩ | ⟨-, -, h⟩ | ⟨-, -, h⟩ <;> simp [h, syscfgLock_setLock, hk]
  states u := .inl (acquire_keeps (lockState k) (lockState_setLockState_ne hk) s t u)

/-- An acquire keeps the lock invariants: it takes a lock that nobody has, or makes nobody an owner (spec/41_lock.md R181,
R189). -/
theorem LockHolds.acquire {k : LockId} {s : State} (h : LockHolds k s) (l : LockId) (t : Tid) :
    LockHolds k (acquire l t s).1 := by
  by_cases hk : k = l
  case neg => exact h.of_steady (acquire_steady_other hk t s)
  subst hk
  have ⟨_, _, hfree⟩ := h
  rcases acquire_cases k t s with ⟨hf, hq⟩ | ⟨-, -, hq⟩ | ⟨hb, -, hq⟩ <;> rw [hq]
  · refine .of_sole_owner (t := t) (by simp) fun u hu ho => ?_
    by_contra hut
    rw [State.modThread_thread_ne _ hut, State.setLockBit_thread, hfree hf u hu] at ho
    cases ho
  · exact h
  · refine h.of_held (s' := s.modThread t (setLockState k .waiting)) rfl hb fun u ho => ?_
    by_cases hut : u = t
    · rw [hut, State.modThread_thread_self, lockState_set_self] at ho
      cases ho
    · rwa [State.modThread_thread_ne _ hut] at ho

/-- A release leaves the other lock alone (spec/41_lock.md R180, R182). -/
theorem release_steady_other {k l : LockId} (hk : k ≠ l) (t : Tid) (s : State) : LockSteady k s (release l t s) where
  cfg := release_cfg l t s
  bit := by
    rcases release_cases l t s with ⟨-, h⟩ | ⟨-, -, h⟩ | ⟨-, w, -, h⟩ <;> simp [h, syscfgLock_setLock, hk]
  states u := .inl (release_keeps (lockState k) (lockState_setLockState_ne hk) s t u)

/-- A release keeps the lock invariants: the one owner leaves, and one waiting thread at most follows it (spec/41_lock.md R182,
R189). -/
theorem LockHolds.release {k : LockId} {s : State} (h : LockHolds k s) (l : LockId) {t : Tid} (ht : s.hasThread t) :
    LockHolds k (release l t s) := by
  by_cases hk : k = l
  case neg => exact h.of_steady (release_steady_other hk t s)
  subst hk
  by_cases ho : lockState k (s.thread t) = .owner
  case neg => rwa [release_of_not_owner ho]
  have ⟨hone, _, _⟩ := h
  rcases release_of_owner ho with ⟨hn, hr⟩ | ⟨w, -, hr⟩ <;> rw [hr]
  · refine .of_unlocked fun u hu => ?_
    by_cases hut : u = t
    · rw [hut, freed_lockState_self]
    rw [freed_lockState_ne hut]
    cases hu' : lockState k (s.thread u) with
    | unlocked => rfl
    | waiting => exact absurd hu' (nextWaiter_freed_none ht hn hu hut)
    | owner => exact absurd (hone u t hu ht hu' ho) hut
  · refine .of_sole_owner (t := w) (by simp) fun u hu hou => ?_
    by_contra huw
    rw [State.setLockBit_thread, State.modThread_thread_ne _ huw] at hou
    by_cases hut : u = t
    · simp [hut] at hou
    · exact hut (hone u t hu ht ((freed_lockState_ne hut k s).symm.trans hou) ho)

/-! ### What the other operations leave of a lock -/

/-- The broadcast redirects a thread, whose lock states stay (spec/60_exceptions.md R260). -/
@[simp] theorem broadcastTo_lockState (k : LockId) (n : Nat) (evb : Word) (t : Tid) (c : BitVec 8) (u : Tid) (th : Thread) :
    lockState k (broadcastTo n evb t c u th) = lockState k th := by
  unfold broadcastTo
  split
  · cases k <;> rfl
  · rfl

@[simp] theorem overrideDouble_lockState (k : LockId) (th : Thread) (l : Latch) :
    lockState k (overrideDouble th l).1 = lockState k th := by
  rcases overrideDouble_cases th l with ⟨-, h⟩ | ⟨-, -, h⟩ <;> rw [h]
  cases k <;> rfl

@[simp] theorem endBundle_lockState (k : LockId) (c : Word) (th : Thread) : lockState k (endBundle c th) = lockState k th := by
  unfold endBundle
  split
  · rfl
  · split <;> rfl

@[simp] theorem resetThread_lockState (k : LockId) (p : Params) (evb : Word) (d : Nat) (th : Thread) :
    lockState k (resetThread p evb d th) = .unlocked := by cases k <;> rfl

/-- A MODECTL write keeps the lock states of a thread, or resets it (spec/43_sreg.md R234). -/
theorem modectlThread_lockState (k : LockId) (p : Params) (evb : Word) (d : Nat) (t : Tid) (v : Word) (u : Tid)
    (th : Thread) :
    lockState k (modectlThread p evb d t v u th) = lockState k th ∨
      lockState k (modectlThread p evb d t v u th) = .unlocked := by
  unfold modectlThread
  split
  · exact .inl rfl
  split
  · exact .inl rfl
  split
  · exact .inr (resetThread_lockState k p evb d th :)
  · exact .inl rfl

/-- SREG_W writes neither lock's bit (spec/43_sreg.md R232) and reaches a lock state by the reset of a started thread only. -/
theorem sregWrite_steady (k : LockId) (t : Tid) (r : SReg) (v : Word) (s : State) : LockSteady k s (sregWrite t r v s) := by
  cases r
  case modectl =>
    refine ⟨rfl, rfl, fun u => ?_⟩
    rw [sregWrite, modectlWrite_thread]
    exact modectlThread_lockState ..
  case syscfg => exact ⟨rfl, syscfgLock_write k s.syscfg v, fun _ => .inl rfl⟩
  case ssr | elr | badva0 | badva1 | diag =>
    rw [sregWrite]
    exact .modThread s t
  all_goals exact ⟨rfl, rfl, fun _ => .inl rfl⟩

/-- Taking an event touches no lock (spec/60_exceptions.md R258, R260). -/
theorem takeEvent_steady (k : LockId) (t : Tid) (e : Event) (c : BitVec 8) (n : Word) (s : State) :
    LockSteady k s (takeEvent t e c n s) where
  cfg := takeEvent_cfg ..
  bit := by rw [takeEvent_syscfg]
  states u := by
    left
    by_cases hut : u = t
    · subst hut
      rw [takeEvent_thread_self]
      rfl
    · rw [takeEvent_thread_ne hut]
      split
      · exact broadcastTo_lockState ..
      · rfl

/-- A dispatch keeps the lock invariants: the one lock it touches is the TLB lock, which a TLB miss acquires
(spec/60_exceptions.md R253). -/
theorem LockHolds.dispatch {k : LockId} {t : Tid} {n : Word} {l : Latch} {s m : State} (h : LockHolds k s)
    (hd : dispatch t n l s = .next m) : LockHolds k m := by
  rw [dispatch_eq] at hd
  generalize hq : overrideDouble (s.thread t) l = q at hd
  have hrec : LockHolds k (s.setThread t (recordBadva q.1 q.2)) := by
    refine h.of_steady ⟨rfl, rfl, fun u => .inl ?_⟩
    rw [State.setThread_thread]
    split
    next hut => rw [recordBadva_lockState, ← hq, overrideDouble_lockState, hut]
    · rfl
  obtain ⟨-, ⟨-, rfl⟩ | ⟨-, -, rfl⟩ | ⟨-, -, rfl⟩⟩ := branchEvent_next hd
  · exact hrec.of_steady (takeEvent_steady ..)
  · exact (hrec.acquire .tlb t).of_steady (takeEvent_steady ..)
  · exact (hrec.acquire .tlb t).of_steady (.modThread ..)

/-! ### What every step keeps of a lock -/

theorem raise_steady (k : LockId) (t : Tid) (e : Event) (c : BitVec 8) (a : Addr) (s : State) :
    LockSteady k s (raise t e c a s) := .modThread s t

/-- A command keeps the lock invariants: the lock commands and the dispatch of a TLB miss by the rules of acquire and release,
every other command by leaving the lock alone or resetting threads (spec/41_lock.md R189). -/
theorem Effect.lockHolds {k : LockId} {i : Instr} {s m : State} (h : Effect i s m) (ht : s.hasThread i.tid)
    (hs : LockHolds k s) : LockHolds k m := by
  cases h with
  | keep | store | cycles => exact hs
  | faulted | multiMatch | missed | raised => exact hs.of_steady (raise_steady ..)
  | acquired l t => exact hs.acquire l t
  | retried l t => exact (hs.acquire l t).of_steady (.modThread ..)
  | released l t =>
    rw [unlockInstr_tid] at ht
    exact hs.release l ht
  | interrupted t => exact hs.of_steady ((LockSteady.modThread s t).trans (.modThread _ t))
  | returning t => exact hs.of_steady (.modThread s t)
  | written t r v => exact hs.of_steady (sregWrite_steady k t r v s)
  | ended t c => exact hs.of_steady ((LockSteady.modThread s t (endBundle_lockState k c)).trans (.modThread _ t))
  | dispatched t c s m l _ _ hd => exact (hs.dispatch hd).of_steady (.modThread m t)

/-- A reset leaves its thread Unlocked and the lock's bit as it was (spec/70_reset_and_hazards.md R305, R318). -/
theorem threadReset_steady (k : LockId) (t : Tid) (s : State) : LockSteady k s (threadReset t s) where
  cfg := rfl
  bit := rfl
  states u := by
    by_cases hut : u = t
    · rw [hut, threadReset_thread_self]
      exact .inr (resetThread_lockState ..)
    · exact .inl (by rw [threadReset_thread_ne hut])

/-- Core reset leaves every thread Unlocked (spec/70_reset_and_hazards.md R301). -/
theorem coreReset_lockState (k : LockId) {s : State} {u : Tid} (hu : s.hasThread u) :
    lockState k ((coreReset s).thread u) = .unlocked := by
  rw [coreReset_thread, coreResetThread, if_pos hu]
  exact resetThread_lockState ..

/-- Every item but an image write keeps the lock invariants. -/
theorem serve_keeps_lockHolds {k : LockId} {x : Input} {s s' : State} (hs : serve x s = .next s')
    (hw : ∀ bytes g, x ≠ .imageWrite bytes g) (h : LockHolds k s) : LockHolds k s' := by
  rcases serve_next hs with ⟨_, i, -, hd, he⟩ | ⟨_, _, _, -, -, rfl⟩ | ⟨-, rfl⟩ | ⟨t, -, -, ⟨-, rfl⟩ | ⟨-, rfl⟩⟩ |
    ⟨-, -, rfl⟩ | ⟨bytes, g, rfl, -⟩
  · obtain ⟨m, code, r, hE, rfl⟩ := effect_of_exec he
    exact hE.lockHolds (decode_tid_lt hd) h
  · exact h
  · exact .of_unlocked fun u hu => coreReset_lockState k hu
  · exact h
  · exact (h.of_steady (threadReset_steady k t s) :)
  · exact h
  · exact absurd rfl (hw bytes g)

/-- Settles O50: a step serves one item, which keeps the invariants of each lock. -/
theorem stepKeepsTheLockInvariants : Obligations.StepKeepsTheLockInvariants := by
  intro s s' hw ⟨htlb, hk0⟩ h
  obtain ⟨x, rest, hp, hs⟩ := step_next h
  have hx : ∀ bytes g, x ≠ .imageWrite bytes g := fun bytes g he => hw bytes g rest (he ▸ hp)
  exact ⟨serve_keeps_lockHolds hs hx htlb, serve_keeps_lockHolds hs hx hk0⟩

end Sys2Proof.Machine
end

section
/-! PROOFS. The family of spec/42_event_cmds.md: the commands that register an event (R200 to R203), and the end of a bundle
that latched none (R206). -/

namespace Sys2Proof.Machine

/-! ### Registering an event -/

/-- What an admitted RAISE_TLBMISS does (spec/42_event_cmds.md R200). -/
theorem Admitted.exec_raiseTlbmiss {t : Tid} {a : Acc} {k : Slot} {va : Word} {s : State}
    (h : Admitted (.raiseTlbmiss t a k va) s) :
    exec (.raiseTlbmiss t a k va) s =
      .next ((raise t (missEvent a) (missCause (s.thread t).pc a va) (faultAddr a k va) s).respond .ok 0) := by
  rw [Machine.exec_raiseTlbmiss, h.run]
  rfl

/-- What an admitted RAISE_PRECISE does (spec/42_event_cmds.md R201). -/
theorem Admitted.exec_raisePrecise {t : Tid} {a : Acc} {k : Slot} {c : BitVec 8} {va : Word} {s : State}
    (h : Admitted (.raisePrecise t a k c va) s) :
    exec (.raisePrecise t a k c va) s = .next ((raise t .precise c (faultAddr a k va) s).respond .ok 0) := by
  rw [Machine.exec_raisePrecise, h.run]
  rfl

/-- What an admitted RAISE_TRAP does (spec/42_event_cmds.md R202). -/
theorem Admitted.exec_raiseTrap {t : Tid} {n : TrapNumber} {imm : BitVec 8} {s : State}
    (h : Admitted (.raiseTrap t n imm) s) :
    exec (.raiseTrap t n imm) s = .next ((raise t (trapEvent n) imm none s).respond .ok 0) := by
  rw [Machine.exec_raiseTrap, h.run]
  rfl

/-- What an admitted RAISE_EVENT does (spec/42_event_cmds.md R203). -/
theorem Admitted.exec_raiseEvent {t : Tid} {n : RaisedEvent} {c : BitVec 8} {s : State}
    (h : Admitted (.raiseEvent t n c) s) :
    exec (.raiseEvent t n c) s = .next ((raise t (raisedEvent n) c none s).respond .ok 0) := by
  rw [Machine.exec_raiseEvent, h.run]
  rfl

/-- The cause of a fetch miss tells the page of PC from the others (spec/60_exceptions.md R245). -/
theorem missCause_fetch (pc va : Word) :
    missCause pc .fetch va = if va.toNat / 4096 = pc.toNat / 4096 then 0x60 else 0x61 := by
  simp only [missCause, ne_eq, ushiftRight_page_eq_iff, ite_not]

/-- A fault carries its address unless the access was a fetch (spec/42_event_cmds.md R200, R201). -/
theorem faultAddr_eq (a : Acc) (k : Slot) (va : Word) :
    faultAddr a k va = if a = .fetch then none else some (k, va) := by cases a <;> rfl

theorem trapEvent_eq (n : TrapNumber) : trapEvent n = if n = .trap0 then .trap0 else .trap1 := by cases n <;> rfl

theorem raisedEvent_eq (n : RaisedEvent) : raisedEvent n = if n = .fptrap then .fptrap else .debug := by
  cases n <;> rfl

/-- Settles O30, command by command: each event, cause and address is the one that its rule registers. -/
theorem raiseCommandsRegisterTheirEvent : Obligations.RaiseCommandsRegisterTheirEvent := by
  refine fun t s => ⟨fun k va h => ?fetch, fun k va h => h.exec_raiseTlbmiss, fun k va h => h.exec_raiseTlbmiss,
    fun a k c va h => ?precise, fun n imm h => ?trap, fun n c h => ?event⟩
  case fetch =>
    rw [h.exec_raiseTlbmiss, missCause_fetch]
    rfl
  case precise =>
    rw [h.exec_raisePrecise, faultAddr_eq]
    rfl
  case trap =>
    rw [h.exec_raiseTrap, trapEvent_eq]
    rfl
  case event =>
    rw [h.exec_raiseEvent, raisedEvent_eq]
    rfl

/-! ### The end of a bundle -/

/-- Where a bundle without an event leaves its thread, field by field: a retry comes before a pending RTE, and the write of the
thread's own mode is applied either way (spec/42_event_cmds.md R206). -/
theorem endBundle_eq (c : Word) (th : Thread) :
    endBundle c th =
      { th with
        pc := if th.bundle.retry then th.pc else if th.bundle.rte then th.elr else c
        ssr := if th.bundle.retry = false ∧ th.bundle.rte = true then ssrSetEx th.ssr false else th.ssr
        tmode := th.bundle.selfmode.getD th.tmode } := by
  unfold endBundle
  cases hretry : th.bundle.retry with
  | true => simp
  | false =>
    cases hrte : th.bundle.rte with
    | true => simp [returnThread]
    | false => simp

/-- What an admitted COMMIT does without a latched event: its bundle ends, and the bundle state is cleared
(spec/42_event_cmds.md R206). -/
theorem Admitted.exec_commit_of_no_event {t : Tid} {c : Word} {s : State} (h : Admitted (.commit t c) s)
    (hl : (s.thread t).latch = none) :
    exec (.commit t c) s =
      .next ((s.modThread t (fun th => { endBundle c th with bundle := .clear })).respond .ok
        ((endBundle c (s.thread t)).pc.setWidth 64)) := by
  rw [exec_commit, h.run, hl]
  dsimp only
  rw [finishCommit_eq, State.modThread_modThread, State.modThread_thread_self]

/-- Settles O32: the COMMIT ends the bundle, and the fields that the end of a bundle leaves are those of R206. -/
theorem commitEndsABundleWithoutEvent : Obligations.CommitEndsABundleWithoutEvent := by
  intro t c s h hl
  rw [h.exec_commit_of_no_event hl]
  simp only [endBundle_eq]
  rfl

end Sys2Proof.Machine
end

section
/-! PROOFS. The family of spec/43_sreg.md: what SREG_R returns (R230, R231), what SREG_W writes (R232), and MODECTL, as it reads
and as a write of it sets the thread modes (R234). -/

namespace Sys2Proof.Machine

/-! ### MODECTL as it reads -/

/-- The two bits of MODECTL that a thread sets (spec/43_sreg.md R234). -/
theorem modectlBits_getLsbD (u : Tid) (m : TMode) (j : Nat) :
    (modectlBits u m).getLsbD j = true ↔ (j = u.val ∧ m ≠ .off) ∨ (j = 16 + u.val ∧ m = .wait) := by
  have hu := u.isLt
  cases m with
  | off => simp [modectlBits]
  | run =>
    simp [modectlBits, BitVec.getLsbD_twoPow]
    omega
  | wait =>
    simp [modectlBits, BitVec.getLsbD_twoPow]
    omega

/-- A bit of the words `f u` taken together is set when it is set in one of them. -/
theorem foldl_or_getLsbD {α : Type} {w : Nat} (f : α → BitVec w) (l : List α) (acc : BitVec w) (j : Nat) :
    (l.foldl (fun a u => a ||| f u) acc).getLsbD j = true ↔
      acc.getLsbD j = true ∨ ∃ u ∈ l, (f u).getLsbD j = true := by
  induction l generalizing acc with
  | nil => simp
  | cons u l ih => simp [ih, or_assoc]

/-- A bit of MODECTL is set by the thread it stands for (spec/43_sreg.md R234). -/
theorem modectlRead_getLsbD (s : State) (j : Nat) :
    (modectlRead s).getLsbD j = true ↔
      ∃ u, s.hasThread u ∧ ((j = u.val ∧ (s.thread u).tmode ≠ .off) ∨ (j = 16 + u.val ∧ (s.thread u).tmode = .wait)) := by
  simp [modectlRead, foldl_or_getLsbD, modectlBits_getLsbD, mem_tids]

/-- MODECTL says the mode of every thread that exists: the low half and the high half do not meet (spec/43_sreg.md R234). -/
theorem modectlRead_says {s : State} {u : Tid} (hu : s.hasThread u) :
    modectlSays (modectlRead s) u (s.thread u).tmode := by
  have hlt := u.isLt
  constructor <;> rw [Bool.eq_iff_iff, modectlRead_getLsbD]
  · constructor
    · rintro ⟨x, -, ⟨hj, hm⟩ | ⟨hj, -⟩⟩
      · rw [Fin.ext hj]
        simpa using hm
      · omega
    · exact fun hm => ⟨u, hu, .inl ⟨rfl, by simpa using hm⟩⟩
  · constructor
    · rintro ⟨x, -, ⟨hj, -⟩ | ⟨hj, hm⟩⟩
      · have := x.isLt
        omega
      · rw [Fin.ext (Nat.add_left_cancel hj)]
        simpa using hm
    · exact fun hm => ⟨u, hu, .inr ⟨rfl, by simpa using hm⟩⟩

/-- A bit of MODECTL that stands for no thread reads 0 (spec/43_sreg.md R234). -/
theorem modectlRead_other {s : State} {j : Nat} (hj : ∀ u, s.hasThread u → j ≠ u.val ∧ j ≠ 16 + u.val) :
    (modectlRead s).getLsbD j = false := by
  rw [Bool.eq_false_iff]
  intro hset
  obtain ⟨u, hu, ⟨he, -⟩ | ⟨hw, -⟩⟩ := (modectlRead_getLsbD s j).mp hset
  · exact (hj u hu).1 he
  · exact (hj u hu).2 hw

/-! ### Reading a register -/

/-- What an admitted SREG_R does (spec/43_sreg.md R231). -/
theorem Admitted.exec_sregR {t : Tid} {r : SReg} {s : State} (h : Admitted (.sregR t r) s) :
    exec (.sregR t r) s =
      .next ((if readsCycles r then advanceCycles s else s).respond .ok
        ((sregValue t r (if readsCycles r then advanceCycles s else s)).setWidth 64)) := by
  rw [Machine.exec_sregR, h.run]
  rfl

/-- Settles O43: the value by the register; the count a PCYCLE read draws is the counter after it advanced. -/
theorem sregReadReturnsTheRegister : Obligations.SregReadReturnsTheRegister := by
  refine ⟨fun s => ⟨fun u => modectlRead_says, fun j _ => modectlRead_other⟩, fun t r s h => ?_⟩
  rw [h.exec_sregR]
  refine ⟨fun hr => ?register, ?low, ?high⟩
  case register =>
    rw [hr]
    cases r with
    | pcycleLo | pcycleHi => cases hr
    | _ => rfl
  case low =>
    rintro rfl
    exact ⟨(advanceCycles s).pcycle, rfl⟩
  case high =>
    rintro rfl
    exact ⟨(advanceCycles s).pcycle, rfl⟩

/-! ### Writing a register -/

/-- What an admitted SREG_W does (spec/43_sreg.md R232). -/
theorem Admitted.exec_sregW {t : Tid} {r : SReg} {v : Word} {s : State} (h : Admitted (.sregW t r v) s) :
    exec (.sregW t r v) s = .next ((sregWrite t r v s).respond .ok 0) := by
  rw [Machine.exec_sregW, h.run]
  rfl

/-- The registers of the writing thread after a write (spec/43_sreg.md R230). -/
theorem sregWrite_thread_self {r : SReg} (hr : r ≠ .modectl) (t : Tid) (v : Word) (s : State) :
    (sregWrite t r v s).thread t =
      { s.thread t with
        ssr := if r = .ssr then v else (s.thread t).ssr
        elr := if r = .elr then v else (s.thread t).elr
        badva0 := if r = .badva0 then v else (s.thread t).badva0
        badva1 := if r = .badva1 then v else (s.thread t).badva1
        diag := if r = .diag then v else (s.thread t).diag } := by
  cases r with
  | modectl => exact absurd rfl hr
  | ssr | elr | badva0 | badva1 | diag => rw [sregWrite, State.modThread_thread_self]; rfl
  | _ => rfl

theorem sregWrite_evb (t : Tid) (r : SReg) (v : Word) (s : State) :
    (sregWrite t r v s).evb = if r = .evb then v else s.evb := by
  cases r <;> rfl

theorem sregWrite_syscfg (t : Tid) (r : SReg) (v : Word) (s : State) :
    (sregWrite t r v s).syscfg = if r = .syscfg then syscfgWrite s.syscfg v else s.syscfg := by
  cases r <;> rfl

/-- A write of a register other than MODECTL touches only threads, EVB and SYSCFG (spec/43_sreg.md R230, R232). -/
theorem sregWrite_frame {r : SReg} (hr : r ≠ .modectl) (t : Tid) (v : Word) (s : State) :
    { sregWrite t r v s with threads := s.threads, evb := s.evb, syscfg := s.syscfg } = s := by
  cases r with
  | modectl => exact absurd rfl hr
  | _ => rfl

/-- Settles O44: the thread's registers, EVB and SYSCFG are written by number, and the write has no other reach. -/
theorem sregWriteWritesTheRegister : Obligations.SregWriteWritesTheRegister := by
  intro t r v s h hr
  refine ⟨_, h.exec_sregW, rfl, sregWrite_thread_self hr t v s,
    fun u hu => (sregWrite_other_thread hu r v s).resolve_right hr, sregWrite_evb t r v s, fun j => ?syscfg, ?frame⟩
  case syscfg =>
    rw [State.respond_syscfg, sregWrite_syscfg]
    by_cases hsys : r = .syscfg
    · by_cases hlock : j = 11 ∨ j = 12
      · rw [if_pos hsys, syscfgWrite_getLsbD, if_pos hlock, if_neg (by tauto)]
      · rw [if_pos hsys, syscfgWrite_getLsbD, if_neg hlock, if_pos (by tauto)]
    · rw [if_neg hsys, if_neg (by tauto)]
  case frame => exact congrArg (fun m : State => { m with resp := s.resp }) (sregWrite_frame hr t v s)

/-! ### Writing MODECTL -/

theorem modectlStarts_iff {n : Nat} {t : Tid} {v : Word} {u : Tid} {th : Thread} :
    modectlStarts n t v u th = true ↔ u.val < n ∧ u ≠ t ∧ th.tmode = .off ∧ modectlMode v u ≠ .off := by
  simp [modectlStarts, and_assoc]

section
variable {p : Params} {t u : Tid} {v : Word} {th : Thread} (evb : Word) (k : Nat)

/-- The writer's own mode waits for its COMMIT (spec/43_sreg.md R234). -/
theorem modectlThread_self (ht : t.val < p.numThreads) :
    modectlThread p evb k t v t th = { th with bundle := { th.bundle with selfmode := some (modectlMode v t) } } := by
  rw [modectlThread, if_neg (Nat.not_le.mpr ht), if_pos rfl]

/-- A thread that starts from Off is reset and takes the new mode (spec/43_sreg.md R234). -/
theorem modectlThread_started (h : modectlStarts p.numThreads t v u th = true) :
    modectlThread p evb k t v u th = { resetThread p evb (k + 4 * u.val) th with tmode := modectlMode v u } := by
  obtain ⟨hu, hut, -⟩ := modectlStarts_iff.mp h
  rw [modectlThread, if_neg (Nat.not_le.mpr hu), if_neg hut, if_pos h]

/-- Every other thread takes the new mode (spec/43_sreg.md R234). -/
theorem modectlThread_kept (hu : u.val < p.numThreads) (hut : u ≠ t) (h : ¬modectlStarts p.numThreads t v u th = true) :
    modectlThread p evb k t v u th = { th with tmode := modectlMode v u } := by
  rw [modectlThread, if_neg (Nat.not_le.mpr hu), if_neg hut, if_neg h]

end

/-- The threads that exist, picked from all slots (spec/10_state.md R20). -/
theorem tids_eq_filter (n : Nat) : tids n = (List.finRange 8).filter (fun u => decide (u.val < n)) := rfl

/-- The contexts that a MODECTL write resets are those of the threads it starts (spec/70_reset_and_hazards.md R306). -/
theorem modectlWrite_sent (t : Tid) (v : Word) (s : State) :
    (modectlWrite t v s).sent = s.sent ++ ((List.finRange 8).filter (fun u =>
      decide (s.hasThread u ∧ u ≠ t ∧ (s.thread u).tmode = .off ∧ modectlMode v u ≠ .off))).map .contextReset := by
  have hpick : ∀ u : Tid, (modectlStarts s.cfg.numThreads t v u (s.thread u) && decide (u.val < s.cfg.numThreads)) =
      decide (s.hasThread u ∧ u ≠ t ∧ (s.thread u).tmode = .off ∧ modectlMode v u ≠ .off) := by
    intro u
    rw [Bool.eq_iff_iff, Bool.and_eq_true, modectlStarts_iff, decide_eq_true_iff, decide_eq_true_iff]
    exact and_iff_left_of_imp And.left
  rw [modectlWrite, tids_eq_filter, List.filter_filter, funext hpick]

/-- Settles O45, thread by thread: a slot without a thread, the writer, a started thread, and every other one. -/
theorem modectlWriteSetsTheThreadModes : Obligations.ModectlWriteSetsTheThreadModes := by
  intro t v s h ht asked
  refine ⟨_, h.exec_sregW, rfl, fun u => ?_, modectlWrite_sent t v s, rfl⟩
  rw [State.respond_thread, sregWrite, modectlWrite_thread]
  dsimp only
  split
  next hu => exact modectlThread_absent hu ..
  next hu =>
  have hu := not_not.mp hu
  split
  next hut =>
    subst hut
    exact modectlThread_self _ _ ht
  next hut =>
  split
  next hstart =>
    rw [modectlThread_started _ _ (modectlStarts_iff.mpr ⟨hu, hut, hstart⟩)]
    exact ⟨_, _, _, _, rfl⟩
  next hstart =>
    exact modectlThread_kept _ _ hu hut fun hs => hstart (modectlStarts_iff.mp hs).2.2

end Sys2Proof.Machine
end

section
/-! PROOFS. The family of spec/60_exceptions.md: the ordinals and vectors (R241, R259), the priority of the latch (R243, R244),
interrupts (R265, R266), the return from an exception (R269), dispatch in each of its outcomes (R246 to R263, R275), and the
privilege boundary (R270, R271). -/

namespace Sys2Proof.Machine

/-! ### Ordinals and vectors -/

theorem ordinal_int_toNat (n : Fin 16) : (ordinal (.int n)).toNat = 0x10 + n.val := by revert n; decide

/-- A vector is EVB OR four times the ordinal, as a number (spec/60_exceptions.md R259). -/
theorem vector_eq (evb : Word) (e : Event) : vector evb e = evb ||| BitVec.ofNat 32 (4 * (ordinal e).toNat) := by
  have hshift : (ordinal e).setWidth 32 <<< 2 = BitVec.ofNat 32 (4 * (ordinal e).toNat) := by
    apply BitVec.eq_of_toNat_eq
    simp [Nat.shiftLeft_eq, Nat.mul_comm]
  rw [vector, hshift]

/-- The RESET vector is EVB itself (spec/70_reset_and_hazards.md R309). -/
theorem vector_reset (evb : Word) : vector evb .reset = evb := by simp [vector, ordinal]

/-- OR of a word whose low seven bits are zero with a number below 128 is their sum: no bit is set in both. -/
theorem or_eq_add_of_low_zero {v : Word} {k : Nat} (hv : v.extractLsb' 0 7 = 0) (hk : k < 128) :
    v ||| BitVec.ofNat 32 k = v + BitVec.ofNat 32 k := by
  have hdisjoint : v &&& BitVec.ofNat 32 k = 0 := by
    apply BitVec.eq_of_getLsbD_eq
    intro j _
    by_cases hj : j < 7
    · have hbit : (v.extractLsb' 0 7).getLsbD j = false := by rw [hv]; simp
      have hzero : v.getLsbD j = false := by simpa [hj] using hbit
      simp [hzero]
    · have hzero : k.testBit j = false :=
        Nat.testBit_lt_two_pow (hk.trans_le (Nat.pow_le_pow_right (by decide) (by omega) : 2 ^ 7 ≤ 2 ^ j))
      simp [BitVec.getLsbD_ofNat, hzero]
  exact (BitVec.add_eq_or_of_and_eq_zero v _ hdisjoint).symm

/-- With EVB bits 6:0 zero a vector stands at its offset (spec/60_exceptions.md R241, R259). -/
theorem vector_of_aligned {evb : Word} (h : evb.extractLsb' 0 7 = 0) (e : Event) :
    vector evb e = evb + BitVec.ofNat 32 (4 * (ordinal e).toNat) := by
  have hlt := (ordinal e).isLt
  rw [vector_eq, or_eq_add_of_low_zero h (by omega)]

/-- With EVB bits 6:0 zero no two events share a vector (spec/60_exceptions.md R241). -/
theorem vector_injective {evb : Word} (h : evb.extractLsb' 0 7 = 0) {e f : Event} (he : vector evb e = vector evb f) :
    e = f := by
  rw [vector_of_aligned h, vector_of_aligned h, BitVec.add_right_inj] at he
  have hnat := congrArg BitVec.toNat he
  have hle := (ordinal e).isLt
  have hlf := (ordinal f).isLt
  simp only [BitVec.toNat_ofNat] at hnat
  exact ordinal_injective e f (BitVec.eq_of_toNat_eq (by omega))

/-- Settles O41: the offsets are the ordinals times four. -/
theorem vectorsAreDistinct : Obligations.VectorsAreDistinct := by
  refine ⟨rfl, rfl, rfl, rfl, rfl, rfl, rfl, rfl, rfl, ordinal_int_toNat, vector_eq, fun evb h => ?_⟩
  have hv := vector_of_aligned h
  refine ⟨vector_reset evb, hv _, hv _, hv _, hv _, hv _, hv _, hv _, hv _, fun n => ?_, fun _ _ => vector_injective h⟩
  rw [hv, ordinal_int_toNat, Nat.mul_add]

/-! ### The priority of the latch -/

/-- The order in which events are kept: by the ordinal, then by the cause (spec/60_exceptions.md R243). -/
def eventKey (e : Event) (c : BitVec 8) : Nat := (ordinal e).toNat * 256 + c.toNat

/-- A key is lower by a lower ordinal, or by a lower cause of the same event. -/
theorem eventKey_lt_iff {e f : Event} {c d : BitVec 8} :
    eventKey e c < eventKey f d ↔ ordinal e < ordinal f ∨ (e = f ∧ c < d) := by
  have hc := c.isLt
  have hd := d.isLt
  unfold eventKey
  by_cases hef : e = f
  · subst hef
    simp [BitVec.lt_def]
  · have hne : (ordinal e).toNat ≠ (ordinal f).toNat := fun h => hef (ordinal_injective e f (BitVec.eq_of_toNat_eq h))
    simp only [hef, false_and, or_false, BitVec.lt_def]
    omega

/-- A key names its event and its cause. -/
theorem eventKey_inj {e f : Event} {c d : BitVec 8} (h : eventKey e c = eventKey f d) : e = f ∧ c = d := by
  have hc := c.isLt
  have hd := d.isLt
  unfold eventKey at h
  exact ⟨ordinal_injective e f (BitVec.eq_of_toNat_eq (by omega)), BitVec.eq_of_toNat_eq (by omega)⟩

section
variable {l : Latch} {e : Event} {c : BitVec 8} (a : Addr)

/-- An event of a lower key takes the latch (spec/60_exceptions.md R243). -/
theorem register_of_lower (h : eventKey e c < eventKey l.event l.cause) : register (some l) e c a = newLatch e c a :=
  if_pos (eventKey_lt_iff.mp h)

/-- An event of a higher key is dropped (spec/60_exceptions.md R243). -/
theorem register_of_higher (h : eventKey l.event l.cause < eventKey e c) : register (some l) e c a = l := by
  have hlow : ¬(ordinal e < ordinal l.event ∨ (e = l.event ∧ c < l.cause)) := fun hn =>
    absurd (eventKey_lt_iff.mpr hn) (by omega)
  have hsame : ¬(e = l.event ∧ c = l.cause) := by
    rintro ⟨rfl, rfl⟩
    omega
  exact (if_neg hlow).trans (if_neg hsame)

/-- The latched pair again adds its address (spec/60_exceptions.md R243). -/
theorem register_of_same (h : eventKey e c = eventKey l.event l.cause) : register (some l) e c a = mergeAddr l a := by
  have hlow : ¬(ordinal e < ordinal l.event ∨ (e = l.event ∧ c < l.cause)) := fun hn =>
    absurd (eventKey_lt_iff.mpr hn) (by omega)
  exact (if_neg hlow).trans (if_pos (eventKey_inj h))

end

/-- An address of slot 0 is added where slot 1 alone has reported one (spec/60_exceptions.md R243, R244). -/
theorem mergeAddr_slot0 (l : Latch) (va : Word) :
    mergeAddr l (some (.slot0, va)) = if l.vmask = 0b10 then { l with va0 := va, vmask := 0b11 } else l := by
  have hother : ∀ v : BitVec 2, (v ≠ 0 ∧ v.getLsbD 0 = false) ↔ v = 0b10 := by decide
  simp only [mergeAddr, hother]
  split
  next h => rw [h]; rfl
  · rfl

/-- An address of slot 1 is added where slot 0 alone has reported one (spec/60_exceptions.md R243, R244). -/
theorem mergeAddr_slot1 (l : Latch) (va : Word) :
    mergeAddr l (some (.slot1, va)) = if l.vmask = 0b01 then { l with va1 := va, vmask := 0b11 } else l := by
  have hother : ∀ v : BitVec 2, (v ≠ 0 ∧ v.getLsbD 1 = false) ↔ v = 0b01 := by decide
  simp only [mergeAddr, hother]
  split
  next h => rw [h]; rfl
  · rfl

/-- Settles O29, by whether an event is latched and how the keys of the two compare. -/
theorem latchKeepsThePriorityWinner : Obligations.LatchKeepsThePriorityWinner := by
  intro t e c a s fresh key
  have hfresh : fresh = newLatch e c a := by
    rcases a with - | ⟨- | -, va⟩ <;> rfl
  have hkey : key = eventKey := rfl
  rw [hfresh, hkey]
  refine congrArg (s.modThread t) (funext fun th => ?_)
  cases hl : th.latch with
  | none => rfl
  | some l =>
    dsimp only
    rcases lt_trichotomy (eventKey e c) (eventKey l.event l.cause) with h | h | h
    · rw [register_of_lower a h, if_pos h]
    · rw [register_of_same a h, if_neg (by omega), if_neg (by omega)]
      rcases a with - | ⟨- | -, va⟩
      · rfl
      · rw [mergeAddr_slot0]
      · rw [mergeAddr_slot1]
    · rw [register_of_higher a h, if_neg (by omega), if_pos h]

/-! ### Interrupts -/

/-- The acceptance test of R265. -/
theorem acceptsInt_iff {t : Tid} {s : State} :
    acceptsInt t s = true ↔
      (s.thread t).tmode ≠ .off ∧ ssrEx (s.thread t).ssr = false ∧ ssrIe (s.thread t).ssr = true ∧
        syscfgGie s.syscfg = true ∧ (s.thread t).missWait = false ∧ (s.thread t).latch = none := by
  simp [acceptsInt, and_assoc]

/-- What an accepted interrupt does (spec/60_exceptions.md R266). -/
theorem exec_raiseInt_of_accepted {t : Tid} {n : Fin 16} {s : State} (hf : s.fatal = none) (ha : acceptsInt t s = true) :
    exec (.raiseInt t n) s =
      .next ((enter t (.int n) (0xC0#8 + BitVec.ofNat 8 n.val) (s.thread t).pc
        (s.modThread t (fun th => { th with tmode := .run }))).respond .ok 0) := by
  rw [exec_raiseInt, execRaiseInt, if_neg (by simp [hf]), if_pos ha]
  rfl

/-- What a rejected interrupt does (spec/42_event_cmds.md R204). -/
theorem exec_raiseInt_of_rejected {t : Tid} {n : Fin 16} {s : State} (hf : s.fatal = none) (ha : ¬acceptsInt t s = true) :
    exec (.raiseInt t n) s = .next (s.respond .rejected 0) := by
  rw [exec_raiseInt, execRaiseInt, if_neg (by simp [hf]), if_neg ha]
  rfl

/-- Settles O31: the cause and the vector of R266 are those of the interrupt's number. -/
theorem interruptsAreEnteredAtOnceOrRejected : Obligations.InterruptsAreEnteredAtOnceOrRejected := by
  intro t n s hf accepted
  refine ⟨fun ha => ?_, fun ha => exec_raiseInt_of_rejected hf (mt acceptsInt_iff.mp ha)⟩
  have hcause : 0xC0#8 + BitVec.ofNat 8 n.val = BitVec.ofNat 8 (0xC0 + n.val) := (BitVec.ofNat_add ..).symm
  rw [exec_raiseInt_of_accepted hf (acceptsInt_iff.mpr ha), enter, State.modThread_modThread, hcause]
  simp only [enterThread, vector_eq, ordinal_int_toNat]
  rfl

/-! ### Return from an exception -/

/-- Two changes that leave the thread the same are the same change. -/
theorem State.modThread_congr {s : State} {t : Tid} {f g : Thread → Thread} (h : f (s.thread t) = g (s.thread t)) :
    s.modThread t f = s.modThread t g := congrArg (s.setThread t) h

/-- The last response counts. -/
theorem State.modThread_respond_respond (s : State) (t : Tid) (f : Thread → Thread) (c c' : RespCode) (r r' : BitVec 64) :
    ((s.respond c r).modThread t f).respond c' r' = (s.modThread t f).respond c' r' := rfl

/-- A thread whose bundle is marked by RTE (spec/42_event_cmds.md R205). -/
def Thread.markRte (th : Thread) : Thread := { th with bundle := { th.bundle with rte := true } }

/-- What an admitted RTE does (spec/42_event_cmds.md R205). -/
theorem Admitted.exec_rte {t : Tid} {s : State} (h : Admitted (.rte t) s) :
    exec (.rte t) s = .next ((s.modThread t Thread.markRte).respond .ok 0) := by
  rw [Machine.exec_rte, h.run]
  rfl

/-- The end of a bundle that RTE has marked: a lock command's retry keeps SSR and PC (spec/42_event_cmds.md R206). -/
theorem endBundle_markRte (c : Word) (th : Thread) :
    endBundle c th.markRte =
      { th.markRte with
        ssr := if th.bundle.retry then th.ssr else ssrSetEx th.ssr false
        pc := if th.bundle.retry then th.pc else th.elr
        tmode := th.bundle.selfmode.getD th.tmode } := by
  rw [endBundle_eq]
  cases hr : th.bundle.retry <;> simp [Thread.markRte, hr]

/-- Settles O33: RTE leaves the thread running with an empty latch, so the COMMIT ends the bundle. -/
theorem rteReturnsToElrAtCommit : Obligations.RteReturnsToElrAtCommit := by
  intro t c s h b pc'
  refine ⟨_, h.exec_rte, rfl, ?_⟩
  have hth : ((s.modThread t Thread.markRte).respond .ok 0).thread t = (s.thread t).markRte := by simp
  obtain ⟨hfatal, hrun, -, hsuppressible, -⟩ := h
  have hadm : Admitted (.commit t c) ((s.modThread t Thread.markRte).respond .ok 0) :=
    ⟨hfatal, by rw [Instr.tid, hth]; exact hrun, .inl rfl, nofun, nofun⟩
  have hempty : (((s.modThread t Thread.markRte).respond .ok 0).thread t).latch = none := by
    rw [hth]
    exact hsuppressible rfl
  rw [hadm.exec_commit_of_no_event hempty, hth, endBundle_markRte, State.modThread_respond_respond,
    State.modThread_modThread]
  refine congrArg (fun m : State => Host.Outcome.next (m.respond .ok (pc'.setWidth 64))) (State.modThread_congr ?_)
  rw [endBundle_markRte]
  rfl

/-! ### Dispatch -/

/-- What an admitted COMMIT does with a latched event (spec/42_event_cmds.md R206). -/
theorem Admitted.exec_commit_of_event {t : Tid} {c : Word} {s : State} {l : Latch} (h : Admitted (.commit t c) s)
    (hl : (s.thread t).latch = some l) :
    exec (.commit t c) s = andThen (dispatch t c l s) (finishCommit t) := by
  rw [exec_commit, h.run, hl]

/-- The state in which thread `t` has recorded the addresses of its latched event (spec/60_exceptions.md R250 step 2, R255). -/
def State.recorded (s : State) (t : Tid) (l : Latch) : State := s.modThread t (recordBadva · l)

@[simp] theorem State.recorded_thread_self (s : State) (t : Tid) (l : Latch) :
    (s.recorded t l).thread t = recordBadva (s.thread t) l := State.modThread_thread_self ..

/-- While SSR.EX is 0 a dispatch records the addresses and branches on the event as it was latched (spec/60_exceptions.md
R250). -/
theorem dispatch_of_idle {t : Tid} {s : State} (hx : ssrEx (s.thread t).ssr = false) (c : Word) (l : Latch) :
    dispatch t c l s = branchEvent t l.event l.cause c (s.recorded t l) := by
  have hkept : overrideDouble (s.thread t) l = (s.thread t, l) := if_neg (by simp [hx])
  rw [dispatch_eq, hkept]
  rfl

section
variable {t : Tid} {e : Event} {c : BitVec 8} {s : State}

/-- An event that is no TLB miss is entered (spec/60_exceptions.md R254). -/
theorem branchEvent_of_known (ha : admittedPair e c = true) (hm : isTlbMiss e = false) (n : Word) :
    branchEvent t e c n s = .next (takeEvent t e c n s) := by
  rw [branchEvent, if_neg (by simp [ha]), if_neg (by simp [hm])]

/-- An unknown pair stops the block (spec/60_exceptions.md R252). -/
theorem branchEvent_of_unknown (ha : admittedPair e c = false) (n : Word) :
    branchEvent t e c n s = stop .unknownEvent t (ordinal e) c s := if_pos ha

/-- A TLB miss whose thread acquires the TLB lock is entered (spec/60_exceptions.md R253). -/
theorem branchEvent_of_acquired (ha : admittedPair e c = true) (hm : isTlbMiss e = true) {m : State}
    (hq : acquire .tlb t s = (m, true)) (n : Word) : branchEvent t e c n s = .next (takeEvent t e c n m) := by
  rw [branchEvent, if_neg (by simp [ha]), if_pos hm, hq]

/-- A TLB miss whose thread does not acquire the TLB lock waits for it (spec/60_exceptions.md R253). -/
theorem branchEvent_of_held (ha : admittedPair e c = true) (hm : isTlbMiss e = true) {m : State}
    (hq : acquire .tlb t s = (m, false)) (n : Word) :
    branchEvent t e c n s = .next (m.modThread t (fun th => { th with missWait := true })) := by
  rw [branchEvent, if_neg (by simp [ha]), if_pos hm, hq]

end

/-! ### The thread that takes an event -/

/-- The thread after it takes an event, its bundle cleared (spec/60_exceptions.md R250, R258, R263). -/
def takenThread (evb : Word) (e : Event) (c : BitVec 8) (resume : Word) (th : Thread) : Thread :=
  { enterThread evb e c resume th with latch := none, bundle := .clear, missWait := false }

@[simp] theorem ssrCause_setEx (v : Word) (b : Bool) : ssrCause (ssrSetEx v b) = ssrCause v := by
  apply BitVec.eq_of_getLsbD_eq
  intro j hj
  simp only [ssrCause, BitVec.getLsbD_extractLsb', ssrSetEx_getLsbD, if_neg (show 0 + j ≠ 17 by omega)]

/-- Trap entry writes SSR.CAUSE and SSR.EX alone (spec/60_exceptions.md R258). -/
theorem takenThread_ssr_getLsbD (evb : Word) (e : Event) (c : BitVec 8) (resume : Word) (th : Thread) {j : Nat}
    (hj : 8 ≤ j) (hx : j ≠ 17) : (takenThread evb e c resume th).ssr.getLsbD j = th.ssr.getLsbD j := by
  simp only [takenThread, enterThread, ssrSetEx_getLsbD, ssrSetCause_getLsbD, if_neg hx, if_neg (Nat.not_lt.mpr hj)]

/-- A thread whose latched addresses are recorded, and whatever else was done to it, has taken its event
(spec/60_exceptions.md R250). -/
theorem entered_takenThread {th th0 : Thread} {l : Latch} (hssr : th0.ssr = (recordBadva th l).ssr)
    (h0 : th0.badva0 = (recordBadva th l).badva0) (h1 : th0.badva1 = (recordBadva th l).badva1) (evb : Word) (e : Event)
    (c : BitVec 8) (resume : Word) : Entered evb l e c resume th (takenThread evb e c resume th0) := by
  have hbit : ∀ j, 8 ≤ j → j ≠ 17 →
      (takenThread evb e c resume th0).ssr.getLsbD j = (recordBadva th l).ssr.getLsbD j := fun j hj hx => by
    rw [takenThread_ssr_getLsbD evb e c resume th0 hj hx, hssr]
  exact {
    pc := vector_eq evb e
    elr := rfl
    cause := by simp [takenThread, enterThread]
    ex := by simp [takenThread, enterThread]
    badva := by
      refine ⟨(hbit 20 (by decide) (by decide)).trans ?_, (hbit 21 (by decide) (by decide)).trans ?_,
        (hbit 22 (by decide) (by decide)).trans ?_⟩ <;>
      · rw [recordBadva_ssr]
        rfl
    kept := fun j hj hx hv0 hv1 hbvs => by
      rw [hbit j hj hx, recordBadva_ssr, if_neg hbvs, if_neg hv1, if_neg hv0, ite_self]
    badva0 := h0.trans (recordBadva_badva0 th l)
    badva1 := h1.trans (recordBadva_badva1 th l)
    latch := rfl
    bundle := rfl
    missWait := rfl }

/-! ### The state after an event is taken -/

/-- The state after a COMMIT whose dispatch has taken an event (spec/60_exceptions.md R250, spec/42_event_cmds.md R206). -/
def afterEvent (t : Tid) (e : Event) (c : BitVec 8) (n : Word) (m : State) : State :=
  ((takeEvent t e c n m).modThread t (fun th => { th with bundle := .clear })).respond .ok
    (((takeEvent t e c n m).thread t).pc.setWidth 64)

section
variable (t : Tid) (e : Event) (c : BitVec 8) (n : Word) (m : State)

theorem finishCommit_takeEvent : finishCommit t (takeEvent t e c n m) = .next (afterEvent t e c n m) :=
  finishCommit_eq ..

/-- The thread that has taken the event. -/
theorem afterEvent_thread_self :
    (afterEvent t e c n m).thread t =
      takenThread m.evb e c (resumePc m.cfg.preciseNext e c (m.thread t).pc n) (m.thread t) := by
  rw [afterEvent, State.respond_thread, State.modThread_thread_self, takeEvent_thread_self]
  rfl

/-- Every other thread, which only an IMPRECISE event reaches (spec/60_exceptions.md R260). -/
theorem afterEvent_thread_ne {u : Tid} (hu : u ≠ t) :
    (afterEvent t e c n m).thread u =
      if e = .imprecise then broadcastTo m.cfg.numThreads m.evb t c u (m.thread u) else m.thread u := by
  rw [afterEvent, State.respond_thread, State.modThread_thread_ne _ hu, takeEvent_thread_ne hu]

/-- The result of the COMMIT is the vector (spec/42_event_cmds.md R206). -/
theorem afterEvent_resp :
    (afterEvent t e c n m).resp = some ⟨.ok, ((afterEvent t e c n m).thread t).pc.setWidth 64⟩ := by
  rw [afterEvent, State.respond_resp, State.respond_thread, State.modThread_thread_self]

/-- What is sent is the shim signal of a trap with cause 0 (spec/60_exceptions.md R262). -/
theorem afterEvent_sent :
    (afterEvent t e c n m).sent =
      if (e = .trap0 ∨ e = .trap1) ∧ c = 0 then m.sent ++ [.shim t e 0 (m.thread t).ssr (m.thread t).pc] else m.sent :=
  takeEvent_sent ..

/-- Nothing but threads, the response and what is sent has changed. -/
theorem afterEvent_frame : { afterEvent t e c n m with threads := m.threads, resp := m.resp, sent := m.sent } = m :=
  (congrArg (fun x : State => { x with resp := m.resp }) (takeEvent_frame t e c n m) :)

theorem afterEvent_syscfg : (afterEvent t e c n m).syscfg = m.syscfg := takeEvent_syscfg ..

theorem afterEvent_diag : ((afterEvent t e c n m).thread t).diag = (m.thread t).diag := by
  rw [afterEvent_thread_self]
  rfl

theorem afterEvent_tlbls : ((afterEvent t e c n m).thread t).tlbls = (m.thread t).tlbls := by
  rw [afterEvent_thread_self]
  rfl

variable {e}

/-- An event that is no trap sends nothing (spec/60_exceptions.md R262). -/
theorem afterEvent_frame_of_no_trap (h0 : e ≠ .trap0) (h1 : e ≠ .trap1) :
    { afterEvent t e c n m with threads := m.threads, resp := m.resp } = m := by
  have hsent : (afterEvent t e c n m).sent = m.sent := by rw [afterEvent_sent, if_neg (by tauto)]
  have hframe := afterEvent_frame t e c n m
  rwa [← hsent] at hframe

end

/-- The state `r` from which thread `t` takes the event of its latch `l`: it is `s` with the latched addresses recorded, where
DIAG, the latch and the state for the TLB lock may have been written too (spec/60_exceptions.md R250, R251, R253). -/
structure ReadyToEnter (t : Tid) (l : Latch) (s r : State) : Prop where
  evb : r.evb = s.evb
  cfg : r.cfg = s.cfg
  others : ∀ u, u ≠ t → r.thread u = s.thread u
  pc : (r.thread t).pc = (s.thread t).pc
  ssr : (r.thread t).ssr = (recordBadva (s.thread t) l).ssr
  badva0 : (r.thread t).badva0 = (recordBadva (s.thread t) l).badva0
  badva1 : (r.thread t).badva1 = (recordBadva (s.thread t) l).badva1
  tmode : (r.thread t).tmode = (s.thread t).tmode
  k0ls : (r.thread t).k0ls = (s.thread t).k0ls

section
variable {t : Tid} {l : Latch} {s r : State}

/-- A thread is ready once its latch's addresses are recorded, whatever is written to DIAG, the latch and the state for the TLB
lock. -/
theorem ReadyToEnter.of_thread {d : Word} {la : Option Latch} {v : LockState}
    (hth : r.thread t = { recordBadva (s.thread t) l with diag := d, latch := la, tlbls := v }) (hevb : r.evb = s.evb)
    (hcfg : r.cfg = s.cfg) (hothers : ∀ u, u ≠ t → r.thread u = s.thread u) : ReadyToEnter t l s r where
  evb := hevb
  cfg := hcfg
  others := hothers
  pc := (congrArg Thread.pc hth).trans (recordBadva_pc ..)
  ssr := by rw [hth]
  badva0 := by rw [hth]
  badva1 := by rw [hth]
  tmode := (congrArg Thread.tmode hth).trans (recordBadva_tmode ..)
  k0ls := (congrArg Thread.k0ls hth).trans (recordBadva_k0ls ..)

theorem readyToEnter_recorded (t : Tid) (l : Latch) (s : State) : ReadyToEnter t l s (s.recorded t l) :=
  .of_thread (State.recorded_thread_self s t l) rfl rfl fun _ hu => State.modThread_thread_ne s hu _

/-- The thread has taken its event as `Entered` says (spec/60_exceptions.md R250, R258). -/
theorem ReadyToEnter.entered (h : ReadyToEnter t l s r) (e : Event) (c : BitVec 8) (n : Word) :
    Entered s.evb l e c (resumePc s.cfg.preciseNext e c (s.thread t).pc n) (s.thread t)
      ((afterEvent t e c n r).thread t) := by
  rw [afterEvent_thread_self, h.evb, h.cfg, h.pc]
  exact entered_takenThread h.ssr h.badva0 h.badva1 ..

variable (e : Event) (c : BitVec 8) (n : Word)

theorem ReadyToEnter.afterEvent_tmode (h : ReadyToEnter t l s r) :
    ((afterEvent t e c n r).thread t).tmode = (s.thread t).tmode := by
  rw [afterEvent_thread_self]
  exact h.tmode

theorem ReadyToEnter.afterEvent_k0ls (h : ReadyToEnter t l s r) :
    ((afterEvent t e c n r).thread t).k0ls = (s.thread t).k0ls := by
  rw [afterEvent_thread_self]
  exact h.k0ls

variable {e}

/-- No event but IMPRECISE reaches the other threads (spec/60_exceptions.md R260). -/
theorem ReadyToEnter.afterEvent_others (h : ReadyToEnter t l s r) (hi : e ≠ .imprecise) (u : Tid) (hu : u ≠ t) :
    (afterEvent t e c n r).thread u = s.thread u := by
  rw [afterEvent_thread_ne _ _ _ _ _ hu, if_neg hi, h.others u hu]

end

/-! ### Events that need no lock -/

/-- The resume point of an event that is not IMPRECISE (spec/60_exceptions.md R248). -/
theorem resumePc_eq {e : Event} (hi : e ≠ .imprecise) (next : List (BitVec 8)) (c : BitVec 8) (pc n : Word) :
    resumePc next e c pc n =
      if e = .precise then (if c ∈ next then n else pc)
      else if e = .trap0 ∨ e = .trap1 ∨ e = .fptrap ∨ e = .debug then n
      else pc := by
  cases e with
  | imprecise => exact absurd rfl hi
  | precise => simp [resumePc]
  | _ => rfl

/-- A COMMIT enters a latched event that needs no lock (spec/60_exceptions.md R250, R254). -/
theorem Admitted.exec_commit_enters {t : Tid} {c : Word} {s : State} {l : Latch} (h : Admitted (.commit t c) s)
    (hl : (s.thread t).latch = some l) (hx : ssrEx (s.thread t).ssr = false) (ha : admittedPair l.event l.cause = true)
    (hm : isTlbMiss l.event = false) :
    exec (.commit t c) s = .next (afterEvent t l.event l.cause c (s.recorded t l)) := by
  rw [h.exec_commit_of_event hl, dispatch_of_idle hx, branchEvent_of_known ha hm]
  exact finishCommit_takeEvent ..

/-- A bit of SSR after the addresses are recorded, V0 first (spec/60_exceptions.md R255). -/
theorem recordBadva_ssr_getLsbD (th : Thread) (l : Latch) (j : Nat) :
    (recordBadva th l).ssr.getLsbD j =
      if l.vmask = 0 then th.ssr.getLsbD j
      else if j = 20 then l.vmask.getLsbD 0 else if j = 21 then l.vmask.getLsbD 1 else if j = 22 then l.vmask == 0b10
      else th.ssr.getLsbD j := by
  rw [recordBadva_ssr]
  by_cases h20 : j = 20
  · simp [h20]
  · by_cases h21 : j = 21 <;> simp [h20, h21]

/-- The shim signal carries SSR with the addresses recorded, and PC before entry (spec/60_exceptions.md R256, R262). -/
theorem afterEvent_recorded_sent {t : Tid} {e : Event} {c : BitVec 8} {l : Latch} (s : State) (n : Word) :
    (afterEvent t e c n (s.recorded t l)).sent =
      if (e = .trap0 ∨ e = .trap1) ∧ c = 0 then
        s.sent ++ [.shim t e 0 (recordBadva (s.thread t) l).ssr (s.thread t).pc]
      else s.sent := by
  rw [afterEvent_sent, State.recorded_thread_self, recordBadva_pc]
  rfl

/-- Settles O34: the event is entered from the state whose addresses are recorded. -/
theorem commitEntersTheLatchedEvent : Obligations.CommitEntersTheLatchedEvent := by
  intro t c s l h hl hx ha hm hi resume
  have hready := readyToEnter_recorded t l s
  refine ⟨_, h.exec_commit_enters hl hx ha hm, ?entered, hready.afterEvent_tmode .., ?diag, ?tlbls,
    hready.afterEvent_k0ls .., hready.afterEvent_others _ _ hi, ⟨fun htrap => ?shim, fun htrap => ?silent⟩,
    afterEvent_resp .., ?frame⟩
  case entered =>
    have hentered := hready.entered l.event l.cause c
    rwa [resumePc_eq hi] at hentered
  case diag => rw [afterEvent_diag, State.recorded_thread_self, recordBadva_diag]
  case tlbls => rw [afterEvent_tlbls, State.recorded_thread_self, recordBadva_tlbls]
  case shim =>
    exact ⟨_, (afterEvent_recorded_sent s c).trans (if_pos htrap), fun hv => by rw [recordBadva, if_pos hv],
      recordBadva_ssr_getLsbD (s.thread t) l⟩
  case silent => exact (afterEvent_recorded_sent s c).trans (if_neg htrap)
  case frame =>
    exact congrArg (fun x : State => { x with threads := s.threads })
      (afterEvent_frame t l.event l.cause c (s.recorded t l))

/-- Settles O38: the broadcast redirects as it enters, with the cause and the vector of IMPRECISE. -/
theorem impreciseRedirectsEveryThread : Obligations.ImpreciseRedirectsEveryThread := by
  intro t c s l h ht hl hx he hc
  have hready := readyToEnter_recorded t l s
  have hexec := h.exec_commit_enters hl hx (by rw [he, hc]; rfl) (by rw [he]; rfl)
  rw [he, hc] at hexec
  refine ⟨_, hexec, hready.entered .imprecise 0x44 c, hready.afterEvent_tmode .., ?diag, ?tlbls,
    hready.afterEvent_k0ls .., fun u hu => ?others, afterEvent_resp .., ?frame⟩
  case diag => rw [afterEvent_diag, State.recorded_thread_self, recordBadva_diag]
  case tlbls => rw [afterEvent_tlbls, State.recorded_thread_self, recordBadva_tlbls]
  case others =>
    rw [afterEvent_thread_ne _ _ _ _ _ hu, if_pos rfl, hready.others u hu, broadcastTo]
    simp only [ne_eq, hu, not_false_eq_true, true_and]
    rfl
  case frame =>
    exact congrArg (fun x : State => { x with threads := s.threads })
      (afterEvent_frame_of_no_trap (e := .imprecise) t 0x44 c (s.recorded t l) nofun nofun)

/-! ### The double exception -/

/-- A thread whose latched addresses are recorded and whose event has become PRECISE/DOUBLE_EXCEPT (spec/60_exceptions.md R251,
R255). -/
def Thread.supersede (l : Latch) (th : Thread) : Thread :=
  { recordBadva th l with diag := l.cause.setWidth 32, latch := some { l with event := .precise, cause := 0x03 } }

/-- The override does not touch what is recorded (spec/60_exceptions.md R250). -/
theorem recordBadva_of_double {th : Thread} {l : Latch} (hx : ssrEx th.ssr = true) (hr : l.event ≠ .reset) :
    recordBadva (overrideDouble th l).1 (overrideDouble th l).2 = th.supersede l := by
  rw [overrideDouble, if_pos ⟨hr, hx⟩, Thread.supersede, recordBadva, recordBadva]
  dsimp only
  split <;> rfl

/-- While SSR.EX is 1 a dispatch enters PRECISE/DOUBLE_EXCEPT, which the tables of R246 admit (spec/60_exceptions.md R251). -/
theorem dispatch_of_handler {t : Tid} {s : State} {l : Latch} (hx : ssrEx (s.thread t).ssr = true) (hr : l.event ≠ .reset)
    (c : Word) : dispatch t c l s = .next (takeEvent t .precise 0x03 c (s.modThread t (Thread.supersede l))) := by
  have hpair : (overrideDouble (s.thread t) l).2 = { l with event := .precise, cause := 0x03 } := by
    rw [overrideDouble, if_pos ⟨hr, hx⟩]
  rw [dispatch_eq, recordBadva_of_double hx hr, hpair]
  exact branchEvent_of_known rfl rfl c

/-- Settles O35: the event entered is PRECISE/DOUBLE_EXCEPT, from the state that holds the superseded cause in DIAG. -/
theorem eventDuringAHandlerIsADoubleException : Obligations.EventDuringAHandlerIsADoubleException := by
  intro t c s l h hl hx hr
  have hself : (s.modThread t (Thread.supersede l)).thread t = (s.thread t).supersede l := State.modThread_thread_self ..
  have hready : ReadyToEnter t l s (s.modThread t (Thread.supersede l)) :=
    .of_thread hself rfl rfl fun _ hu => State.modThread_thread_ne s hu _
  have hentered := hready.entered .precise 0x03 c
  rw [resumePc_eq (by simp), if_pos rfl] at hentered
  refine ⟨afterEvent t .precise 0x03 c (s.modThread t (Thread.supersede l)), ?exec, hentered, hentered.pc, ?diag,
    hready.afterEvent_tmode .., ?tlbls, hready.afterEvent_k0ls .., hready.afterEvent_others (e := .precise) _ _ nofun,
    afterEvent_resp .., ?frame⟩
  case exec =>
    rw [h.exec_commit_of_event hl, dispatch_of_handler hx hr]
    exact finishCommit_takeEvent ..
  case diag =>
    rw [afterEvent_diag, hself]
    rfl
  case tlbls =>
    rw [afterEvent_tlbls, hself]
    exact recordBadva_tlbls ..
  case frame =>
    exact congrArg (fun x : State => { x with threads := s.threads })
      (afterEvent_frame_of_no_trap (e := .precise) t 0x03 c (s.modThread t (Thread.supersede l)) nofun nofun)

/-! ### TLB misses -/

/-- A thread that finds the lock free, or owns it, acquires it (spec/41_lock.md R181). -/
theorem acquire_advances {l : LockId} {t : Tid} {s : State}
    (h : syscfgLock l s.syscfg = false ∨ lockState l (s.thread t) = .owner) : (acquire l t s).2 = true := by
  rcases acquire_cases l t s with ⟨-, hq⟩ | ⟨-, -, hq⟩ | ⟨hb, ho, -⟩
  · rw [hq]
  · rw [hq]
  · exact absurd h (by simp [hb, ho])

/-- After an acquire, whatever its outcome, the lock's bit is 1 (spec/41_lock.md R181). -/
theorem acquire_lockBit (l : LockId) (t : Tid) (s : State) : syscfgLock l (acquire l t s).1.syscfg = true := by
  rcases acquire_cases l t s with ⟨-, hq⟩ | ⟨hb, -, hq⟩ | ⟨hb, -, hq⟩ <;> rw [hq]
  · exact syscfgLock_setLock_self ..
  · exact hb
  · exact hb

/-- An acquire writes no other bit of SYSCFG (spec/41_lock.md R181). -/
theorem acquire_syscfg_getLsbD (l : LockId) (t : Tid) (s : State) {j : Nat} (hj : j ≠ lockBitIndex l) :
    (acquire l t s).1.syscfg.getLsbD j = s.syscfg.getLsbD j := by
  rcases acquire_cases l t s with ⟨-, hq⟩ | ⟨-, -, hq⟩ | ⟨-, -, hq⟩ <;> rw [hq]
  · exact (syscfgSetLock_getLsbD ..).trans (if_neg hj)
  · rfl

/-- What an acquire leaves of a thread whose addresses are recorded (spec/60_exceptions.md R253). -/
theorem acquire_recorded_thread_self (t : Tid) (l : Latch) (s : State) :
    (acquire .tlb t (s.recorded t l)).1.thread t =
      { recordBadva (s.thread t) l with
        tlbls := if (acquire .tlb t (s.recorded t l)).2 then .owner else .waiting } := by
  rw [acquire_tlbls_self, State.recorded_thread_self]

theorem readyToEnter_acquired (t : Tid) (l : Latch) (s : State) :
    ReadyToEnter t l s (acquire .tlb t (s.recorded t l)).1 := by
  have hframe := acquire_frame .tlb t (s.recorded t l)
  refine .of_thread (acquire_recorded_thread_self t l s) (congrArg State.evb hframe :) (congrArg State.cfg hframe :)
    fun u hu => ?_
  rw [acquire_thread_ne hu]
  exact State.modThread_thread_ne s hu _

theorem ne_of_isTlbMiss {e f : Event} (he : isTlbMiss e = true) (hf : isTlbMiss f = false) : e ≠ f := by
  rintro rfl
  simp [he] at hf

/-- A TLB miss resumes at PC (spec/60_exceptions.md R248). -/
theorem resumePc_of_miss {e : Event} (hm : isTlbMiss e = true) (next : List (BitVec 8)) (c : BitVec 8) (pc n : Word) :
    resumePc next e c pc n = pc := by
  cases e with
  | tlbMissX | tlbMissRw => rfl
  | _ => cases hm

/-- Settles O36: the thread acquires the TLB lock and enters the miss from the state in which it owns it. -/
theorem tlbMissIsEnteredUnderTheLock : Obligations.TlbMissIsEnteredUnderTheLock := by
  intro t c s l h hl hx hm ha hlock
  have hadv : (acquire .tlb t (s.recorded t l)).2 = true := by
    refine acquire_advances ?_
    rw [State.recorded_thread_self, recordBadva_lockState]
    exact hlock
  have hself := acquire_recorded_thread_self t l s
  have hready := readyToEnter_acquired t l s
  have hentered := hready.entered l.event l.cause c
  rw [resumePc_of_miss hm] at hentered
  refine ⟨afterEvent t l.event l.cause c (acquire .tlb t (s.recorded t l)).1, ?exec, hentered, ?tlbls, ?bit,
    fun j hj => ?bits, hready.afterEvent_tmode .., ?diag, hready.afterEvent_k0ls ..,
    hready.afterEvent_others _ _ (ne_of_isTlbMiss hm rfl), afterEvent_resp .., ?frame⟩
  case exec =>
    rw [h.exec_commit_of_event hl, dispatch_of_idle hx, branchEvent_of_acquired ha hm (Prod.ext rfl hadv)]
    exact finishCommit_takeEvent ..
  case tlbls => rw [afterEvent_tlbls, hself, hadv, if_pos rfl]
  case bit => rw [afterEvent_syscfg, acquire_lockBit]
  case bits =>
    rw [afterEvent_syscfg, acquire_syscfg_getLsbD _ _ _ hj]
    rfl
  case diag =>
    rw [afterEvent_diag, hself]
    exact recordBadva_diag ..
  case frame =>
    calc { afterEvent t l.event l.cause c (acquire .tlb t (s.recorded t l)).1 with
            threads := s.threads, syscfg := s.syscfg, resp := s.resp }
        = { (acquire .tlb t (s.recorded t l)).1 with threads := s.threads, syscfg := s.syscfg, resp := s.resp } :=
          congrArg (fun x : State => { x with threads := s.threads, syscfg := s.syscfg, resp := s.resp })
            (afterEvent_frame_of_no_trap t l.cause c (acquire .tlb t (s.recorded t l)).1 (ne_of_isTlbMiss hm rfl)
              (ne_of_isTlbMiss hm rfl))
      _ = s :=
          congrArg (fun x : State => { x with threads := s.threads, resp := s.resp })
            (acquire_frame .tlb t (s.recorded t l))

/-- A thread that finds the lock held by another waits (spec/41_lock.md R181). -/
theorem acquire_of_held {l : LockId} {t : Tid} {s : State} (hb : syscfgLock l s.syscfg = true)
    (ho : lockState l (s.thread t) ≠ .owner) : acquire l t s = (s.modThread t (setLockState l .waiting), false) := by
  rw [acquire, if_neg (by simp [hb]), if_neg ho]

/-- The thread whose TLB miss waits for the lock, after its COMMIT (spec/60_exceptions.md R253, spec/42_event_cmds.md
R206). -/
def Thread.awaitLock (l : Latch) (th : Thread) : Thread :=
  { recordBadva th l with tlbls := .waiting, missWait := true, bundle := .clear }

/-- A COMMIT of a TLB miss while another thread holds the TLB lock leaves its thread waiting (spec/60_exceptions.md R253). -/
theorem Admitted.exec_commit_awaits {t : Tid} {c : Word} {s : State} {l : Latch} (h : Admitted (.commit t c) s)
    (hl : (s.thread t).latch = some l) (hx : ssrEx (s.thread t).ssr = false) (hm : isTlbMiss l.event = true)
    (ha : admittedPair l.event l.cause = true) (hb : syscfgLock .tlb s.syscfg = true)
    (ho : (s.thread t).tlbls ≠ .owner) :
    exec (.commit t c) s =
      .next ((s.modThread t (Thread.awaitLock l)).respond .ok ((s.thread t).pc.setWidth 64)) := by
  have hheld : acquire .tlb t (s.recorded t l) = ((s.recorded t l).modThread t (setLockState .tlb .waiting), false) :=
    acquire_of_held hb (by rw [State.recorded_thread_self, recordBadva_lockState]; exact ho)
  have hpc : ((((s.recorded t l).modThread t (setLockState .tlb .waiting)).modThread t
      (fun th => { th with missWait := true })).thread t).pc = (s.thread t).pc := by simp
  rw [h.exec_commit_of_event hl, dispatch_of_idle hx, branchEvent_of_held ha hm hheld, andThen, finishCommit_eq, hpc,
    State.recorded, State.modThread_modThread, State.modThread_modThread, State.modThread_modThread]
  rfl

/-- Recording addresses neither reads nor writes what a wait writes. -/
theorem recordBadva_of_waiting (th : Thread) (l : Latch) (v : LockState) (w : Bool) (b : Bundle) :
    recordBadva { th with tlbls := v, missWait := w, bundle := b } l =
      { recordBadva th l with tlbls := v, missWait := w, bundle := b } := by
  unfold recordBadva
  split <;> rfl

/-- Waiting again changes nothing (spec/60_exceptions.md R253). -/
theorem Thread.awaitLock_idem (l : Latch) (th : Thread) : (th.awaitLock l).awaitLock l = th.awaitLock l := by
  rw [awaitLock, awaitLock, recordBadva_of_waiting, recordBadva_idem]

/-- Settles O37: the thread that waits meets the conditions of the wait again, and waiting again changes nothing. -/
theorem tlbMissWaitsForTheLock : Obligations.TlbMissWaitsForTheLock := by
  intro t c s l h hl hx hm ha hb ho
  refine ⟨_, h.exec_commit_awaits hl hx hm ha hb ho, rfl, fun c' => ?_⟩
  generalize hr : (s.thread t).pc.setWidth 64 = r
  have hth : ((s.modThread t (Thread.awaitLock l)).respond .ok r).thread t = (s.thread t).awaitLock l := by simp
  have hpc : ((s.thread t).awaitLock l).pc = (s.thread t).pc := recordBadva_pc ..
  have hadm : Admitted (.commit t c') ((s.modThread t (Thread.awaitLock l)).respond .ok r) := by
    refine ⟨h.1, ?_, .inl rfl, nofun, nofun⟩
    rw [Instr.tid, hth]
    exact (recordBadva_tmode ..).trans h.running
  have hagain := hadm.exec_commit_awaits (l := l) (by rw [hth]; exact (recordBadva_latch ..).trans hl)
    (by rw [hth]; exact (recordBadva_ex ..).trans hx) hm ha hb (by rw [hth]; nofun)
  rw [hagain, hth, hpc, hr, State.modThread_respond_respond, State.modThread_modThread]
  exact congrArg (fun m : State => Host.Outcome.next (m.respond .ok r)) (State.modThread_congr (Thread.awaitLock_idem ..))

/-! ### Unknown events -/

/-- The tables of R246 and R247, row by row. -/
theorem admittedPair_iff (e : Event) (c : BitVec 8) : admittedPair e c = true ↔
    (e = .precise ∧ c ∈ [0x03, 0x11, 0x12, 0x15, 0x1B, 0x1E, 0x20, 0x21, 0x22, 0x23, 0x24, 0x25]) ∨
    (e = .imprecise ∧ c = 0x44) ∨ (e = .tlbMissX ∧ (c = 0x60 ∨ c = 0x61)) ∨ (e = .tlbMissRw ∧ (c = 0x70 ∨ c = 0x71)) ∨
    e = .trap0 ∨ e = .trap1 ∨ (e = .fptrap ∧ c = 0xBF) ∨ (e = .debug ∧ c = 0x80) ∨
    (∃ n, e = .int n ∧ c.toNat = 0xC0 + n.val) ∨ (e = .reset ∧ c = 0x00) := by
  cases e with
  | int n =>
    have hn := n.isLt
    have hcause : c = 0xC0#8 + BitVec.ofNat 8 n.val ↔ c.toNat = 0xC0 + n.val := by
      rw [← BitVec.toNat_inj, BitVec.toNat_add, BitVec.toNat_ofNat, BitVec.toNat_ofNat]
      omega
    simpa [admittedPair] using hcause
  | _ => simp [admittedPair, preciseCauses]

/-- Settles O39: the branch stops the block in the state whose addresses are recorded. -/
theorem unknownEventsStopTheBlock : Obligations.UnknownEventsStopTheBlock := by
  refine ⟨admittedPair_iff, fun t c s l h hl hx ha => ?_⟩
  refine ⟨_, _, by rw [h.exec_commit_of_event hl, dispatch_of_idle hx, branchEvent_of_unknown ha]; rfl, ?_, rfl⟩
  rw [fatalInfo, State.recorded_thread_self, recordBadva_pc, recordBadva_badva0, recordBadva_badva1]

/-! ### The shared state outside KERNEL mode -/

/-- A command of a thread outside KERNEL mode changes its own thread alone, or is a COMMIT that dispatches an event: every
command that reaches further is privileged, or is RAISE_INT (spec/60_exceptions.md R270, spec/30_encoding.md R123). -/
theorem Effect.unprivileged {i : Instr} {s m : State} (h : Effect i s m) (hi : i.isInterrupt = false)
    (hk : s.mode i.tid ≠ .kernel) :
    (∃ f, m = s.modThread i.tid f) ∨
      (i.isCommit = true ∧ ∃ c l d, (s.thread i.tid).latch = some l ∧ dispatch i.tid c l s = .next d ∧
        m = d.modThread i.tid (fun th => { th with bundle := .clear })) := by
  have hnot : Admitted i s → i.privileged = false := by
    rintro ⟨-, -, -, -, hprivileged⟩
    exact Bool.eq_false_iff.mpr fun hp => hk (hprivileged hp)
  cases h with
  | keep => exact .inl ⟨id, (State.modThread_eq_self rfl).symm⟩
  | faulted | missed | raised => exact .inl ⟨_, rfl⟩
  | store _ _ ha _ _ _ hi => rcases hi with rfl | ⟨rfl, -⟩ <;> cases hnot ha
  | multiMatch _ _ _ _ ha => cases hnot ha
  | acquired l _ _ ha => cases l <;> cases hnot ha
  | retried l _ _ ha => cases l <;> cases hnot ha
  | released l _ _ ha => cases l <;> cases hnot ha
  | interrupted => cases hi
  | returning _ _ ha => cases hnot ha
  | cycles _ _ _ ha => cases hnot ha
  | written _ _ _ _ ha => cases hnot ha
  | ended => exact .inl ⟨_, State.modThread_modThread ..⟩
  | dispatched t c _ d l _ hl hd => exact .inr ⟨rfl, c, l, d, hl, hd, rfl⟩

/-- What a dispatch does to SYSCFG: nothing, but for the TLB lock's bit, which a dispatch sets only for a miss that it enters as
the lock's owner (spec/60_exceptions.md R253). -/
theorem dispatch_syscfg {t : Tid} {n : Word} {l : Latch} {s d : State} (h : dispatch t n l s = .next d) :
    (∀ j, j ≠ 11 → d.syscfg.getLsbD j = s.syscfg.getLsbD j) ∧
      (d.syscfg ≠ s.syscfg → (d.thread t).tlbls = .owner ∧ ssrEx (d.thread t).ssr = true) := by
  rw [dispatch_eq] at h
  generalize hr : s.setThread t (recordBadva (overrideDouble (s.thread t) l).1 (overrideDouble (s.thread t) l).2) = r at h
  have hsys : r.syscfg = s.syscfg := by rw [← hr, State.setThread_syscfg]
  rw [← hsys]
  obtain ⟨-, ⟨-, rfl⟩ | ⟨-, hadv, rfl⟩ | ⟨-, hwait, rfl⟩⟩ := branchEvent_next h
  · rw [takeEvent_syscfg]
    exact ⟨fun _ _ => rfl, fun hne => absurd rfl hne⟩
  · rw [takeEvent_syscfg, takeEvent_thread_self, acquire_tlbls_self, hadv]
    exact ⟨fun j hj => acquire_syscfg_getLsbD .tlb t r hj, fun _ => ⟨rfl, ssrEx_setEx ..⟩⟩
  · refine ⟨fun j hj => acquire_syscfg_getLsbD .tlb t r hj, fun hne => absurd ?_ hne⟩
    rcases acquire_cases .tlb t r with ⟨-, hq⟩ | ⟨-, -, hq⟩ | ⟨-, -, hq⟩
    · rw [hq] at hwait
      cases hwait
    · rw [hq, State.modThread_syscfg]
    · rw [hq, State.modThread_syscfg, State.modThread_syscfg]

/-- Settles O58: outside KERNEL mode a command changes its own thread, or dispatches the event latched for it. -/
theorem unprivilegedThreadsCannotChangeSharedState : Obligations.UnprivilegedThreadsCannotChangeSharedState := by
  intro i s s' h hi hk
  obtain ⟨m, code, r, hE, rfl⟩ := effect_of_exec h
  rcases hE.unprivileged hi hk with ⟨f, rfl⟩ | ⟨hc, c, l, d, hl, hd, rfl⟩
  · exact ⟨rfl, rfl, rfl, rfl, rfl, rfl, rfl, rfl, fun _ _ => rfl, fun hne => absurd rfl hne,
      fun _ u hu => State.modThread_thread_ne s hu f⟩
  · have hframe := dispatch_frame hd
    obtain ⟨hbits, hown⟩ := dispatch_syscfg hd
    refine ⟨(congrArg State.tlb hframe :), (congrArg State.evb hframe :), (congrArg State.cfgbase hframe :),
      (congrArg State.rev hframe :), (congrArg State.pcycle hframe :), (congrArg State.fatal hframe :),
      (congrArg State.cfg hframe :), (congrArg State.draws hframe :), hbits, fun hne => ⟨hc, ?_⟩, fun hno u hu => ?_⟩
    · obtain ⟨howner, hex⟩ := hown hne
      rw [State.mode, State.respond_thread, State.modThread_thread_self]
      exact ⟨howner, privMode_of_ex hex⟩
    · rw [State.respond_thread, State.modThread_thread_ne _ hu]
      exact (dispatch_other_thread hu hd).resolve_right (hno l hl)

/-! ### Entry into KERNEL mode -/

/-- A thread goes from `th` to `th'` without escaping its mode: if `th'` is in KERNEL mode then `th` was, or the PC of `th'`
stands at a vector (spec/60_exceptions.md R271). -/
structure EntersAtVector (evb : Word) (th th' : Thread) : Prop where
  kernel : privMode th'.ssr = .kernel → privMode th.ssr = .kernel ∨ ∃ e, th'.pc = vector evb e

section
variable {evb : Word} {th th' : Thread}

theorem EntersAtVector.of_ssr (h : th'.ssr = th.ssr) : EntersAtVector evb th th' :=
  ⟨fun hk => .inl (h ▸ hk)⟩

theorem EntersAtVector.of_pc (e : Event) (h : th'.pc = vector evb e) : EntersAtVector evb th th' :=
  ⟨fun _ => .inr ⟨e, h⟩⟩

/-- The mode is KERNEL by EX or by UM = 0, so a thread whose EX and UM are no nearer to it stays out (spec/10_state.md R36). -/
theorem EntersAtVector.of_flags (hx : ssrEx th'.ssr = true → ssrEx th.ssr = true) (hu : ssrUm th'.ssr = ssrUm th.ssr) :
    EntersAtVector evb th th' := by
  refine ⟨fun hk => ?_⟩
  rw [(privMode_iff _).1, hu] at hk
  exact .inl ((privMode_iff _).1.mpr (hk.imp_left hx))

theorem EntersAtVector.withBundle (h : EntersAtVector evb th th') (b : Bundle) :
    EntersAtVector evb th { th' with bundle := b } := ⟨h.kernel⟩

end

@[simp] theorem recordBadva_um (th : Thread) (l : Latch) : ssrUm (recordBadva th l).ssr = ssrUm th.ssr := by
  rw [ssrUm, recordBadva_ssr]
  simp [ssrUm]

/-- A return from an exception clears EX and keeps UM (spec/60_exceptions.md R269). -/
theorem endBundle_entersAtVector (evb c : Word) (th : Thread) : EntersAtVector evb th (endBundle c th) := by
  rw [endBundle_eq]
  by_cases hrte : th.bundle.retry = false ∧ th.bundle.rte = true
  · exact .of_flags (by simp [hrte]) (by simp [hrte])
  · exact .of_ssr (if_neg hrte)

/-- The broadcast redirects to the vector of IMPRECISE (spec/60_exceptions.md R260). -/
theorem broadcastTo_entersAtVector (n : Nat) (evb : Word) (t : Tid) (c : BitVec 8) (u : Tid) (th : Thread) :
    EntersAtVector evb th (broadcastTo n evb t c u th) := by
  unfold broadcastTo
  split
  · exact .of_pc .imprecise rfl
  · exact .of_ssr rfl

/-- A MODECTL write keeps SSR, or resets the thread it starts (spec/43_sreg.md R234). -/
theorem modectlThread_entersAtVector (p : Params) (evb : Word) (k : Nat) (t : Tid) (v : Word) (u : Tid) (th : Thread) :
    EntersAtVector evb th (modectlThread p evb k t v u th) := by
  unfold modectlThread
  split
  · exact .of_ssr rfl
  split
  · exact .of_ssr rfl
  split
  · exact .of_pc .reset (vector_reset evb).symm
  · exact .of_ssr rfl

/-- Of a system-register write, MODECTL resets threads, and SSR is written by a thread in KERNEL mode (spec/43_sreg.md R232,
R234). -/
theorem sregWrite_entersAtVector {t : Tid} {r : SReg} {v : Word} {s : State} (h : Admitted (.sregW t r v) s) (u : Tid) :
    EntersAtVector (sregWrite t r v s).evb (s.thread u) ((sregWrite t r v s).thread u) := by
  by_cases hm : r = .modectl
  · subst hm
    rw [sregWrite, modectlWrite_thread]
    exact modectlThread_entersAtVector ..
  by_cases hut : u = t
  · obtain ⟨-, -, -, -, hpriv⟩ := h
    subst hut
    exact ⟨fun _ => .inl (hpriv rfl)⟩
  · refine .of_ssr ?_
    rw [(sregWrite_other_thread hut r v s).resolve_right hm]

/-- A dispatch enters at the vector of its event, for the other threads too, or leaves EX and UM (spec/60_exceptions.md R253,
R258, R260). -/
theorem dispatch_entersAtVector {t : Tid} {n : Word} {l : Latch} {s d : State} (h : dispatch t n l s = .next d) (u : Tid) :
    EntersAtVector s.evb (s.thread u) (d.thread u) := by
  by_cases hut : u = t
  · subst hut
    rcases dispatch_thread_self h with ⟨e, c, resume, v, hth⟩ | ⟨-, -, hth⟩ <;> rw [hth]
    · exact .of_pc e rfl
    · exact .of_flags (by simp) (by simp)
  · rcases dispatch_thread_ne hut h with hth | ⟨c, hth⟩ <;> rw [hth]
    · exact .of_ssr rfl
    · exact broadcastTo_entersAtVector ..

/-- No command takes a thread into KERNEL mode but to a vector (spec/60_exceptions.md R271). -/
theorem Effect.entersAtVector {i : Instr} {s m : State} (h : Effect i s m) (u : Tid) :
    EntersAtVector m.evb (s.thread u) (m.thread u) := by
  cases h with
  | keep | store | cycles => exact .of_ssr rfl
  | faulted | multiMatch | missed | raised | returning => exact .of_ssr (State.modThread_keeps Thread.ssr ..)
  | acquired l => exact .of_ssr (acquire_keeps Thread.ssr (setLockState_ssr l) ..)
  | retried l =>
    exact .of_ssr ((State.modThread_keeps Thread.ssr ..).trans (acquire_keeps Thread.ssr (setLockState_ssr l) ..))
  | released l => exact .of_ssr (release_keeps Thread.ssr (setLockState_ssr l) ..)
  | interrupted t n =>
    rw [enter, State.modThread_thread]
    split
    · exact .of_pc (.int n) rfl
    · exact .of_ssr (State.modThread_keeps Thread.ssr ..)
  | written t r v _ ha => exact sregWrite_entersAtVector ha u
  | ended t c =>
    rw [State.modThread_modThread, State.modThread_thread]
    split
    · exact (endBundle_entersAtVector _ c (s.thread u)).withBundle .clear
    · exact .of_ssr rfl
  | dispatched t c _ d l _ _ hd =>
    have hevb : d.evb = s.evb := (congrArg State.evb (dispatch_frame hd) :)
    have hd := dispatch_entersAtVector hd u
    rw [State.modThread_evb, hevb, State.modThread_thread]
    split
    · exact hd.withBundle .clear
    · exact hd

theorem exec_entersAtVector {i : Instr} {s s' : State} (h : exec i s = .next s') (u : Tid) :
    EntersAtVector s'.evb (s.thread u) (s'.thread u) := by
  obtain ⟨m, code, r, hE, rfl⟩ := effect_of_exec h
  exact hE.entersAtVector u

/-- Core reset leaves every thread at the boot vector, which EVB then holds (spec/70_reset_and_hazards.md R309). -/
theorem coreReset_entersAtVector (s : State) (u : Tid) :
    EntersAtVector (coreReset s).evb (s.thread u) ((coreReset s).thread u) := by
  rw [coreReset_thread, coreResetThread]
  split
  · exact .of_pc .reset (vector_reset _).symm
  · exact .of_ssr rfl

/-- A reset leaves its thread at EVB (spec/70_reset_and_hazards.md R309). -/
theorem threadReset_entersAtVector (t : Tid) (s : State) (u : Tid) :
    EntersAtVector (threadReset t s).evb (s.thread u) ((threadReset t s).thread u) := by
  by_cases hut : u = t
  · rw [hut, threadReset_thread_self]
    exact .of_pc .reset (vector_reset _).symm
  · exact .of_ssr (congrArg Thread.ssr (threadReset_thread_ne hut s))

/-- No item but an image write takes a thread into KERNEL mode but to a vector (spec/60_exceptions.md R271). -/
theorem serve_entersAtVector {x : Input} {s s' : State} (hs : serve x s = .next s')
    (hw : ∀ bytes g, x ≠ .imageWrite bytes g) (u : Tid) : EntersAtVector s'.evb (s.thread u) (s'.thread u) := by
  rcases serve_next hs with ⟨_, i, -, -, he⟩ | ⟨_, _, _, -, -, rfl⟩ | ⟨-, rfl⟩ | ⟨t, -, -, ⟨-, rfl⟩ | ⟨-, rfl⟩⟩ |
    ⟨-, -, rfl⟩ | ⟨bytes, g, rfl, -⟩
  · exact exec_entersAtVector he u
  · exact .of_ssr rfl
  · exact (coreReset_entersAtVector s u :)
  · exact .of_ssr rfl
  · exact (threadReset_entersAtVector t s u :)
  · exact .of_ssr rfl
  · exact absurd rfl (hw bytes g)

/-- Settles O59: a thread that was outside KERNEL mode is left with the other way in, a vector. -/
theorem kernelModeIsEnteredOnlyAtAVector : Obligations.KernelModeIsEnteredOnlyAtAVector := by
  refine ⟨fun i s s' u h hout hin => ((exec_entersAtVector h u).kernel hin).resolve_left hout, fun s s' u hw h hout hin => ?_⟩
  obtain ⟨x, rest, hp, hs⟩ := step_next h
  have hx : ∀ bytes g, x ≠ .imageWrite bytes g := fun bytes g he => hw bytes g rest (he ▸ hp)
  exact ((serve_entersAtVector hs hx u).kernel hin).resolve_left hout

end Sys2Proof.Machine
end

section
/-! PROOFS. The family of spec/70_reset_and_hazards.md: what core reset and a per-thread reset leave (R301 to R314), the boot
state (R315), the stopped block (R313), and a lock whose owner was reset (R318). -/

namespace Sys2Proof.Machine

/-! ### What one command does to the locks -/

/-- The one acquire or release that a command of thread `t` performs, if it performs any (spec/41_lock.md R181, R182). -/
inductive LockTurn (t : Tid) (s : State) : State → Prop
  | idle : LockTurn t s s
  | acquire (l : LockId) : LockTurn t s (acquire l t s).1
  | release (l : LockId) : LockTurn t s (release l t s)

theorem LockSteady.refl (k : LockId) (s : State) : LockSteady k s s := ⟨rfl, rfl, fun _ => .inl rfl⟩

/-- A command goes from `s` to `m` by one turn at the locks, and leaves lock `k` alone before and after it but for resets of
threads. -/
def ByLockTurn (k : LockId) (t : Tid) (s m : State) : Prop :=
  ∃ r q, LockSteady k s r ∧ LockTurn t r q ∧ LockSteady k q m

section
variable {k : LockId} {t : Tid} {s m : State}

theorem ByLockTurn.of_steady (h : LockSteady k s m) : ByLockTurn k t s m := ⟨s, s, .refl k s, .idle, h⟩

theorem ByLockTurn.of_turn (h : LockTurn t s m) : ByLockTurn k t s m := ⟨s, m, .refl k s, h, .refl k m⟩

theorem ByLockTurn.after {m' : State} (h : ByLockTurn k t s m) (hm : LockSteady k m m') : ByLockTurn k t s m' := by
  obtain ⟨r, q, hr, hq, hqm⟩ := h
  exact ⟨r, q, hr, hq, hqm.trans hm⟩

/-- Recording the addresses of the latched event touches no lock (spec/60_exceptions.md R251, R255). -/
theorem recorded_steady (k : LockId) (t : Tid) (l : Latch) (s : State) :
    LockSteady k s (s.setThread t
      (recordBadva (overrideDouble (s.thread t) l).1 (overrideDouble (s.thread t) l).2)) := by
  refine ⟨rfl, rfl, fun u => .inl ?_⟩
  by_cases hu : u = t
  · rw [hu, State.setThread_thread_self, recordBadva_lockState, overrideDouble_lockState]
  · rw [State.setThread_thread_ne _ hu]

/-- The one turn of a dispatch is the acquire of the TLB lock by a TLB miss (spec/60_exceptions.md R253). -/
theorem dispatch_lockTurn {n : Word} {l : Latch} (h : dispatch t n l s = .next m) : ByLockTurn k t s m := by
  have hrec := recorded_steady k t l s
  rw [dispatch_eq] at h
  obtain ⟨-, ⟨-, rfl⟩ | ⟨-, -, rfl⟩ | ⟨-, -, rfl⟩⟩ := branchEvent_next h
  · exact .of_steady (hrec.trans (takeEvent_steady ..))
  · exact ⟨_, _, hrec, .acquire .tlb, takeEvent_steady ..⟩
  · exact ⟨_, _, hrec, .acquire .tlb, .modThread ..⟩

/-- Every command reaches a lock by one turn at most: the lock commands, the unlock commands and the COMMIT of a TLB miss
(spec/41_lock.md R184 to R188, spec/60_exceptions.md R253). -/
theorem Effect.lockTurn {i : Instr} (h : Effect i s m) : ByLockTurn k i.tid s m := by
  cases h with
  | keep | store | cycles => exact .of_steady ⟨rfl, rfl, fun _ => .inl rfl⟩
  | faulted | multiMatch | missed | raised => exact .of_steady (raise_steady ..)
  | acquired l t =>
    rw [lockInstr_tid]
    exact .of_turn (.acquire l)
  | retried l t =>
    rw [lockInstr_tid]
    exact (ByLockTurn.of_turn (.acquire l)).after (.modThread ..)
  | released l t =>
    rw [unlockInstr_tid]
    exact .of_turn (.release l)
  | interrupted t => exact .of_steady ((LockSteady.modThread s t).trans (.modThread _ t))
  | returning t => exact .of_steady (.modThread s t)
  | written t r v => exact .of_steady (sregWrite_steady k t r v s)
  | ended t c => exact .of_steady ((LockSteady.modThread s t (endBundle_lockState k c)).trans (.modThread _ t))
  | dispatched t c s m l _ _ hd => exact (dispatch_lockTurn hd).after (.modThread m t)

end

/-! ### A lock whose owner was reset -/

section
variable {k : LockId} {t : Tid} {s s' : State}

/-- A change that leaves a lock alone but for resets of threads leaves it dead (spec/70_reset_and_hazards.md R318). -/
theorem LockDead.of_steady (h : LockDead k s) (hs : LockSteady k s s') : LockDead k s' := by
  obtain ⟨hbit, hnone⟩ := h
  refine ⟨hs.bit.trans hbit, fun u hu => ?_⟩
  rw [State.hasThread, hs.cfg] at hu
  rcases hs.states u with he | he <;> rw [he]
  · exact hnone u hu
  · nofun

/-- No acquire takes a dead lock: its bit is 1, so the thread waits (spec/41_lock.md R181). -/
theorem LockDead.acquire (h : LockDead k s) (ht : s.hasThread t) : LockDead k (acquire k t s).1 := by
  obtain ⟨hbit, hnone⟩ := h
  rw [acquire_of_held hbit (hnone t ht)]
  refine ⟨hbit, fun u hu => ?_⟩
  by_cases hut : u = t
  · rw [hut, State.modThread_thread_self, lockState_set_self]
    nofun
  · rw [State.modThread_thread_ne _ hut]
    exact hnone u hu

/-- No thread frees a dead lock or hands it over: none owns it, so a release is a no-op (spec/41_lock.md R182). A turn at the
other lock leaves it alone. -/
theorem LockDead.turn (h : LockDead k s) (ht : s.hasThread t) (hq : LockTurn t s s') : LockDead k s' := by
  cases hq with
  | idle => exact h
  | acquire l =>
    by_cases hk : k = l
    · exact hk ▸ h.acquire ht
    · exact h.of_steady (acquire_steady_other hk t s)
  | release l =>
    by_cases hk : k = l
    · rwa [release_of_not_owner (hk ▸ h.2 t ht)]
    · exact h.of_steady (release_steady_other hk t s)

/-- A command of a thread that exists leaves a dead lock dead. -/
theorem LockDead.command {i : Instr} (h : LockDead k s) (ht : s.hasThread i.tid) (he : Effect i s s') : LockDead k s' := by
  obtain ⟨r, q, hr, hq, hm⟩ := he.lockTurn (k := k)
  have htr : r.hasThread i.tid := by rwa [State.hasThread, hr.cfg]
  exact ((h.of_steady hr).turn htr hq).of_steady hm

/-- Every item but core reset and an image write leaves a dead lock dead. -/
theorem serve_keeps_lockDead {x : Input} (hs : serve x s = .next s') (hw : ∀ bytes g, x ≠ .imageWrite bytes g)
    (hc : x ≠ .rstCore) (h : LockDead k s) : LockDead k s' := by
  rcases serve_next hs with ⟨_, i, -, hd, he⟩ | ⟨_, _, _, -, -, rfl⟩ | ⟨rfl, -⟩ | ⟨t, -, -, ⟨-, rfl⟩ | ⟨-, rfl⟩⟩ |
    ⟨-, -, rfl⟩ | ⟨bytes, g, rfl, -⟩
  · obtain ⟨m, code, r, hE, rfl⟩ := effect_of_exec he
    exact (h.command (decode_tid_lt hd) hE :)
  · exact h
  · exact absurd rfl hc
  · exact h
  · exact (h.of_steady (threadReset_steady k t s) :)
  · exact h
  · exact absurd rfl (hw bytes g)

end

/-- Settles O53: a step serves one item, and the next item is neither core reset nor an image write. -/
theorem lockOfAResetOwnerStaysDead : Obligations.LockOfAResetOwnerStaysDead := by
  intro l s s' hw hc hdead h
  obtain ⟨x, rest, hp, hs⟩ := step_next h
  exact serve_keeps_lockDead hs (fun bytes g he => hw bytes g rest (he ▸ hp)) (fun he => hc rest (he ▸ hp)) hdead

/-! ### The steps that serve a reset -/

section
variable {s : State} {rest : List Input}

/-- A core reset ends whatever bundle was begun (spec/70_reset_and_hazards.md R300, R301). -/
theorem step_rstCore (h : s.port = .rstCore :: rest) :
    step s = .next { coreReset { s with port := rest, inBundle := none } with resp := none } := by
  rw [step, h]
  rfl

/-- A step that serves a reset of one thread only takes it off the port. -/
theorem step_rstThread {t : Tid} (h : s.port = .rstThread t :: rest) :
    step s = serveRstThread t { s with port := rest } := by
  rw [step, h]
  rfl

/-- RST_THREAD of a thread that exists resets it (spec/70_reset_and_hazards.md R305). -/
theorem serveRstThread_of {t : Tid} (ht : s.hasThread t) (hf : s.fatal = none) :
    serveRstThread t s = .next { threadReset t s with resp := none } := by
  rw [serveRstThread, if_neg (Nat.not_le.mpr ht), if_neg (by simp [hf])]

/-- RST_THREAD has no effect on a stopped block (spec/70_reset_and_hazards.md R313). -/
theorem serveRstThread_of_fatal {t : Tid} (ht : s.hasThread t) (hf : s.fatal ≠ none) :
    serveRstThread t s = .next { s with resp := none } := by
  rw [serveRstThread, if_neg (Nat.not_le.mpr ht), if_pos (Option.isSome_iff_ne_none.mpr hf)]

end

/-! ### The stopped block -/

/-- Reading the image leaves the fatal record (spec/20_memory.md R105). -/
theorem serveImageRead_fatal {s s' : State} (h : serveImageRead s = .next s') : s'.fatal = s.fatal := by
  unfold serveImageRead at h
  split at h
  · rw [← Host.Outcome.next.inj h]
    rfl
  · cases h

/-- A malformed word is answered FATAL too by a stopped block (spec/30_encoding.md R122 step 1). -/
theorem serveCommand_of_fatal {s : State} (hf : s.fatal ≠ none) (k : Command) : serveCommand k s = answer .fatal 0 s := by
  unfold serveCommand
  split
  · exact if_pos (Option.isSome_iff_ne_none.mpr hf)
  · exact exec_of_fatal hf

/-- Settles O9, item by item. -/
theorem stoppedBlockWaitsForCoreReset : Obligations.StoppedBlockWaitsForCoreReset := by
  refine fun s rest hf => ⟨fun k hp => ?_, fun t ht hp => ?_, fun s' hp h => ?_, fun hp => ⟨_, step_rstCore hp, rfl⟩⟩
  · refine ⟨_, (step_command hp).trans (serveCommand_of_fatal ?_ k)⟩
    exact hf
  · rw [step_rstThread hp]
    exact serveRstThread_of_fatal ht hf
  · rw [step_imageRead hp] at h
    exact (serveImageRead_fatal h :)

/-! ### What a reset leaves -/

/-- A thread after a per-thread reset, whose four unspecified registers are free (spec/70_reset_and_hazards.md R305 to
R311). -/
theorem resetThread_eq (p : Params) (evb : Word) (k : Nat) (th : Thread) :
    ∃ elr badva0 badva1 diag, resetThread p evb k th =
      ⟨evb, if p.resetSetsEx then 0x00020000 else 0, elr, badva0, badva1, diag, th.tmode, .unlocked, .unlocked, none,
        ⟨false, false, none⟩, false⟩ :=
  ⟨_, _, _, _, rfl⟩

/-- Settles O46: thread slot by thread slot, core reset is a per-thread reset at the boot vector. -/
theorem coreResetSetsTheBootState : Obligations.CoreResetSetsTheBootState := by
  intro s rest hp
  refine ⟨_, step_rstCore hp, Memory.read_nil, rfl, rfl, rfl, rfl, rfl, rfl, rfl, rfl, rfl, rfl, ?_, fun u hu => ?_⟩
  · rw [← tids_eq_filter]
    rfl
  · rw [State.thread_resp, coreReset_thread, coreResetThread, if_pos hu]
    exact resetThread_eq ..

/-- Settles O47: the named thread is reset, and the others and the shared state stay. -/
theorem threadResetKeepsTheModeAndTheLockBits : Obligations.ThreadResetKeepsTheModeAndTheLockBits := by
  intro t s rest hp ht hf
  obtain ⟨elr, badva0, badva1, diag, hth⟩ := resetThread_eq s.cfg s.evb s.draws (s.thread t)
  refine ⟨_, elr, badva0, badva1, diag, (step_rstThread hp).trans (serveRstThread_of ht hf), ?_, fun u hu => ?_, rfl, rfl⟩
  · rw [State.thread_resp, threadReset_thread_self]
    exact hth
  · rw [State.thread_resp, threadReset_thread_ne hu, State.thread_port]

/-! ### The boot state -/

/-- A thread of the boot state: thread 0 runs, the others are Off (spec/70_reset_and_hazards.md R301, R315). -/
theorem resetWith_thread (p : Params) (u : Tid) :
    (State.resetWith p).thread u = Thread.atReset p (if u = 0 then .run else .off) := by
  fin_cases u <;> rfl

@[simp] theorem atReset_lockState (l : LockId) (p : Params) (m : TMode) : lockState l (Thread.atReset p m) = .unlocked := by
  cases l <;> rfl

/-- A thread that was reset is in KERNEL mode, with SSR.EX set or with SSR.UM clear (spec/70_reset_and_hazards.md R308). -/
theorem privMode_resetSsr (p : Params) : privMode (resetSsr p) = .kernel := by
  unfold resetSsr
  split <;> rfl

/-- Every bit of SYSCFG is 0 in the boot state (spec/70_reset_and_hazards.md R301). -/
theorem resetWith_syscfg_getLsbD (p : Params) (j : Nat) : (State.resetWith p).syscfg.getLsbD j = false :=
  BitVec.getLsbD_zero

theorem resetWith_syscfgLock (l : LockId) (p : Params) : syscfgLock l (State.resetWith p).syscfg = false :=
  resetWith_syscfg_getLsbD p _

/-- No thread has or awaits a lock in the boot state (spec/70_reset_and_hazards.md R301, R307). -/
theorem resetWith_lockHolds (l : LockId) (p : Params) : LockHolds l (State.resetWith p) :=
  .of_unlocked fun u _ => by rw [resetWith_thread, atReset_lockState]

/-- No interrupt is accepted in the boot state, where SYSCFG.GIE is 0 (spec/70_reset_and_hazards.md R315,
spec/60_exceptions.md R265). -/
theorem resetWith_acceptsInt (p : Params) (t : Tid) : acceptsInt t (State.resetWith p) = false := by
  have hgie : syscfgGie (State.resetWith p).syscfg = false := resetWith_syscfg_getLsbD p 4
  simp [acceptsInt, hgie]

theorem resetWith_latchInv (p : Params) : LatchInv (State.resetWith p) := fun t _ => by
  rw [resetWith_thread]
  exact Thread.LatchOk.of_empty rfl rfl

theorem resetWith_bundleInv (p : Params) : BundleInv (State.resetWith p) := fun _ t _ => by
  rw [resetWith_thread]
  exact .inl ⟨rfl, .inr rfl⟩

/-- Settles O48: the values of the boot state, and the invariants by what each of its threads holds. -/
theorem resetStateIsTheBootState : Obligations.ResetStateIsTheBootState := by
  refine ⟨fun p => ?_, rfl⟩
  refine ⟨rfl, privMode_resetSsr p, rfl, rfl, rfl, resetWith_syscfg_getLsbD p 0, resetWith_acceptsInt p,
    resetWith_syscfgLock .tlb p, resetWith_syscfgLock .k0 p, Memory.read_nil, rfl, rfl, fun t ht => ?_, rfl,
    ⟨resetWith_lockHolds .tlb p, resetWith_lockHolds .k0 p⟩, resetWith_latchInv p, resetWith_bundleInv p, rfl⟩
  rw [resetWith_thread, if_neg ht]
  rfl

end Sys2Proof.Machine
end
